-- ==== Sys2Proof/Word.lean ====
section
/-! DEFINITION. The words of the block: 32-bit registers and bus words, bytes for the byte lanes, and the named binary32 constants (R16, R22, R72, R73). -/

namespace Sys2Proof

/-- One byte lane of a bus word (R72). -/
abbrev Byte := BitVec 8

/-- One register or memory word; also a binary32 number, sign in bit 31 (R17, R73). -/
abbrev Word := BitVec 32

/-- A byte offset inside the 32 KiB window (R70). -/
abbrev Offset := BitVec 15

/-- `u32_of(n)` of R18 for a natural number: n mod 2^32. -/
def u32 (n : Nat) : Word := BitVec.ofNat 32 n

/-- A one-bit value in a 32-bit word: `zext_32` of R16. -/
def flagWord (b : Bool) : Word := if b then 1 else 0

/-- +0.0 (R22). -/
abbrev posZero : Word := 0x00000000#32

/-- 1.0 (R22). -/
abbrev one32 : Word := 0x3F800000#32

end Sys2Proof
end

