-- ==== Sys2Proof/Syntax.lean ====
section
/-! DEFINITION. The seventeen commands of the opcode map (R117), one constructor for each row of the opcode table. -/

namespace Sys2Proof

/-- Everything in a command word besides OP, in the one format of R111.
OP alone selects the command (R119); these fields are checked by the command it selects (R110). -/
structure Fields where
  /-- SUB, bits 11:8: source selector. -/
  sub : BitVec 4
  /-- LEN, bits 21:16: block length, or log2 of the spectral size. -/
  len : BitVec 6
  /-- Reserved bits 15:12, which must be 0. -/
  rsv15_12 : BitVec 4
  /-- Reserved bits 31:22, which must be 0. -/
  rsv31_22 : BitVec 10
  deriving DecidableEq, Repr

/-- A command of the block (R117). -/
inductive Instr where
  /-- 0x00, R280 -/
  | nop (f : Fields)
  /-- 0x01, R281 -/
  | softReset (f : Fields)
  /-- 0x10, R141 -/
  | bufAppend (f : Fields)
  /-- 0x11, R143 -/
  | bufIsFull (f : Fields)
  /-- 0x20, R162 -/
  | zcProcess (f : Fields)
  /-- 0x21, R164 -/
  | zcReset (f : Fields)
  /-- 0x22, R166 -/
  | snapStart (f : Fields)
  /-- 0x23, R167 -/
  | snapCheck (f : Fields)
  /-- 0x24, R168 -/
  | snapComplete (f : Fields)
  /-- 0x30, R192 -/
  | specEstimate (f : Fields)
  /-- 0x40, R211 -/
  | quantRemap (f : Fields)
  /-- 0x41, R213 -/
  | quantCheck (f : Fields)
  /-- 0x50, R236 -/
  | oscStart (f : Fields)
  /-- 0x51, R238 -/
  | oscSetFreq (f : Fields)
  /-- 0x52, R242 -/
  | oscProcess (f : Fields)
  /-- 0x60, R262 -/
  | edgeRising (f : Fields)
  /-- 0x61, R263 -/
  | edgeFalling (f : Fields)
  deriving DecidableEq, Repr

/-- The fields of a command word, whichever command it selects (R111). -/
def Instr.fields : Instr → Fields
  | .nop f | .softReset f | .bufAppend f | .bufIsFull f | .zcProcess f | .zcReset f
  | .snapStart f | .snapCheck f | .snapComplete f | .specEstimate f | .quantRemap f
  | .quantCheck f | .oscStart f | .oscSetFreq f | .oscProcess f | .edgeRising f
  | .edgeFalling f => f

end Sys2Proof
end

