-- ==== Sys2Proof/Decode.lean ====
section
/-! DEFINITION. Decoding a command word and encoding one, from the field table (R111) and the opcode map (R117). -/

namespace Sys2Proof

/-- Why a byte string is not a command. -/
inductive Reject where
  /-- OP is not in the opcode map (R118): the command ends with ILLEGAL_OPCODE. -/
  | illegalOpcode (op : BitVec 8)
  /-- Fewer than the four bytes of a command word (R120). -/
  | tooShort (bytes : Nat)
  deriving DecidableEq, Repr

/-- OP = c[7:0] (R110). -/
def opField (c : Word) : BitVec 8 := c.extractLsb' 0 8

/-- SUB, LEN and the reserved bits of a command word (R110, R111). -/
def fieldsOf (c : Word) : Fields where
  sub := c.extractLsb' 8 4
  len := c.extractLsb' 16 6
  rsv15_12 := c.extractLsb' 12 4
  rsv31_22 := c.extractLsb' 22 10

/-- The opcode map (R117): OP and the command it selects. -/
def opcodeMap : List (BitVec 8 × (Fields → Instr)) :=
  [(0x00, .nop), (0x01, .softReset),
   (0x10, .bufAppend), (0x11, .bufIsFull),
   (0x20, .zcProcess), (0x21, .zcReset), (0x22, .snapStart), (0x23, .snapCheck),
   (0x24, .snapComplete)] ++
  [(0x30, .specEstimate),
   (0x40, .quantRemap), (0x41, .quantCheck),
   (0x50, .oscStart), (0x51, .oscSetFreq), (0x52, .oscProcess),
   (0x60, .edgeRising), (0x61, .edgeFalling)]

/-- The command a value of OP selects; none where it is unassigned (R118). -/
def commandOf (op : BitVec 8) : Option (Fields → Instr) :=
  (opcodeMap.find? (fun row => row.1 == op)).map (·.2)

/-- Decoding a 32-bit command word (R110): total, rejecting an unassigned OP by name. -/
def decode (c : Word) : Except Reject Instr :=
  match commandOf (opField c) with
  | some mk => .ok (mk (fieldsOf c))
  | none => .error (.illegalOpcode (opField c))

/-- The bus word whose byte lanes 0..3 carry the given bytes, little-endian (R72). -/
def wordOfLanes (b0 b1 b2 b3 : Byte) : Word := b3 ++ b2 ++ b1 ++ b0

/-- Decoding a string of bytes, lowest lane first; total on any bytes. Every command is four bytes long (R120). -/
def decodeBytes : List Byte → Except Reject (Instr × List Byte)
  | b0 :: b1 :: b2 :: b3 :: rest => (decode (wordOfLanes b0 b1 b2 b3)).map (·, rest)
  | short => .error (.tooShort short.length)

/-- The OP value of each command (R117). -/
def opcode : Instr → BitVec 8
  | .nop _ => 0x00
  | .softReset _ => 0x01
  | .bufAppend _ => 0x10
  | .bufIsFull _ => 0x11
  | .zcProcess _ => 0x20
  | .zcReset _ => 0x21
  | .snapStart _ => 0x22
  | .snapCheck _ => 0x23
  | .snapComplete _ => 0x24
  | .specEstimate _ => 0x30
  | .quantRemap _ => 0x40
  | .quantCheck _ => 0x41
  | .oscStart _ => 0x50
  | .oscSetFreq _ => 0x51
  | .oscProcess _ => 0x52
  | .edgeRising _ => 0x60
  | .edgeFalling _ => 0x61

/-- The command word of a command, field by field from bit 31 down (R111). -/
def encode (i : Instr) : Word :=
  i.fields.rsv31_22 ++ i.fields.len ++ i.fields.rsv15_12 ++ i.fields.sub ++ opcode i

/-- Byte lane k of a word: bits 8k+7..8k (R72). -/
def laneOf (w : Word) (k : Nat) : Byte := w.extractLsb' (8 * k) 8

/-- What the decoder reads from a command word given by its lowest `nbits` bits, every bit above them 0. -/
def decodeTableWord (nbits w : Nat) : Option Instr :=
  let bits := w % 2 ^ nbits
  if bits < 2 ^ 32 then
    let c : Word := BitVec.ofNat 32 bits
    (decodeBytes [laneOf c 0, laneOf c 1, laneOf c 2, laneOf c 3]).toOption.map (·.1)
  else none

end Sys2Proof
end

