-- ==== Sys2Proof/Machine/Float.lean ====
section
/-! DEFINITION. Binary32 arithmetic (R17 to R19, D2), computed exactly on integers and rounded once.
Every finite binary32 number is a whole multiple of 2^-149, so its value is held as that multiple (assumptions 11, 15). -/

namespace Sys2Proof.Machine.F32

/-- The sign bit (R17). -/
def sign (x : Word) : Bool := x.getLsbD 31

/-- The biased exponent, bits 30:23 (R17). -/
def expField (x : Word) : Nat := (x.extractLsb' 23 8).toNat

/-- The fraction, bits 22:0 (R17). -/
def fracField (x : Word) : Nat := (x.extractLsb' 0 23).toNat

/-- `isnan` of R17. -/
def isNaN (x : Word) : Bool := expField x == 255 && fracField x != 0

/-- `isinf` of R17. -/
def isInf (x : Word) : Bool := expField x == 255 && fracField x == 0

/-- `finite` of R17: neither a NaN nor an infinity. -/
def finite (x : Word) : Bool := expField x != 255

/-- |val(x)| * 2^149, a natural number for every finite x (R17).
On an infinity the same formula gives a number above every finite one, which is how comparisons order it. -/
def mag (x : Word) : Nat :=
  if expField x = 0 then fracField x else (2 ^ 23 + fracField x) * 2 ^ (expField x - 1)

/-- val(x) * 2^149 for finite x: both zeros have value 0 (R17). -/
def ival (x : Word) : Int := if sign x then -(mag x : Int) else (mag x : Int)

/-- val(x) for finite x (R17). -/
def val (x : Word) : ℚ := (ival x : ℚ) / 2 ^ 149

/-- `a <f b` (R19): the IEEE ordered comparison. -/
def lt (a b : Word) : Bool := !isNaN a && !isNaN b && decide (ival a < ival b)

/-- `a <=f b` (R19). -/
def le (a b : Word) : Bool := !isNaN a && !isNaN b && decide (ival a ≤ ival b)

/-- `a ==f b` (R19). -/
def eq (a b : Word) : Bool := !isNaN a && !isNaN b && decide (ival a = ival b)

/-- `rnei` of R18 on the ratio n/d of natural numbers: the nearest integer, ties to even. -/
def roundDiv (n d : Nat) : Nat :=
  let q := n / d
  let r := n % d
  if 2 * r < d then q else if d < 2 * r then q + 1 else q + q % 2

/-- The encoding, without its sign, of the binary32 number nearest to n/d, ties to even, overflow to infinity (R18).
In units of 2^-149 the ratio is n * 2^149 / d; k is how many of its low bits lie below the 24-bit significand. -/
def roundMag (n d : Nat) : Nat :=
  let m := n * 2 ^ 149
  let k := Nat.log2 (m / d) - 23
  min (k * 2 ^ 23 + roundDiv m (d * 2 ^ k)) 0x7F800000

/-- `rne32` of R18 on a ratio of natural numbers; 0 gives +0.0. -/
def rne32 (n d : Nat) : Word := u32 (roundMag n d)

/-- A word with the given sign bit and magnitude bits. -/
def withSign (s : Bool) (magBits : Nat) : Word := (if s then 0x80000000#32 else 0#32) ||| u32 magBits

/-- The quiet NaN of R22. -/
abbrev quietNaN : Word := 0x7FC00000#32

/-- `fmul32` of R18: the IEEE product rounded to nearest even.
The NaN it gives is a NaN no command can produce (assumption 11). -/
def mul (a b : Word) : Word :=
  let s := sign a != sign b
  if isNaN a || isNaN b then quietNaN
  else if isInf a || isInf b then
    if mag a = 0 ∨ mag b = 0 then quietNaN else withSign s 0x7F800000
  else withSign s (roundMag (mag a * mag b) (2 ^ 149 * 2 ^ 149))

end Sys2Proof.Machine.F32
end

