-- ==== Sys2Proof/Config.lean ====
section
/-! DEFINITION. The parameters of R13: their values for this hardware, the OPEN ones as opaque constants that nothing can evaluate, and the structure that hands them to the model as arguments. -/

namespace Sys2Proof.Config

/-! The sizes that R14 and R15 fix at one value each. The types of the state and the register map, whose offsets R74
fixes, are laid out with these numbers (assumption 1; `state_sizes` in Laws/Parametric.lean). -/

/-- SNAP_LEN: length of the snapshot buffer in samples (R13, R14). -/
def snapLen : Nat := 48

/-- BLK_MAX = SNAP_LEN: the longest block a command takes (R13, R14, D19). -/
def blkMax : Nat := snapLen

/-- N_VOICES: oscillators in the bank (R13, R15). -/
def nVoices : Nat := 4

/-- QT_TONES: tone values in the quantizer table (R13, R15). -/
def qtTones : Nat := 16

/-- QT_BOUNDS: thresholds in the quantizer table (R13, R15). -/
def qtBounds : Nat := 17

/-! The other parameters, with the values of this hardware -/

/-- BUF_CAP: capacity of the circular buffer in samples (R13, D18; assumption 1). -/
def bufCap : Nat := 4096

/-- SAMPLE_RATE = 48000.0, binary32 (R13, D20; assumption 1). -/
def sampleRate : Word := 0x473B8000#32

/-- SPEC_LMAX = floor(log2 BUF_CAP) (R13, D29). -/
def specLmax : Nat := Nat.log2 bufCap

/-- AMP = binary32(0.7) (R13, R22, D38). -/
def amp : Word := 0x3F333333#32

/-- RATIO[0..3]: 1.0, 1.5, binary32(4/3), 2.0 (R13, R230, D37). -/
def ratio : Vector Word 4 := #v[0x3F800000#32, 0x3FC00000#32, 0x3FAAAAAB#32, 0x40000000#32]

/-- The identity word read at ID (R34, D44). -/
def idWord : Word := 0x42570001#32

/-- QTABLE_RESET, thresholds: OPEN (R322, D33; assumption 6). -/
opaque qthrReset : Vector Word 17

/-- QTABLE_RESET, tones: OPEN (R322, D33; assumption 6). -/
opaque qremapReset : Vector Word 16

/-- The free choice behind SinCfg: OPEN (R231, D38; assumption 7). -/
opaque sinFree : Word → Word

/-- The free choice behind SpecMag, one magnitude: size N, input x, bin k: OPEN (R191, D30; assumption 8). -/
opaque specMagFree : Nat → List Word → Nat → Word

/-- Which 32 KiB slot of the platform's address space the window occupies: OPEN (R70, D49; assumption 9). -/
opaque baseSlot : Nat

/-- BASE, aligned to 32 KiB (R70). -/
def base : Nat := baseSlot * 0x8000

end Sys2Proof.Config

namespace Sys2Proof

/-- The parameters a model takes as arguments (R13; assumption 1). SIN_EPS and SPEC_EPS are arguments of the
conditions on the two functions (`SineAccurate`, `SpectrumAccurate`), and enter no result. -/
structure Params where
  /-- BUF_CAP -/
  bufCap : Nat
  /-- SAMPLE_RATE -/
  sampleRate : Word
  /-- AMP -/
  amp : Word
  /-- RATIO -/
  ratio : Vector Word 4
  /-- QTABLE_RESET, thresholds -/
  qthrReset : Vector Word 17
  /-- QTABLE_RESET, tones -/
  qremapReset : Vector Word 16
  /-- SinCfg, before the model imposes R231 (b) and (d) on it -/
  sinFree : Word → Word
  /-- SpecMag, one magnitude, before the model imposes R191 (b) and (d) on it -/
  specMagFree : Nat → List Word → Nat → Word
  /-- BASE -/
  base : Nat

/-- SPEC_LMAX = floor(log2 BUF_CAP) (R13, D29). -/
def Params.specLmax (P : Params) : Nat := Nat.log2 P.bufCap

/-- The arguments for this hardware: the value column of R13. -/
def Config.params : Params where
  bufCap      := Config.bufCap
  sampleRate  := Config.sampleRate
  amp         := Config.amp
  ratio       := Config.ratio
  qthrReset   := Config.qthrReset
  qremapReset := Config.qremapReset
  sinFree     := Config.sinFree
  specMagFree := Config.specMagFree
  base        := Config.base

end Sys2Proof
end

