-- ==== Sys2Proof/Machine/State.lean ====
section
/-! DEFINITION. The state of the block, element by element as the state table R57 lists it, its reset values (R320), and the inputs and the one output the model adds. -/

namespace Sys2Proof.Machine

/-- Why a run stops with a fault. This block never does: it has no trap (R296), and a bus error is a response after
which it goes on (R295). No constructor, so no meaning can raise one (assumption 12; safe). -/
inductive Fault where
  deriving DecidableEq, Repr

/-- Why an instruction has no meaning. -/
inductive Refusal where
  /-- Raised by an arm of `exec` for a command that is not modelled, under its mnemonic; no arm does (safe). -/
  | notModelled (mnemonic : String)
  deriving DecidableEq, Repr

/-- The status codes of R290. -/
inductive StatusCode where
  /-- 0: the command completed. -/
  | ok
  /-- 1: OP is unassigned. -/
  | illegalOpcode
  /-- 2: a reserved bit is 1, or SUB or LEN is not legal for OP. -/
  | badField
  /-- 3: a value the command needs is not finite. -/
  | badArg
  /-- 4: the oscillator bank has not been started since reset. -/
  | notStarted
  /-- 5: the buffer holds fewer than 2^L samples. -/
  | insufficientHistory
  /-- 6: the quantizer input lies in no interval. -/
  | noMatch
  deriving DecidableEq, Repr

/-- STATUS (R35). -/
structure Status where
  code : StatusCode
  err  : Bool
  deriving DecidableEq, Repr

/-- The zero-crossing detector (R43 to R46). -/
structure ZcState where
  hasPrev  : Bool
  last     : Word
  count    : Word
  hasCross : Bool
  lastPos  : Word
  freq     : Word
  deriving DecidableEq, Repr

/-- The snapshot (R47, R48). -/
structure SnapState where
  armed : Bool
  ready : Bool
  words : Vector Word 48
  deriving DecidableEq, Repr

/-- The spectral detector (R49). -/
structure SpecState where
  freq : Word
  bin  : Word
  deriving DecidableEq, Repr

/-- The edge detector (R55, R56). -/
structure EdgeState where
  hasLast : Bool
  last    : Word
  deriving DecidableEq, Repr

/-- The oscillator bank (R51 to R53). -/
structure OscState where
  started : Bool
  fund    : Word
  freq    : Vector Word 4
  inc     : Vector Word 4
  phase   : Vector Word 4
  deriving DecidableEq, Repr

/-- One thing the outside world does to the block (R64, R71, R320; assumptions 2, 3, 14). -/
inductive Input where
  /-- The host reads `size` bytes at an offset. -/
  | busRead (off : Offset) (size : Nat)
  /-- The host writes `size` bytes at an offset. -/
  | busWrite (off : Offset) (size : Nat) (data : Word)
  /-- The external driver puts a level on the wire gate_in. -/
  | gate (level : Bool)
  /-- Power-on, or the platform's reset input. -/
  | reset
  deriving DecidableEq, Repr

/-- The response on the host bus to one access (R71, R79, R295). -/
inductive Response where
  | readOk (data : Word)
  | writeOk
  /-- A bus error on a read, with the data returned beside it. -/
  | readError (data : Word)
  /-- A bus error on a write. -/
  | writeError
  deriving DecidableEq, Repr

/-- The state: R57 first, then the model's own inputs and output. -/
structure State where
  status  : Status
  /-- CMD readback (R36). -/
  cmd     : Word
  arg0    : Word
  result0 : Word
  result1 : Word
  /-- The window W, oldest sample first; BUF_FILL is its length (R40, R41; assumption 5). -/
  window  : List Word
  /-- IN_BLK (R39). -/
  inBlk   : Vector Word 48
  zc      : ZcState
  snap    : SnapState
  spec    : SpecState
  edge    : EdgeState
  osc     : OscState
  /-- QTHR (R50). -/
  qthr    : Vector Word 17
  /-- QREMAP (R50). -/
  qremap  : Vector Word 16
  /-- OUT_BLK, channel by channel (R54). -/
  outBlk  : Vector (Vector Word 48) 4
  /-- Not in R57: the level now on gate_in (R64; assumption 3). -/
  gateIn   : Bool
  /-- Not in R57: the inputs still to come, oldest first (assumption 2). -/
  pending  : List Input
  /-- Not in R57: the bus response to the last access (assumption 4). -/
  response : Option Response
  deriving DecidableEq, Repr

/-- The reset column of R57 for the zero-crossing detector; also what ZC_RESET leaves (R164). -/
def ZcState.cleared : ZcState where
  hasPrev  := false
  last     := posZero
  count    := 0
  hasCross := false
  lastPos  := 0
  freq     := posZero

/-- The machine right after reset: the reset column of R57, with no input at hand.
`gateIn`, `pending` and `response` are the model's own (assumptions 2, 3, 4). -/
def State.reset : State where
  status   := { code := .ok, err := false }
  cmd      := 0
  arg0     := 0
  result0  := 0
  result1  := 0
  window   := []
  inBlk    := Vector.replicate 48 posZero
  zc       := ZcState.cleared
  snap     := { armed := false, ready := false, words := Vector.replicate 48 posZero }
  spec     := { freq := posZero, bin := 0 }
  edge     := { hasLast := false, last := posZero }
  osc      := { started := false, fund := posZero, freq := Vector.replicate 4 posZero,
                inc := Vector.replicate 4 0, phase := Vector.replicate 4 0 }
  qthr     := Config.qthrReset
  qremap   := Config.qremapReset
  outBlk   := Vector.replicate 4 (Vector.replicate 48 posZero)
  gateIn   := false
  pending  := []
  response := none

/-- The reset state of a block built with other parameters: QTABLE_RESET is the one element of the reset column that
depends on them (R57, R322). -/
def State.resetFor (P : Params) : State := { State.reset with qthr := P.qthrReset, qremap := P.qremapReset }

end Sys2Proof.Machine
end

