-- ==== Sys2Proof/Machine/Operands.lean ====
section
/-! DEFINITION. Every operand form of a command: its field check (R110, R117), block operands (R39, R112), the frequency selector (R233) and the gate reading (R260). -/

namespace Sys2Proof.Machine

/-- The field check (2) of R293: reserved bits 0, SUB at most `maxSub`, LEN in `minLen..maxLen` (R117). -/
def fieldsLegal (maxSub minLen maxLen : Nat) (f : Fields) : Bool :=
  f.rsv15_12 == 0 && f.rsv31_22 == 0 && decide (f.sub.toNat ≤ maxSub)
    && decide (minLen ≤ f.len.toNat) && decide (f.len.toNat ≤ maxLen)

/-- The check of a command that takes no field (R117). -/
def noFields (f : Fields) : Bool := fieldsLegal 0 0 0 f

/-- The check of a block command: LEN in 1..BLK_MAX (R117). -/
def blockFields (f : Fields) : Bool := fieldsLegal 0 1 Config.blkMax f

/-- The check of SPEC_ESTIMATE: LEN in 1..SPEC_LMAX (R117), where SPEC_LMAX is `lmax`. -/
def spectralFieldsFor (lmax : Nat) (f : Fields) : Bool := fieldsLegal 0 1 lmax f

/-- The check of SPEC_ESTIMATE on this hardware (R117). -/
def spectralFields (f : Fields) : Bool := spectralFieldsFor Config.specLmax f

/-- The check of a command that selects a frequency: SUB in 0..2 (R117). -/
def freqFields (f : Fields) : Bool := fieldsLegal 2 0 0 f

/-- The check of an edge command: SUB in 0..1 (R117). -/
def gateFields (f : Fields) : Bool := fieldsLegal 1 0 0 f

/-- The SampleBlock of a block command: IN_BLK[0..LEN-1], as raw words (R39, R112). -/
def sampleBlock (f : Fields) (s : State) : List Word := s.inBlk.toList.take f.len.toNat

/-- `SelectF` of R233. The field check has already refused SUB above 2. -/
def selectFreq (f : Fields) (s : State) : Word :=
  if f.sub = 0 then s.arg0 else if f.sub = 1 then s.zc.freq else s.spec.freq

/-- `Reading` of R260: the level of gate_in (SUB = 0, R261) or ARG0 (SUB = 1), normalized to +0.0 or 1.0. -/
def gateReading (f : Fields) (s : State) : Word :=
  if f.sub = 0 then (if s.gateIn then one32 else posZero)
  else (if F32.eq s.arg0 posZero then posZero else one32)

end Sys2Proof.Machine
end

