-- ==== Sys2Proof/Machine/Flags.lean ====
section
/-! DEFINITION. The flag words (R35, R43, R45, R47, R51, R55) and how a command ends by setting STATUS (R291). -/

namespace Sys2Proof.Machine

/-- The number of a status code (R290). -/
def statusByte : StatusCode → Byte
  | .ok => 0
  | .illegalOpcode => 1
  | .badField => 2
  | .badArg => 3
  | .notStarted => 4
  | .insufficientHistory => 5
  | .noMatch => 6

/-- STATUS as a word: CODE in bits 7:0, ERR in bit 8, the rest 0 (R35). -/
def statusWord (s : Status) : Word := (flagWord s.err <<< 8) ||| (statusByte s.code).setWidth 32

/-- ZC_FLAGS: ZC_HAS_PREV in bit 0, ZC_HAS_CROSS in bit 1 (R43, R45). -/
def zcFlagsWord (z : ZcState) : Word := flagWord z.hasPrev ||| (flagWord z.hasCross <<< 1)

/-- SNAP_FLAGS: SNAP_ARMED in bit 0, SNAP_READY in bit 1 (R47). -/
def snapFlagsWord (p : SnapState) : Word := flagWord p.armed ||| (flagWord p.ready <<< 1)

/-- STATUS after a command that ends with code `x`: ERR is set by a code other than 0 and kept by 0 (R291). -/
def statusAfter (x : StatusCode) (s : Status) : Status where
  code := x
  err  := if x = .ok then s.err else true

/-- Ending a command with code `x` (`Complete` of R291): the one operation behind both `raise` and `done`, and the
place an exception entry has on other hardware. Nothing but STATUS changes. -/
def complete (x : StatusCode) (s : State) : State := { s with status := statusAfter x s.status }

/-- STATUS after a host write of `v`: bit 8 equal to 1 clears ERR, nothing else is writable (R35). -/
def statusWrite (v : Word) (s : Status) : Status where
  code := s.code
  err  := s.err && !v.getLsbD 8

end Sys2Proof.Machine
end

