-- ==== Sys2Proof/Machine/RegMap.lean ====
section
/-! DEFINITION. The register map (R74): the elements of the window by name, the element at each word of the window, and the offset of each element. -/

namespace Sys2Proof.Machine

/-- The elements of the register map (R74); `reserved` is every word it does not list (R75). -/
inductive Reg where
  | id | status | cmd | arg0 | result0 | result1
  | cfgSampleRate | cfgBufCap | cfgSnapLen
  | bufFill
  | zcFreq | zcCount | zcLastPos | zcLast | zcFlags | snapFlags
  | specFreq | specBin
  | edgeFlags | edgeLast
  | oscFlags | oscFund
  | oscFreq (v : Fin 4)
  | oscInc (v : Fin 4)
  | oscPhase (v : Fin 4)
  | qthr (i : Fin 17)
  | qremap (i : Fin 16)
  | inBlk (j : Fin 48)
  | snap (j : Fin 48)
  | outBlk (v : Fin 4) (j : Fin 48)
  | bufWin (i : Fin 4096)
  | reserved
  deriving DecidableEq, Repr

/-- The single registers of the map and their offsets (R74). -/
def singleRegs : List (Nat × Reg) :=
  [(0x0000, .id), (0x0004, .status), (0x0008, .cmd), (0x000C, .arg0), (0x0010, .result0), (0x0014, .result1),
   (0x0020, .cfgSampleRate), (0x0024, .cfgBufCap), (0x0028, .cfgSnapLen), (0x0040, .bufFill)] ++
  [(0x0050, .zcFreq), (0x0054, .zcCount), (0x0058, .zcLastPos), (0x005C, .zcLast), (0x0060, .zcFlags),
   (0x0064, .snapFlags), (0x0070, .specFreq), (0x0074, .specBin), (0x0080, .edgeFlags), (0x0084, .edgeLast),
   (0x0090, .oscFlags), (0x0094, .oscFund)]

/-- The element at the offset `w` of a word of the window (R74). -/
def regAtWord (w : Nat) : Reg :=
  if 0x4000 ≤ w then
    if h : (w - 0x4000) / 4 < 4096 then .bufWin ⟨(w - 0x4000) / 4, h⟩ else .reserved
  else if 0x0400 ≤ w then
    if h : (w - 0x0400) / 0x100 < 4 ∧ (w - 0x0400) % 0x100 / 4 < 48 then
      .outBlk ⟨(w - 0x0400) / 0x100, h.1⟩ ⟨(w - 0x0400) % 0x100 / 4, h.2⟩
    else .reserved
  else if 0x0300 ≤ w then
    if h : (w - 0x0300) / 4 < 48 then .snap ⟨(w - 0x0300) / 4, h⟩ else .reserved
  else if 0x0200 ≤ w then
    if h : (w - 0x0200) / 4 < 48 then .inBlk ⟨(w - 0x0200) / 4, h⟩ else .reserved
  else if 0x0180 ≤ w then
    if h : (w - 0x0180) / 4 < 16 then .qremap ⟨(w - 0x0180) / 4, h⟩ else .reserved
  else if 0x0100 ≤ w then
    if h : (w - 0x0100) / 4 < 17 then .qthr ⟨(w - 0x0100) / 4, h⟩ else .reserved
  else if 0x00C0 ≤ w then
    if h : (w - 0x00C0) / 4 < 4 then .oscPhase ⟨(w - 0x00C0) / 4, h⟩ else .reserved
  else if 0x00B0 ≤ w then
    if h : (w - 0x00B0) / 4 < 4 then .oscInc ⟨(w - 0x00B0) / 4, h⟩ else .reserved
  else if 0x00A0 ≤ w then
    if h : (w - 0x00A0) / 4 < 4 then .oscFreq ⟨(w - 0x00A0) / 4, h⟩ else .reserved
  else ((singleRegs.find? (fun row => row.1 == w)).map (·.2)).getD .reserved

/-- The element of the 4-byte word that holds an offset of the window (R72, R74). -/
def regAt (off : Offset) : Reg := regAtWord (off.toNat / 4 * 4)

/-- The offset of an element (R74, R83 to R88); none for `reserved`, which has many. -/
def Reg.offset? : Reg → Option Nat
  | .id => some 0x0000
  | .status => some 0x0004
  | .cmd => some 0x0008
  | .arg0 => some 0x000C
  | .result0 => some 0x0010
  | .result1 => some 0x0014
  | .cfgSampleRate => some 0x0020
  | .cfgBufCap => some 0x0024
  | .cfgSnapLen => some 0x0028
  | .bufFill => some 0x0040
  | .zcFreq => some 0x0050
  | .zcCount => some 0x0054
  | .zcLastPos => some 0x0058
  | .zcLast => some 0x005C
  | .zcFlags => some 0x0060
  | .snapFlags => some 0x0064
  | .specFreq => some 0x0070
  | .specBin => some 0x0074
  | .edgeFlags => some 0x0080
  | .edgeLast => some 0x0084
  | .oscFlags => some 0x0090
  | .oscFund => some 0x0094
  | .oscFreq v => some (0x00A0 + 4 * v)
  | .oscInc v => some (0x00B0 + 4 * v)
  | .oscPhase v => some (0x00C0 + 4 * v)
  | .qthr i => some (0x0100 + 4 * i)
  | .qremap i => some (0x0180 + 4 * i)
  | .inBlk j => some (0x0200 + 4 * j)
  | .snap j => some (0x0300 + 4 * j)
  | .outBlk v j => some (0x0400 + 0x100 * v + 4 * j)
  | .bufWin i => some (0x4000 + 4 * i)
  | .reserved => none

/-- The offset of CMD (R36). -/
def cmdOffset : Offset := 0x0008

end Sys2Proof.Machine
end

