-- ==== Sys2Proof/Machine/Ops.lean ====
section
/-! DEFINITION. The named operations over the state: results (R38), word memories, reset (R320), and the register map as reads and writes (R71 to R88). -/

namespace Sys2Proof.Machine

/-- Writing both result registers (R38). -/
def setResults (r0 r1 : Word) (s : State) : State := { s with result0 := r0, result1 := r1 }

/-- Writing RESULT0 alone (R38). -/
def setResult0 (r0 : Word) (s : State) : State := { s with result0 := r0 }

/-- Writing the words of a list at positions j, j+1, ... of a word memory; positions past its end are dropped. -/
def writeFrom {n : Nat} (v : Vector Word n) (j : Nat) : List Word → Vector Word n
  | [] => v
  | x :: xs => writeFrom (v.setIfInBounds j x) (j + 1) xs

/-- BUF_FILL (R40). -/
def bufFill (s : State) : Nat := s.window.length

/-- `ApplyReset` of R320: every element of R57 to its reset value; the inputs and the output are not elements of R57
and stay (R281, assumption 14). -/
def applyResetFor (P : Params) (s : State) : State :=
  { State.resetFor P with gateIn := s.gateIn, pending := s.pending, response := s.response }

/-- `ApplyReset` on this hardware. -/
def applyReset (s : State) : State := applyResetFor Config.params s

/-- BUF_WIN[i]: W[i] where i < BUF_FILL, else 0 (R88). -/
def bufWinWord (i : Nat) (s : State) : Word := s.window.getD i 0

/-- The word a host read of an element returns (R34 to R55, R75, R88). -/
def readElemFor (P : Params) (s : State) : Reg → Word
  | .id => Config.idWord
  | .status => statusWord s.status
  | .cmd => s.cmd
  | .arg0 => s.arg0
  | .result0 => s.result0
  | .result1 => s.result1
  | .cfgSampleRate => P.sampleRate
  | .cfgBufCap => u32 P.bufCap
  | .cfgSnapLen => u32 Config.snapLen
  | .bufFill => u32 (bufFill s)
  | .zcFreq => s.zc.freq
  | .zcCount => s.zc.count
  | .zcLastPos => s.zc.lastPos
  | .zcLast => s.zc.last
  | .zcFlags => zcFlagsWord s.zc
  | .snapFlags => snapFlagsWord s.snap
  | .specFreq => s.spec.freq
  | .specBin => s.spec.bin
  | .edgeFlags => flagWord s.edge.hasLast
  | .edgeLast => s.edge.last
  | .oscFlags => flagWord s.osc.started
  | .oscFund => s.osc.fund
  | .oscFreq v => s.osc.freq[v]
  | .oscInc v => s.osc.inc[v]
  | .oscPhase v => s.osc.phase[v]
  | .qthr i => s.qthr[i]
  | .qremap i => s.qremap[i]
  | .inBlk j => s.inBlk[j]
  | .snap j => s.snap.words[j]
  | .outBlk v j => s.outBlk[v][j]
  | .bufWin i => bufWinWord i s
  | .reserved => 0

/-- The word a host read of an element returns on this hardware. -/
def readElem (s : State) (r : Reg) : Word := readElemFor Config.params s r

/-- `ReadReg` of R71: the word at an offset. -/
def readRegFor (P : Params) (off : Offset) (s : State) : Word := readElemFor P s (regAt off)

/-- `ReadReg` of R71 on this hardware. -/
def readReg (off : Offset) (s : State) : Word := readElem s (regAt off)

/-- One byte of the window: byte lane a mod 4 of the word that holds offset a (R72). -/
def readByte (a : Offset) (s : State) : Byte := (readReg a s).extractLsb' (8 * (a.toNat % 4)) 8

/-- The effect on the state of a host write to an element, CMD apart (R35, R75, R76, R78). -/
def writeElem (v : Word) (s : State) : Reg → State
  | .status => { s with status := statusWrite v s.status }
  | .arg0 => { s with arg0 := v }
  | .qthr i => { s with qthr := s.qthr.set i v }
  | .qremap i => { s with qremap := s.qremap.set i v }
  | .inBlk j => { s with inBlk := s.inBlk.set j v }
  | .cmd | .id | .result0 | .result1 | .cfgSampleRate | .cfgBufCap | .cfgSnapLen | .bufFill
  | .zcFreq | .zcCount | .zcLastPos | .zcLast | .zcFlags | .snapFlags | .specFreq | .specBin
  | .edgeFlags | .edgeLast | .oscFlags | .oscFund | .oscFreq _ | .oscInc _ | .oscPhase _
  | .snap _ | .outBlk _ _ | .bufWin _ | .reserved => s

/-- Is an access legal: four bytes at an offset that is a multiple of 4 (R71)? -/
def accessLegal (off : Offset) (size : Nat) : Bool := size == 4 && off.toNat % 4 == 0

/-- A host read (`MemRead` of R71): the response, and no effect on the block (R77). -/
def busReadResponseFor (P : Params) (off : Offset) (size : Nat) (s : State) : Response :=
  if accessLegal off size then .readOk (readRegFor P off s) else .readError 0

/-- A host read on this hardware. -/
def busReadResponse (off : Offset) (size : Nat) (s : State) : Response := busReadResponseFor Config.params off size s

/-- The offset a bus address selects, where the window sits at BASE (R70); none outside the window. -/
def offsetOfAddress (base addr : Nat) : Option Offset :=
  if base ≤ addr ∧ addr < base + 0x8000 then some (BitVec.ofNat 15 (addr - base)) else none

end Sys2Proof.Machine
end

