-- ==== Sys2Proof/Machine/Buffer.lean ====
section
/-! DEFINITION. The circular audio buffer: BUF_APPEND and BUF_IS_FULL (40_buffer.md), and a ring that stores the window (R42). -/

namespace Sys2Proof.Machine

/-- `Append` of R140: the last `cap` elements of W ++ S. -/
def appendWindow (cap : Nat) (w xs : List Word) : List Word :=
  let t := w ++ xs
  t.drop (t.length - cap)

/-- BUF_APPEND (R141). -/
def execBufAppendFor (P : Params) (f : Fields) (s : State) : Host.Outcome State Fault Refusal :=
  .next (if blockFields f then
      complete .ok { s with window := appendWindow P.bufCap s.window (sampleBlock f s) }
    else complete .badField s)

/-- BUF_APPEND on this hardware (R141). -/
def execBufAppend (f : Fields) (s : State) : Host.Outcome State Fault Refusal := execBufAppendFor Config.params f s

/-- BUF_IS_FULL (R143). -/
def execBufIsFullFor (P : Params) (f : Fields) (s : State) : Host.Outcome State Fault Refusal :=
  .next (if noFields f then complete .ok (setResult0 (flagWord (bufFill s == P.bufCap)) s)
    else complete .badField s)

/-- BUF_IS_FULL on this hardware (R143). -/
def execBufIsFull (f : Fields) (s : State) : Host.Outcome State Fault Refusal := execBufIsFullFor Config.params f s

/-- The ring an implementation may hold the window in (R42): storage, the index written next, and the fill.
It is not part of the state: nothing can observe it (assumption 5). -/
structure Ring (cap : Nat) where
  cells : Vector Word cap
  next  : Nat
  fill  : Nat
  deriving DecidableEq, Repr

/-- Storing one sample in a ring: at the write index, which then advances modulo the capacity (R42). -/
def ringPush {cap : Nat} (r : Ring cap) (x : Word) : Ring cap where
  cells := r.cells.setIfInBounds r.next x
  next  := (r.next + 1) % cap
  fill  := if r.fill < cap then r.fill + 1 else cap

/-- The window a ring stores, oldest first: the `fill` cells that end just before the write index (R40, R42). -/
def ringWindow {cap : Nat} (r : Ring cap) : List Word :=
  (List.range r.fill).map (fun i => r.cells.getD ((r.next + cap - r.fill + i) % cap) 0)

end Sys2Proof.Machine
end

