-- ==== Sys2Proof/Machine/Control.lean ====
section
/-! DEFINITION. The control commands NOP and SOFT_RESET (46_control.md). -/

namespace Sys2Proof.Machine

/-- NOP (R280). -/
def execNop (f : Fields) (s : State) : Host.Outcome State Fault Refusal :=
  .next (if noFields f then complete .ok s else complete .badField s)

/-- The word of SOFT_RESET, which stays readable in CMD (R281). -/
def softResetWord : Word := 0x00000001

/-- SOFT_RESET (R281). -/
def execSoftResetFor (P : Params) (f : Fields) (s : State) : Host.Outcome State Fault Refusal :=
  .next (if noFields f then complete .ok { applyResetFor P s with cmd := softResetWord } else complete .badField s)

/-- SOFT_RESET on this hardware (R281). -/
def execSoftReset (f : Fields) (s : State) : Host.Outcome State Fault Refusal := execSoftResetFor Config.params f s

end Sys2Proof.Machine
end

