-- ==== Sys2Proof/Machine/Edge.lean ====
section
/-! DEFINITION. The gate edge detector: EDGE_RISING and EDGE_FALLING (45_edge.md). -/

namespace Sys2Proof.Machine

/-- Storing a reading and reporting an edge: the effect R262 and R263 share. -/
def storeReading (g : Word) (isEdge : Bool) (s : State) : State :=
  setResult0 (flagWord (s.edge.hasLast && isEdge)) { s with edge := { hasLast := true, last := g } }

/-- EDGE_RISING (R262). -/
def execEdgeRising (f : Fields) (s : State) : Host.Outcome State Fault Refusal :=
  .next (if gateFields f then
      complete .ok (storeReading (gateReading f s) (F32.lt s.edge.last (gateReading f s)) s)
    else complete .badField s)

/-- EDGE_FALLING (R263). -/
def execEdgeFalling (f : Fields) (s : State) : Host.Outcome State Fault Refusal :=
  .next (if gateFields f then
      complete .ok (storeReading (gateReading f s) (F32.lt (gateReading f s) s.edge.last) s)
    else complete .badField s)

end Sys2Proof.Machine
end

