-- ==== Sys2Proof/Machine/Oscillator.lean ====
section
/-! DEFINITION. The oscillator bank: OSC_START, OSC_SET_FREQ and OSC_PROCESS (44_oscillator.md). -/

namespace Sys2Proof.Machine

/-- A value SinCfg may return: finite and in [-1.0, 1.0] (R231 (b)). -/
def sineLegal (y : Word) : Bool := F32.finite y && decide (F32.mag y ≤ F32.mag one32)

/-- SinCfg (R231): exact at the four quarter points (d), elsewhere a free function with (b) imposed.
Every function with those two properties is one of these, and each of these has them (assumption 7). -/
def sinCfgFor (free : Word → Word) (p : Word) : Word :=
  if p = 0x00000000#32 then posZero
  else if p = 0x40000000#32 then one32
  else if p = 0x80000000#32 then posZero
  else if p = 0xC0000000#32 then 0xBF800000#32
  else if sineLegal (free p) then free p
  else posZero

/-- SinCfg of this hardware: the free function is the opaque one of Config. -/
def sinCfg (p : Word) : Word := sinCfgFor Config.sinFree p

/-- One output sample of a voice at a phase (R232). -/
def voiceOutFor (P : Params) (p : Word) : Word := F32.mul P.amp (sinCfgFor P.sinFree p)

/-- One output sample of a voice on this hardware. -/
def voiceOut (p : Word) : Word := voiceOutFor Config.params p

/-- The phase increment of a voice frequency (R233): the exact quotient rounded once, modulo 2^32. -/
def phaseInc (sampleRate fv : Word) : Word :=
  let m := u32 (F32.roundDiv (F32.mag fv * 2 ^ 32) (F32.mag sampleRate))
  if F32.sign fv then -m else m

/-- The four voice frequencies of a fundamental (R233). -/
def voiceFreqs (ratio : Vector Word 4) (f : Word) : Vector Word 4 :=
  ratio.map (fun r => F32.mul f r)

/-- A tuning of the bank (R233). -/
structure Tuning where
  freq : Vector Word 4
  inc  : Vector Word 4
  deriving DecidableEq, Repr

/-- `Tune` of R233: none where it raises BAD_ARG. -/
def tune (ratio : Vector Word 4) (sampleRate f : Word) : Option Tuning :=
  let fv := voiceFreqs ratio f
  if F32.finite f && fv.toList.all F32.finite then
    some { freq := fv, inc := fv.map (phaseInc sampleRate) }
  else none

/-- OSC_START (R236). -/
def execOscStartFor (P : Params) (f : Fields) (s : State) : Host.Outcome State Fault Refusal :=
  .next (if !freqFields f then complete .badField s
    else match tune P.ratio P.sampleRate (selectFreq f s) with
      | none => complete .badArg s
      | some t => complete .ok { s with osc :=
          { started := true, fund := selectFreq f s, freq := t.freq, inc := t.inc,
            phase := Vector.replicate 4 0 } })

/-- OSC_START on this hardware (R236). -/
def execOscStart (f : Fields) (s : State) : Host.Outcome State Fault Refusal := execOscStartFor Config.params f s

/-- OSC_SET_FREQ (R238), with its checks in the order of R293. -/
def execOscSetFreqFor (P : Params) (f : Fields) (s : State) : Host.Outcome State Fault Refusal :=
  .next (if !freqFields f then complete .badField s
    else if !s.osc.started then complete .notStarted s
    else match tune P.ratio P.sampleRate (selectFreq f s) with
      | none => complete .badArg s
      | some t => complete .ok { s with osc :=
          { s.osc with fund := selectFreq f s, freq := t.freq, inc := t.inc } })

/-- OSC_SET_FREQ on this hardware (R238). -/
def execOscSetFreq (f : Fields) (s : State) : Host.Outcome State Fault Refusal := execOscSetFreqFor Config.params f s

/-- What OSC_PROCESS writes: the phases and the output block. -/
structure BankOut where
  phase : Vector Word 4
  out   : Vector (Vector Word 48) 4
  deriving DecidableEq, Repr

/-- One voice at sample position j: write the sample of the phase before the advance, then advance (R242).
`out` gives the sample of a phase (R232). -/
def stepVoice (out : Word → Word) (inc : Vector Word 4) (j : Nat) (b : BankOut) (v : Fin 4) : BankOut where
  phase := b.phase.set v (b.phase[v] + inc[v])
  out   := b.out.set v (b.out[v].setIfInBounds j (out b.phase[v]))

/-- All four voices at sample position j, in channel order (R242). -/
def stepBank (out : Word → Word) (inc : Vector Word 4) (b : BankOut) (j : Nat) : BankOut :=
  (List.finRange 4).foldl (stepVoice out inc j) b

/-- The loop of R242 over sample positions 0..n-1. -/
def runBank (out : Word → Word) (inc : Vector Word 4) (n : Nat) (b : BankOut) : BankOut :=
  (List.range n).foldl (stepBank out inc) b

/-- OSC_PROCESS (R242). -/
def execOscProcessFor (P : Params) (f : Fields) (s : State) : Host.Outcome State Fault Refusal :=
  .next (if !blockFields f then complete .badField s
    else if !s.osc.started then complete .notStarted s
    else
      let b := runBank (voiceOutFor P) s.osc.inc f.len.toNat { phase := s.osc.phase, out := s.outBlk }
      complete .ok { s with osc := { s.osc with phase := b.phase }, outBlk := b.out })

/-- OSC_PROCESS on this hardware (R242). -/
def execOscProcess (f : Fields) (s : State) : Host.Outcome State Fault Refusal := execOscProcessFor Config.params f s

end Sys2Proof.Machine
end

