-- ==== Sys2Proof/Machine/Quantizer.lean ====
section
/-! DEFINITION. The harmonic quantizer: QUANT_REMAP and QUANT_CHECK (43_quantizer.md). -/

namespace Sys2Proof.Machine

/-- The interval test of R211's scan: T[k] <=f x <f T[k+1]. -/
def inInterval (t : Vector Word 17) (x : Word) (k : Fin 16) : Bool :=
  F32.le t[k.val] x && F32.lt x t[k.val + 1]

/-- The tone of a reading (R211): clamp below, clamp above, then the first matching interval in index order. -/
def toneOf (t : Vector Word 17) (x : Word) : Option (Fin 16) :=
  if F32.lt x t[0] then some 0
  else if F32.le t[16] x then some 15
  else (List.finRange 16).find? (inInterval t x)

/-- QUANT_REMAP (R211). -/
def execQuantRemap (f : Fields) (s : State) : Host.Outcome State Fault Refusal :=
  .next (if noFields f then
      let tone := toneOf s.qthr s.arg0
      let i := tone.getD 0
      complete (if tone.isSome then .ok else .noMatch) (setResults s.qremap[i.val] (u32 i) s)
    else complete .badField s)

/-- The first index at which the thresholds fail to increase strictly, or 16 (R213). -/
def firstUnordered (t : Vector Word 17) : Nat :=
  (((List.finRange 16).find? (fun i => !F32.lt t[i.val] t[i.val + 1])).map Fin.val).getD 16

/-- QUANT_CHECK (R213). -/
def execQuantCheck (f : Fields) (s : State) : Host.Outcome State Fault Refusal :=
  .next (if noFields f then
      let first := firstUnordered s.qthr
      complete .ok (setResults (flagWord (first == 16)) (u32 first) s)
    else complete .badField s)

end Sys2Proof.Machine
end

