-- ==== Sys2Proof/Machine/Spectral.lean ====
section
/-! DEFINITION. The spectral peak detector: SPEC_ESTIMATE (42_spectral.md). -/

namespace Sys2Proof.Machine

/-- A magnitude SpecMag may return for an input: not a NaN, not negative (-0.0 included), and +infinity only where
the sum of |val(x[n])|, which bounds every M[k], exceeds the largest finite number (R191 (b); assumption 8). -/
def magnitudeLegal (x : List Word) (m : Word) : Bool :=
  !F32.isNaN m && !F32.sign m && (F32.finite m || decide (F32.mag 0x7F7FFFFF#32 < (x.map F32.mag).sum))

/-- SpecMag(N, x)[k] (R191): a free function, with (d) and the decidable part of (b) imposed.
Every function that R191 allows is one of these (assumption 8). -/
def specMagFor (free : Nat → List Word → Nat → Word) (n : Nat) (x : List Word) (k : Nat) : Word :=
  if x.all (fun w => F32.eq w posZero) then posZero
  else if magnitudeLegal x (free n x k) then free n x k
  else posZero

/-- SpecMag(N, x)[k] of this hardware: the free function is the opaque one of Config. -/
def specMag (n : Nat) (x : List Word) (k : Nat) : Word := specMagFor Config.specMagFree n x k

/-- The N most recent samples of a window, oldest first (R190). -/
def recentSamples (n : Nat) (w : List Word) : List Word := w.drop (w.length - n)

/-- The bin search of R192 over bins 1..kMax: a bin replaces the best only when strictly greater (R193). -/
def peakBin (mag : Nat → Word) : Nat → Nat
  | 0 => 0
  | k + 1 => let best := peakBin mag k; if F32.lt (mag best) (mag (k + 1)) then k + 1 else best

/-- The centre frequency of bin k in a transform of size n (R192). -/
def binFreq (sampleRate : Word) (n k : Nat) : Word :=
  F32.rne32 (k * F32.mag sampleRate) (2 ^ 149 * n)

/-- SPEC_ESTIMATE (R192), with its checks in the order of R293. -/
def execSpecEstimateFor (P : Params) (f : Fields) (s : State) : Host.Outcome State Fault Refusal :=
  .next (
    let n := 2 ^ f.len.toNat
    let x := recentSamples n s.window
    if !spectralFieldsFor P.specLmax f then complete .badField s
    else if bufFill s < n then complete .insufficientHistory s
    else if !x.all F32.finite then complete .badArg s
    else
      let best := peakBin (specMagFor P.specMagFree n x) (n / 2)
      let freq := binFreq P.sampleRate n best
      complete .ok (setResults freq (u32 best) { s with spec := { freq := freq, bin := u32 best } }))

/-- SPEC_ESTIMATE on this hardware (R192). -/
def execSpecEstimate (f : Fields) (s : State) : Host.Outcome State Fault Refusal := execSpecEstimateFor Config.params f s

end Sys2Proof.Machine
end

