-- ==== Sys2Proof/Machine/ZeroCrossing.lean ====
section
/-! DEFINITION. The zero-crossing detector and the snapshot: ZC_PROCESS, ZC_RESET, SNAP_START, SNAP_CHECK, SNAP_COMPLETE (41_zero_crossing.md). -/

namespace Sys2Proof.Machine

/-- The class of a sample (R160). -/
inductive SampleClass where
  | neg | zero | pos | unord
  deriving DecidableEq, Repr

/-- `class(s)` of R160. -/
def classOf (x : Word) : SampleClass :=
  if F32.isNaN x then .unord
  else if F32.lt x posZero then .neg
  else if F32.lt posZero x then .pos
  else .zero

/-- `crossing(a, b)` of R160. -/
def crossing (a b : Word) : Bool :=
  classOf a != .unord && classOf b != .unord && classOf a != classOf b

/-- The interval between two crossings in samples: the 32-bit difference, 0 read as 2^32 (R161). -/
def zcInterval (count lastPos : Word) : Nat :=
  let d := count - lastPos
  if d = 0 then 2 ^ 32 else d.toNat

/-- The estimate of R161: sample rate over interval, rounded once. -/
def zcEstimate (sampleRate : Word) (interval : Nat) : Word :=
  F32.rne32 (F32.mag sampleRate) (2 ^ 149 * interval)

/-- What ZC_PROCESS does to the detector at a crossing: the first latches its position, a later one gives an estimate (R162). -/
def zcAtCrossing (sampleRate : Word) (z : ZcState) : ZcState :=
  if z.hasCross then
    { z with freq := zcEstimate sampleRate (zcInterval z.count z.lastPos), lastPos := z.count }
  else { z with lastPos := z.count, hasCross := true }

/-- Does the sample make a crossing with the one the detector holds (R162)? -/
def zcCrosses (z : ZcState) (x : Word) : Bool := z.hasPrev && crossing z.last x

/-- One turn of the loop of R162: the detector after one sample. -/
def zcSample (sampleRate : Word) (z : ZcState) (x : Word) : ZcState :=
  let z' := if zcCrosses z x then zcAtCrossing sampleRate z else z
  { z' with last := x, hasPrev := true, count := z'.count + 1 }

/-- The loop of R162 over a block: the detector, and the number of crossings counted so far as a u32. -/
def zcScan (sampleRate : Word) : ZcState × Word → List Word → ZcState × Word :=
  List.foldl (fun acc x => (zcSample sampleRate acc.1 x, if zcCrosses acc.1 x then acc.2 + 1 else acc.2))

/-- What an armed snapshot becomes when a block is processed; an idle one stays (R162, R169, D51). -/
def snapCapture (xs : List Word) (p : SnapState) : SnapState :=
  if p.armed then { armed := false, ready := true, words := writeFrom p.words 0 xs } else p

/-- ZC_PROCESS (R162). -/
def execZcProcessFor (P : Params) (f : Fields) (s : State) : Host.Outcome State Fault Refusal :=
  .next (if blockFields f then
      let r := zcScan P.sampleRate (s.zc, 0) (sampleBlock f s)
      complete .ok (setResults r.1.freq r.2
        { s with zc := r.1, snap := snapCapture (sampleBlock f s) s.snap })
    else complete .badField s)

/-- ZC_PROCESS on this hardware (R162). -/
def execZcProcess (f : Fields) (s : State) : Host.Outcome State Fault Refusal := execZcProcessFor Config.params f s

/-- ZC_RESET (R164). -/
def execZcReset (f : Fields) (s : State) : Host.Outcome State Fault Refusal :=
  .next (if noFields f then complete .ok { s with zc := ZcState.cleared } else complete .badField s)

/-- SNAP_START (R166). -/
def execSnapStart (f : Fields) (s : State) : Host.Outcome State Fault Refusal :=
  .next (if noFields f then complete .ok { s with snap := { s.snap with armed := true } } else complete .badField s)

/-- SNAP_CHECK (R167). -/
def execSnapCheck (f : Fields) (s : State) : Host.Outcome State Fault Refusal :=
  .next (if noFields f then complete .ok (setResults (flagWord s.snap.ready) (flagWord s.snap.armed) s)
    else complete .badField s)

/-- SNAP_COMPLETE (R168). -/
def execSnapComplete (f : Fields) (s : State) : Host.Outcome State Fault Refusal :=
  .next (if noFields f then complete .ok { s with snap := { s.snap with ready := false } } else complete .badField s)

end Sys2Proof.Machine
end

