-- ==== Sys2Proof/Machine/Dispatch.lean ====
section
/-! DEFINITION. One arm for each command. -/

namespace Sys2Proof.Machine

def exec (i : Instr) (s : State) : Host.Outcome State Fault Refusal :=
  match i with
  | .nop f => Sys2Proof.Machine.execNop f s
  | .softReset f => Sys2Proof.Machine.execSoftReset f s
  | .bufAppend f => Sys2Proof.Machine.execBufAppend f s
  | .bufIsFull f => Sys2Proof.Machine.execBufIsFull f s
  | .zcProcess f => Sys2Proof.Machine.execZcProcess f s
  | .zcReset f => Sys2Proof.Machine.execZcReset f s
  | .snapStart f => Sys2Proof.Machine.execSnapStart f s
  | .snapCheck f => Sys2Proof.Machine.execSnapCheck f s
  | .snapComplete f => Sys2Proof.Machine.execSnapComplete f s
  | .specEstimate f => Sys2Proof.Machine.execSpecEstimate f s
  | .quantRemap f => Sys2Proof.Machine.execQuantRemap f s
  | .quantCheck f => Sys2Proof.Machine.execQuantCheck f s
  | .oscStart f => Sys2Proof.Machine.execOscStart f s
  | .oscSetFreq f => Sys2Proof.Machine.execOscSetFreq f s
  | .oscProcess f => Sys2Proof.Machine.execOscProcess f s
  | .edgeRising f => Sys2Proof.Machine.execEdgeRising f s
  | .edgeFalling f => Sys2Proof.Machine.execEdgeFalling f s

end Sys2Proof.Machine
end

