-- ==== Sys2Proof/Machine/Bus.lean ====
section
/-! DEFINITION. Serving one input: issuing a command (R110), bus reads and writes (R71, R79), the gate level (R64) and reset (R320). `run` is what a command does: `exec` on this hardware. -/

namespace Sys2Proof.Machine

/-- `Issue(c)` of R110: the readback, the OP check, then the command with its own field check. -/
def issueWith (run : Instr → State → Host.Outcome State Fault Refusal) (c : Word) (s : State) :
    Host.Outcome State Fault Refusal :=
  match decode c with
  | .ok i => run i { s with cmd := c }
  | .error _ => .next (complete .illegalOpcode { s with cmd := c })

/-- A host write (`MemWrite` of R71): an illegal access is discarded with a bus error; a write of CMD issues a command,
whose effects are complete when the response is seen (R79). -/
def busWriteWith (run : Instr → State → Host.Outcome State Fault Refusal) (off : Offset) (size : Nat) (data : Word)
    (s : State) : Host.Outcome State Fault Refusal :=
  if accessLegal off size then
    match regAt off with
    | .cmd => issueWith run data { s with response := some .writeOk }
    | r => .next { writeElem data s r with response := some .writeOk }
  else .next { s with response := some .writeError }

/-- Serving one input completely (R91). -/
def serveWith (P : Params) (run : Instr → State → Host.Outcome State Fault Refusal) (e : Input) (s : State) :
    Host.Outcome State Fault Refusal :=
  match e with
  | .busRead off size => .next { s with response := some (busReadResponseFor P off size s) }
  | .busWrite off size data => busWriteWith run off size data s
  | .gate level => .next { s with gateIn := level }
  | .reset => .next (applyResetFor P s)

/-- Taking the oldest input and serving it (R91). With no input the block waits and keeps its state (R323). -/
def takeInput (serve : Input → State → Host.Outcome State Fault Refusal) (s : State) : Host.Outcome State Fault Refusal :=
  match s.pending with
  | [] => .next s
  | e :: rest => serve e { s with pending := rest }

/-- Issuing a command word on this hardware. -/
def issue (c : Word) (s : State) : Host.Outcome State Fault Refusal := issueWith exec c s

/-- A host write on this hardware. -/
def busWrite (off : Offset) (size : Nat) (data : Word) (s : State) : Host.Outcome State Fault Refusal :=
  busWriteWith exec off size data s

/-- Serving one input on this hardware. -/
def serve (e : Input) (s : State) : Host.Outcome State Fault Refusal := serveWith Config.params exec e s

/-- The bus write that issues a command word (R79). -/
def commandWrite (c : Word) : Input := .busWrite cmdOffset 4 c

end Sys2Proof.Machine
end

