-- ==== Sys2Proof/Machine/Step.lean ====
section
/-! DEFINITION. One step: the block serves the next input; with none at hand it waits (R91, R323). -/

namespace Sys2Proof.Machine

/-- One step (R91): the oldest pending input is taken and served. With no input the block waits and keeps its state (R323). -/
def step (s : State) : Host.Outcome State Fault Refusal := takeInput serve s

/-- The state whose very next step is the host's write of this command word to CMD (assumption 2).
`w` gives the lowest `nbits` bits of the word; every bit above them is 0. -/
def State.withFetchWord (s : State) (nbits w : Nat) : State :=
  { s with pending := commandWrite (BitVec.ofNat 32 (w % 2 ^ nbits)) :: s.pending }

end Sys2Proof.Machine
end

