-- ==== Sys2Proof/Machine/Parametric.lean ====
section
/-! DEFINITION. The whole model with the parameters of R13 as an argument: a command, a step and the machine of a block built with any of them. The machine of this hardware is the one at `Config.params`. -/

namespace Sys2Proof.Machine

/-- What a command does in a block with parameters P. The commands that depend on none are those of this hardware. -/
def execFor (P : Params) (i : Instr) (s : State) : Host.Outcome State Fault Refusal :=
  match i with
  | .nop f => execNop f s
  | .softReset f => execSoftResetFor P f s
  | .bufAppend f => execBufAppendFor P f s
  | .bufIsFull f => execBufIsFullFor P f s
  | .zcProcess f => execZcProcessFor P f s
  | .zcReset f => execZcReset f s
  | .snapStart f => execSnapStart f s
  | .snapCheck f => execSnapCheck f s
  | .snapComplete f => execSnapComplete f s
  | .specEstimate f => execSpecEstimateFor P f s
  | .quantRemap f => execQuantRemap f s
  | .quantCheck f => execQuantCheck f s
  | .oscStart f => execOscStartFor P f s
  | .oscSetFreq f => execOscSetFreqFor P f s
  | .oscProcess f => execOscProcessFor P f s
  | .edgeRising f => execEdgeRising f s
  | .edgeFalling f => execEdgeFalling f s

/-- One step of a block with parameters P (R91). -/
def stepFor (P : Params) (s : State) : Host.Outcome State Fault Refusal := takeInput (serveWith P (execFor P)) s

/-- The machine of a block with parameters P (R13). -/
def coreFor (P : Params) : Host.Core where
  State   := State
  Fault   := Fault
  Refusal := Refusal
  step    := stepFor P
  reset   := State.resetFor P

end Sys2Proof.Machine
end

