-- ==== Sys2Proof/WellFormed.lean ====
section
/-! DEFINITION. Which commands have legal fields: the SUB and LEN columns of the opcode map (R117) and the reserved bits (R111). -/

namespace Sys2Proof

/-- The legal values of SUB (R117), as an upper bound: every column of the map lists 0..n. -/
def Instr.maxSub : Instr → Nat
  | .oscStart _ | .oscSetFreq _ => 2
  | .edgeRising _ | .edgeFalling _ => 1
  | .nop _ | .softReset _ | .bufAppend _ | .bufIsFull _ | .zcProcess _ | .zcReset _
  | .snapStart _ | .snapCheck _ | .snapComplete _ | .specEstimate _ | .quantRemap _
  | .quantCheck _ | .oscProcess _ => 0

/-- The legal range of LEN (R117): least and greatest value, where SPEC_LMAX is `lmax`. -/
def Instr.lenRange (lmax : Nat) : Instr → Nat × Nat
  | .bufAppend _ | .zcProcess _ | .oscProcess _ => (1, 48)
  | .specEstimate _ => (1, lmax)
  | .nop _ | .softReset _ | .bufIsFull _ | .zcReset _ | .snapStart _ | .snapCheck _
  | .snapComplete _ | .quantRemap _ | .quantCheck _ | .oscStart _ | .oscSetFreq _
  | .edgeRising _ | .edgeFalling _ => (0, 0)

/-- A command is well formed when its reserved bits are 0 and its SUB and LEN are values that R117 lists, where
SPEC_LMAX is `lmax`. -/
def Instr.wellFormedFor (lmax : Nat) (i : Instr) : Bool :=
  i.fields.rsv15_12 == 0 && i.fields.rsv31_22 == 0
    && decide (i.fields.sub.toNat ≤ i.maxSub)
    && decide ((i.lenRange lmax).1 ≤ i.fields.len.toNat ∧ i.fields.len.toNat ≤ (i.lenRange lmax).2)

/-- Well formed for this hardware, where SPEC_LMAX = 12 (R13). -/
def Instr.wellFormed (i : Instr) : Bool := i.wellFormedFor 12

end Sys2Proof
end

