-- ==== Sys2Proof/Safety.lean ====
section
/-! DEFINITION. The words the claims use: the legal parameters, the canonical form of the memory, the invariant of the state, what the OPEN functions may be assumed to satisfy, the elements a command may write, and sequences of blocks. -/

namespace Sys2Proof.Machine

/-- The parameters R13 allows: the bounds of R14, and BASE aligned to 32 KiB (R70). A block built outside them has no
meaning under the spec. -/
def LegalParams (P : Params) : Prop :=
  (Config.snapLen ≤ P.bufCap ∧ P.bufCap ≤ 4096) ∧
  (F32.finite P.sampleRate = true ∧ F32.lt posZero P.sampleRate = true) ∧
  P.base % 0x8000 = 0

/-- The form of the one memory of varying length (R41): BUF_FILL is at most BUF_CAP.
Every other memory of the block has a fixed length by its type. -/
abbrev Memory.wf (s : State) : Prop := bufFill s ≤ Config.bufCap

/-- What every reachable state satisfies, component by component. -/
structure Inv (s : State) : Prop where
  /-- R41 -/
  memory : Memory.wf s
  /-- R43, R45: a detector with no previous sample is as after its reset. -/
  zcFresh : s.zc.hasPrev = false → s.zc = ZcState.cleared
  /-- R45, R171: before the first crossing there is no position and no estimate. -/
  zcNoCross : s.zc.hasCross = false → s.zc.lastPos = 0 ∧ s.zc.freq = posZero
  /-- R161: the estimate is +0.0 or the sample rate over an interval of 1 to 2^32 samples. -/
  zcEstimate : s.zc.freq = posZero ∨
    ∃ interval, 1 ≤ interval ∧ interval ≤ 2 ^ 32 ∧ s.zc.freq = zcEstimate Config.sampleRate interval
  /-- R49, R192: SPEC_FREQ is the centre frequency of bin SPEC_BIN of some transform size. -/
  specBin : ∃ l k, 1 ≤ l ∧ l ≤ 12 ∧ k ≤ 2 ^ l / 2 ∧ s.spec.bin = u32 k ∧
    s.spec.freq = binFreq Config.sampleRate (2 ^ l) k
  /-- R55, R260: the stored reading is +0.0 or 1.0, and +0.0 until one is stored. -/
  edgeLast : s.edge.last = posZero ∨ (s.edge.hasLast = true ∧ s.edge.last = one32)
  /-- R51 to R53: a bank that has not been started is as after reset. -/
  oscOff : s.osc.started = false → s.osc = State.reset.osc
  /-- R233, R243: the tuning of a started bank is the one its fundamental gives. -/
  oscTuned : s.osc.started = true →
    tune Config.ratio Config.sampleRate s.osc.fund = some { freq := s.osc.freq, inc := s.osc.inc }
  /-- R231, R232: every output sample is finite and no larger than the amplitude. -/
  outBounded : ∀ (v : Fin 4) (j : Fin 48),
    F32.finite s.outBlk[v][j] = true ∧ F32.mag s.outBlk[v][j] ≤ F32.mag Config.amp

/-- The input a step serves: the oldest pending one (R91). -/
def nextInput (s : State) : Option Input := s.pending.head?

/-- The next step resets the block: power-on, or a well-formed SOFT_RESET written to CMD (R281, R320). -/
def ResetNext (s : State) : Prop :=
  nextInput s = some .reset ∨ nextInput s = some (commandWrite softResetWord)

/-- R231 (c): SinCfg is within `eps` of the sine at every phase. -/
def SineAccurate (eps : ℝ) : Prop :=
  ∀ p : Word, |((F32.val (sinCfg p) : ℚ) : ℝ) - Real.sin (2 * Real.pi * p.toNat / 2 ^ 32)| ≤ eps

/-- `m` is the reference magnitude M[k] of R191: symmetric Hamming window, forward transform, modulus. -/
def IsRefMagnitude (n : ℕ) (x : List Word) (k : ℕ) (m : ℝ) : Prop :=
  m = ‖∑ i ∈ Finset.range n,
    (((((F32.val (x.getD i 0) : ℚ) : ℝ) * (0.54 - 0.46 * Real.cos (2 * Real.pi * i / (n - 1))) : ℝ)) : ℂ) *
      Complex.exp (-2 * Real.pi * Complex.I * k * i / n)‖

/-- The sum of |val(x[n])| that scales the accuracy of R191 (c). -/
def absSum (x : List Word) : ℚ := (x.map (fun w => |F32.val w|)).sum

/-- The largest finite binary32 number (R191 (b)). -/
def maxFinite : ℚ := F32.val 0x7F7FFFFF#32

/-- R191 (c), and the clause of (b) on +infinity, for one input of size n: what may be assumed of the magnitudes `mag`
of that input beside what `specMagFor` has by construction. -/
def SpectrumAccurate (mag : ℕ → List Word → ℕ → Word) (eps : ℝ) (n : ℕ) (x : List Word) : Prop :=
  ∀ (k : ℕ) (m : ℝ), k ≤ n / 2 → IsRefMagnitude n x k m →
    (F32.finite (mag n x k) = true → |((F32.val (mag n x k) : ℚ) : ℝ) - m| ≤ eps * ((absSum x : ℚ) : ℝ)) ∧
    (F32.finite (mag n x k) = false → ((maxFinite : ℚ) : ℝ) < m)

/-- The elements a command may write: the last column of the state table R57, STATUS for every command. -/
def mayWrite : Instr → Reg → Bool
  | _, .status => true
  | .softReset _, _ => true
  | .bufAppend _, .bufFill | .bufAppend _, .bufWin _ => true
  | .bufIsFull _, .result0 => true
  | .zcProcess _, .zcFreq | .zcProcess _, .zcCount | .zcProcess _, .zcLastPos | .zcProcess _, .zcLast
  | .zcProcess _, .zcFlags | .zcProcess _, .snapFlags | .zcProcess _, .snap _
  | .zcProcess _, .result0 | .zcProcess _, .result1 => true
  | .zcReset _, .zcFreq | .zcReset _, .zcCount | .zcReset _, .zcLastPos | .zcReset _, .zcLast
  | .zcReset _, .zcFlags => true
  | .snapStart _, .snapFlags | .snapComplete _, .snapFlags => true
  | .snapCheck _, .result0 | .snapCheck _, .result1 => true
  | .specEstimate _, .specFreq | .specEstimate _, .specBin
  | .specEstimate _, .result0 | .specEstimate _, .result1 => true
  | .quantRemap _, .result0 | .quantRemap _, .result1 => true
  | .quantCheck _, .result0 | .quantCheck _, .result1 => true
  | .oscStart _, .oscFlags | .oscStart _, .oscFund | .oscStart _, .oscFreq _ | .oscStart _, .oscInc _
  | .oscStart _, .oscPhase _ => true
  | .oscSetFreq _, .oscFund | .oscSetFreq _, .oscFreq _ | .oscSetFreq _, .oscInc _ => true
  | .oscProcess _, .oscPhase _ | .oscProcess _, .outBlk _ _ => true
  | .edgeRising _, .edgeFlags | .edgeRising _, .edgeLast | .edgeRising _, .result0 => true
  | .edgeFalling _, .edgeFlags | .edgeFalling _, .edgeLast | .edgeFalling _, .result0 => true
  | _, _ => false

/-- A word the host may write: the W column of R74, the STATUS bit and CMD apart. -/
def hostWritable : Reg → Bool
  | .arg0 | .qthr _ | .qremap _ | .inBlk _ => true
  | _ => false

/-- A staged block: what the host has put in IN_BLK, and the fields of the block command that follows (R83). -/
abbrev StagedBlock := Vector Word 48 × Fields

/-- The samples of a staged block: the first LEN words (R39). -/
def StagedBlock.samples (b : StagedBlock) : List Word := b.1.toList.take b.2.len.toNat

/-- One block command for each staged block, in order, each on its own contents of IN_BLK. -/
def runBlocks (command : Fields → Instr) : List StagedBlock → State → Host.Outcome State Fault Refusal
  | [], s => .next s
  | b :: rest, s =>
    match exec (command b.2) { s with inBlk := b.1 } with
    | .next t => runBlocks command rest t
    | other => other

/-- The crossings that ZC_PROCESS reports in RESULT1 over a sequence of blocks, added up as a u32 (R162). -/
def crossingsReported : List StagedBlock → State → Word
  | [], _ => 0
  | b :: rest, s =>
    match exec (.zcProcess b.2) { s with inBlk := b.1 } with
    | .next t => t.result1 + crossingsReported rest t
    | _ => 0

/-- The RESULT0 words of one edge command for each reading written to ARG0, in order (R265). -/
def edgeResults (command : Instr) : List Word → State → List Word
  | [], _ => []
  | g :: rest, s =>
    match exec command { s with arg0 := g } with
    | .next t => t.result0 :: edgeResults command rest t
    | _ => []

/-- Does sample j of a block make a crossing with the sample before it, where the detector `z` holds the one before
the block (R162)? -/
def crossesAt (z : ZcState) (xs : List Word) (j : Nat) : Bool :=
  if j = 0 then z.hasPrev && crossing z.last (xs.getD 0 0) else crossing (xs.getD (j - 1) 0) (xs.getD j 0)

/-- The positions in a block at which the detector finds a crossing, in order. -/
def crossingPositions (z : ZcState) (xs : List Word) : List Nat :=
  (List.range xs.length).filter (crossesAt z xs)

/-- A ring whose counters are in range. -/
def Ring.wf {cap : Nat} (r : Ring cap) : Prop := r.next < cap ∧ r.fill ≤ cap

/-- Every threshold is finite and each is below the next (R50, R212). -/
def StrictlyIncreasing (t : Vector Word 17) : Prop :=
  (∀ i : Fin 17, F32.finite t[i] = true) ∧ ∀ i : Fin 16, F32.lt t[i.val] t[i.val + 1] = true

end Sys2Proof.Machine
end

