-- ==== Sys2Proof/Certificates/Slice0/Obligations.lean ====
section
/-! DEFINITION. The statements for the provers, drawn from the numbered rules of spec/. -/

open Sys2Proof Sys2Proof.Machine

/-! Encoding (30_encoding.md) -/

/-- R111, R117: every command, with every value of every field, survives encoding and decoding; and a word has one
reading, of which encoding gives back every bit. -/
def Obligations.DecodeAndEncodeAgree : Prop :=
  (∀ i : Instr, decode (encode i) = .ok i) ∧ (∀ (c : Word) (i : Instr), decode c = .ok i → encode i = c)

/-- R111: a well-formed command is the word (LEN << 16) | (SUB << 8) | OP. -/
def Obligations.EncodedWordIsLenSubOp : Prop :=
  ∀ i : Instr, i.wellFormed = true →
    encode i = (i.fields.len.setWidth 32 <<< 16) ||| (i.fields.sub.setWidth 32 <<< 8) ||| (opcode i).setWidth 32

/-- R118: the unassigned OP values are these ranges, and no others. -/
def Obligations.UnassignedOpcodesAreTheListedRanges : Prop :=
  ∀ c : Word,
    let op := c.toNat % 256
    decode c = .error (.illegalOpcode (BitVec.ofNat 8 op)) ↔
      (0x02 ≤ op ∧ op ≤ 0x0F) ∨ (0x12 ≤ op ∧ op ≤ 0x1F) ∨ (0x25 ≤ op ∧ op ≤ 0x2F) ∨
      (0x31 ≤ op ∧ op ≤ 0x3F) ∨ (0x42 ≤ op ∧ op ≤ 0x4F) ∨ (0x53 ≤ op ∧ op ≤ 0x5F) ∨ 0x62 ≤ op

/-- The example words of R119, one for each family. -/
def Obligations.ExampleWordsDecode : Prop :=
  decode 0x00000001 = .ok (.softReset ⟨0, 0, 0, 0⟩) ∧
  decode 0x00300010 = .ok (.bufAppend ⟨0, 48, 0, 0⟩) ∧
  decode 0x00300020 = .ok (.zcProcess ⟨0, 48, 0, 0⟩) ∧
  decode 0x000C0030 = .ok (.specEstimate ⟨0, 12, 0, 0⟩) ∧
  decode 0x00000041 = .ok (.quantCheck ⟨0, 0, 0, 0⟩) ∧
  decode 0x00000151 = .ok (.oscSetFreq ⟨1, 0, 0, 0⟩) ∧
  decode 0x00000161 = .ok (.edgeFalling ⟨1, 0, 0, 0⟩)

/-- R74: each element has the offset of the map, and each listed word of the window is that element's. -/
def Obligations.RegisterMapAgreesBothWays : Prop :=
  (∀ (r : Reg) (a : Nat), r.offset? = some a → ∃ h : a < 2 ^ 15, a % 4 = 0 ∧ regAt (BitVec.ofNatLT a h) = r) ∧
  (∀ off : Offset, off.toNat % 4 = 0 → regAt off ≠ .reserved → (regAt off).offset? = some off.toNat)

/-! The bus and the step (20_memory.md, 60_exceptions.md) -/

/-- R79, R110: a step that serves a CMD write of a command's word is that command at the state with the readback set.
The fields pending and response are the model's choice (assumptions 2, 4). -/
def Obligations.StepRunsTheDecodedCommand : Prop :=
  ∀ (s : State) (c : Word) (rest : List Input) (i : Instr),
    s.pending = commandWrite c :: rest → decode c = .ok i →
    step s = exec i { s with pending := rest, response := some .writeOk, cmd := c }

/-- R292: an unassigned OP changes the readback and STATUS only, whatever the other bits, and the block goes on.
The fields pending and response are the model's choice (assumptions 2, 4). -/
def Obligations.UnassignedOpcodeEndsIllegal : Prop :=
  ∀ (s : State) (c : Word) (rest : List Input) (op : BitVec 8),
    s.pending = commandWrite c :: rest → decode c = .error (.illegalOpcode op) →
    step s = .next { s with pending := rest, response := some .writeOk, cmd := c,
                            status := { code := .illegalOpcode, err := true } }

/-- R296, R297: the block has no trap. Every step answers a next state and consumes exactly the input it served.
The field pending, and that an idle block waits, are the model's choice (assumptions 2, 12). -/
def Obligations.EveryStepAnswersNext : Prop :=
  ∀ s : State, ∃ t : State, step s = .next t ∧ t.pending = s.pending.tail

/-- R71, R295: an access of another size or at an unaligned offset gets a bus error, data 0, and changes nothing.
The fields pending and response are the model's choice (assumptions 2, 4). -/
def Obligations.IllegalAccessIsBusErrorOnly : Prop :=
  ∀ (s : State) (off : Offset) (size : Nat) (data : Word) (rest : List Input),
    size ≠ 4 ∨ off.toNat % 4 ≠ 0 →
    (s.pending = .busRead off size :: rest →
      step s = .next { s with pending := rest, response := some (.readError 0) }) ∧
    (s.pending = .busWrite off size data :: rest →
      step s = .next { s with pending := rest, response := some .writeError })

/-- R77: a legal read answers the word at the offset and changes nothing of the block.
The fields pending and response are the model's choice (assumptions 2, 4). -/
def Obligations.LegalReadHasNoSideEffect : Prop :=
  ∀ (s : State) (off : Offset) (rest : List Input),
    s.pending = .busRead off 4 :: rest → off.toNat % 4 = 0 →
    step s = .next { s with pending := rest, response := some (.readOk (readReg off s)) }

/-- R72: the four bytes of a word of the window are its byte lanes, lowest first. -/
def Obligations.WordIsItsFourByteLanes : Prop :=
  ∀ (s : State) (m : Nat), m < 0x2000 →
    wordOfLanes (readByte (BitVec.ofNat 15 (4 * m)) s) (readByte (BitVec.ofNat 15 (4 * m + 1)) s)
      (readByte (BitVec.ofNat 15 (4 * m + 2)) s) (readByte (BitVec.ofNat 15 (4 * m + 3)) s)
      = readReg (BitVec.ofNat 15 (4 * m)) s

/-- R75: a reserved offset reads 0 and a write to it is ignored; neither is a bus error.
The fields pending and response are the model's choice (assumptions 2, 4). -/
def Obligations.ReservedOffsetsReadZeroIgnoreWrites : Prop :=
  ∀ (s : State) (off : Offset) (data : Word) (rest : List Input),
    off.toNat % 4 = 0 →
    ((0x0018 ≤ off.toNat ∧ off.toNat < 0x0020) ∨ (0x002C ≤ off.toNat ∧ off.toNat < 0x0040) ∨
      (0x0044 ≤ off.toNat ∧ off.toNat < 0x0050) ∨ (0x0068 ≤ off.toNat ∧ off.toNat < 0x0070) ∨
      (0x0078 ≤ off.toNat ∧ off.toNat < 0x0080) ∨ (0x0088 ≤ off.toNat ∧ off.toNat < 0x0090) ∨
      (0x0098 ≤ off.toNat ∧ off.toNat < 0x00A0) ∨ (0x00D0 ≤ off.toNat ∧ off.toNat < 0x0100) ∨
      (0x0144 ≤ off.toNat ∧ off.toNat < 0x0180) ∨ (0x01C0 ≤ off.toNat ∧ off.toNat < 0x0200) ∨
      (0x02C0 ≤ off.toNat ∧ off.toNat < 0x0300) ∨ (0x03C0 ≤ off.toNat ∧ off.toNat < 0x0400) ∨
      (0x0400 ≤ off.toNat ∧ off.toNat < 0x0800 ∧ 0xC0 ≤ off.toNat % 0x100) ∨
      (0x0800 ≤ off.toNat ∧ off.toNat < 0x4000)) →
    (s.pending = .busRead off 4 :: rest →
      step s = .next { s with pending := rest, response := some (.readOk 0) }) ∧
    (s.pending = .busWrite off 4 data :: rest →
      step s = .next { s with pending := rest, response := some .writeOk })

/-- R76, R78: a legal host write, CMD apart, always succeeds: a read-write word then reads as written, a read-only word
other than STATUS keeps its value, and every byte of every other word reads as before.
The fields pending, response and gateIn are the model's choice (assumptions 2, 3, 4). -/
def Obligations.HostWriteChangesOnlyItsWord : Prop :=
  ∀ (s : State) (off : Offset) (data : Word) (rest : List Input),
    s.pending = .busWrite off 4 data :: rest → off.toNat % 4 = 0 → off ≠ cmdOffset →
    ∃ t : State, step s = .next t ∧ t.pending = rest ∧ t.response = some .writeOk ∧ t.gateIn = s.gateIn ∧
      (hostWritable (regAt off) = true → readReg off t = data) ∧
      (hostWritable (regAt off) = false → regAt off ≠ .status → readReg off t = readReg off s) ∧
      (∀ a : Offset, a.toNat / 4 ≠ off.toNat / 4 → readByte a t = readByte a s)

/-- R35: the fields of STATUS, its write-1-to-clear bit, and the bits that ignore writes.
The fields pending and response are the model's choice (assumptions 2, 4). -/
def Obligations.StatusWriteClearsErrOnly : Prop :=
  ∀ (s : State) (data : Word) (rest : List Input),
    s.pending = .busWrite 0x0004 4 data :: rest →
    ∃ t : State, step s = .next t ∧ readReg 0x0004 t =
      (if data.getLsbD 8 then readReg 0x0004 s &&& 0x000000FF#32 else readReg 0x0004 s) ∧
      { t with status := s.status, pending := s.pending, response := s.response } = s

/-- R88: BUF_WIN[i] is W[i] below BUF_FILL and 0 above, oldest sample first. -/
def Obligations.BufferWindowReadsTheWindow : Prop :=
  ∀ (s : State) (i : Nat), i < 4096 →
    readReg (BitVec.ofNat 15 (0x4000 + 4 * i)) s = if h : i < s.window.length then s.window[i] else 0x00000000#32

/-- R291: how a command ends. Only STATUS changes; ERR is set by a code other than OK and kept by OK. -/
def Obligations.CompletionSetsStatusOnly : Prop :=
  ∀ (x : StatusCode) (s : State),
    (complete x s).status.code = x ∧
    ((complete x s).status.err = true ↔ x ≠ .ok ∨ s.status.err = true) ∧
    { complete x s with status := s.status } = s

/-- R117, R293 (2): a command whose reserved bits, SUB or LEN are not legal ends with BAD_FIELD and changes nothing
else, and a well-formed one never ends with BAD_FIELD. -/
def Obligations.BadFieldExactlyWhenIllFormed : Prop :=
  ∀ (i : Instr) (s : State),
    (i.wellFormed = false → exec i s = .next { s with status := { code := .badField, err := true } }) ∧
    (i.wellFormed = true → ∀ t : State, exec i s = .next t → t.status.code ≠ .badField)

/-- R296: every command is precise. One that ends with a code of 1 to 5 has changed STATUS and nothing else. -/
def Obligations.ErrorsChangeStatusOnly : Prop :=
  ∀ (i : Instr) (s t : State), exec i s = .next t →
    1 ≤ (statusByte t.status.code).toNat → (statusByte t.status.code).toNat ≤ 5 →
    t.status.err = true ∧ { t with status := s.status } = s

/-- R297: ERR once set stays set, unless the host clears it through STATUS bit 8 or the block is reset.
The field pending is the model's choice (assumption 2). -/
def Obligations.ErrStaysUntilCleared : Prop :=
  ∀ s t : State, step s = .next t → s.status.err = true → ¬ResetNext s →
    (∀ data : Word, data.getLsbD 8 = true → nextInput s ≠ some (.busWrite 0x0004 4 data)) →
    t.status.err = true

/-- R57, R82: a command writes the elements of its row of the state table and no other: every byte of every other
word of the window reads as before, and the inputs and the response are untouched.
The fields pending, response and gateIn are the model's choice (assumptions 2, 3, 4). -/
def Obligations.CommandWritesOnlyItsElements : Prop :=
  ∀ (i : Instr) (s t : State), exec i s = .next t →
    (∀ a : Offset, mayWrite i (regAt a) = false → readByte a t = readByte a s) ∧
    t.gateIn = s.gateIn ∧ t.pending = s.pending ∧ t.response = s.response

/-- R261: the level of gate_in matters to no command but an edge command with SUB = 0.
That the level is a field of the state is the model's choice (assumption 3). -/
def Obligations.GateLevelUnseenByOtherCommands : Prop :=
  ∀ (i : Instr) (s t : State) (level : Bool), exec i s = .next t →
    (∀ f : Fields, f.sub = 0 → i ≠ .edgeRising f ∧ i ≠ .edgeFalling f) →
    exec i { s with gateIn := level } = .next { t with gateIn := level }

/-- R216: no command but QUANT_REMAP and QUANT_CHECK reads the quantizer table (SOFT_RESET reloads it). -/
def Obligations.QuantizerTableUnseenByOtherCommands : Prop :=
  ∀ (i : Instr) (s t : State) (thr : Vector Word 17) (tones : Vector Word 16), exec i s = .next t →
    (∀ f : Fields, i ≠ .quantRemap f ∧ i ≠ .quantCheck f ∧ i ≠ .softReset f) →
    exec i { s with qthr := thr, qremap := tones } = .next { t with qthr := thr, qremap := tones }

/-! Reset and the invariant (70_reset_and_hazards.md, 10_state.md) -/

/-- R57, R320: after a reset, power-on or platform, every word of the window reads 0, but for the constants and the
quantizer table, which holds QTABLE_RESET; the pin and the other inputs are left alone.
The fields pending and gateIn, and that a reset leaves them, are the model's choice (assumptions 2, 3, 14). -/
def Obligations.ResetReadsTheResetColumn : Prop :=
  ∀ (s : State) (rest : List Input), s.pending = .reset :: rest →
    ∃ t : State, step s = .next t ∧ t.gateIn = s.gateIn ∧ t.pending = rest ∧
      ∀ off : Offset, readReg off t = readReg off State.reset ∧ readReg off t =
        match regAt off with
        | .id => 0x42570001#32
        | .cfgSampleRate => 0x473B8000#32
        | .cfgBufCap => 0x00001000#32
        | .cfgSnapLen => 0x00000030#32
        | .qthr i => Config.qthrReset[i]
        | .qremap i => Config.qremapReset[i]
        | _ => 0x00000000#32

/-- R281: SOFT_RESET gives every word of the window its reset value, but for CMD, which reads 0x00000001, and ends OK.
The fields pending, response and gateIn are the model's choice (assumptions 2, 3, 4). -/
def Obligations.SoftResetResetsTheBlock : Prop :=
  ∀ (f : Fields) (s : State), (Instr.softReset f).wellFormed = true →
    ∃ t : State, exec (.softReset f) s = .next t ∧
      (∀ a : Offset, regAt a ≠ .cmd → readByte a t = readByte a State.reset) ∧
      readReg 0x0008 t = 0x00000001#32 ∧ readReg 0x0004 t = 0x00000000#32 ∧
      t.gateIn = s.gateIn ∧ t.pending = s.pending ∧ t.response = s.response

/-- The reset state satisfies the invariant.
The invariant is the model's own collection of what the rules keep (R41 to R53, R161, R192, R231 to R233, R260). -/
def Obligations.ResetStateSatisfiesInv : Prop := Inv State.reset

/-- Every step keeps the invariant, whatever the input: a command, a bus access, a gate level or a reset.
The invariant is the model's own collection of what the rules keep (R41 to R53, R161, R192, R231 to R233, R260). -/
def Obligations.StepKeepsInv : Prop :=
  ∀ s t : State, Inv s → step s = .next t → Inv t

/-- R41: where the next input is not a reset, a step does not decrease BUF_FILL and keeps it at most BUF_CAP.
The field pending, through which the next input is known, is the model's choice (assumption 2). -/
def Obligations.FillNeverDecreasesExceptAtReset : Prop :=
  ∀ s t : State, Memory.wf s → ¬ResetNext s → step s = .next t → Memory.wf t ∧ bufFill s ≤ bufFill t

/-! Control (46_control.md) -/

/-- R280: NOP only sets the code to OK. -/
def Obligations.NopOnlySetsCode : Prop :=
  ∀ (f : Fields) (s : State), (Instr.nop f).wellFormed = true →
    exec (.nop f) s = .next { s with status := { code := .ok, err := s.status.err } }

/-! Circular audio buffer (40_buffer.md) -/

/-- R140: BUF_APPEND leaves the last BUF_CAP elements of W ++ S, in order, and changes nothing else but the code. -/
def Obligations.BufAppendKeepsMostRecent : Prop :=
  ∀ (f : Fields) (s : State), (Instr.bufAppend f).wellFormed = true →
    ∃ t : State, exec (.bufAppend f) s = .next t ∧
      t.window.length = min 4096 (s.window.length + f.len.toNat) ∧
      (∀ i, i < t.window.length →
        t.window[i]? = (s.window ++ s.inBlk.toList.take f.len.toNat)[s.window.length + f.len.toNat - 4096 + i]?) ∧
      t.status = { code := .ok, err := s.status.err } ∧
      { t with window := s.window, status := s.status } = s

/-- R142: from an empty window, whatever the block lengths, W is the last BUF_CAP samples of everything appended, in order. -/
def Obligations.WindowIsTailOfAllAppends : Prop :=
  ∀ (blocks : List StagedBlock) (s : State), s.window = [] →
    (∀ b ∈ blocks, (Instr.bufAppend b.2).wellFormed = true) →
    ∃ t : State, runBlocks .bufAppend blocks s = .next t ∧
      t.window.length = min 4096 ((blocks.map StagedBlock.samples).flatten.length) ∧
      t.window <:+ (blocks.map StagedBlock.samples).flatten

/-- R143: BUF_IS_FULL answers whether the window holds BUF_CAP samples. -/
def Obligations.BufIsFullReportsFullness : Prop :=
  ∀ (f : Fields) (s : State), (Instr.bufIsFull f).wellFormed = true →
    ∃ t : State, exec (.bufIsFull f) s = .next t ∧
      (t.result0 = 1 ↔ s.window.length = 4096) ∧ (t.result0 = 0 ↔ s.window.length ≠ 4096) ∧
      t.status = { code := .ok, err := s.status.err } ∧
      { t with result0 := s.result0, status := s.status } = s

/-- R42: a ring with a write index, fed sample by sample, stores exactly the window at every moment.
The ring is the model's own construction, beside the state and not part of it (assumption 5, DEDUCED): the statement
is about `ringPush` and `ringWindow`, not about a step. -/
def Obligations.RingRefinesTheWindow : Prop :=
  ∀ (cap : Nat) (r : Ring cap) (xs : List Word), Ring.wf r →
    Ring.wf (xs.foldl ringPush r) ∧
    (xs.foldl ringPush r).fill = (appendWindow cap (ringWindow r) xs).length ∧
    ringWindow (xs.foldl ringPush r) = appendWindow cap (ringWindow r) xs

/-! Zero crossings and the snapshot (41_zero_crossing.md) -/

/-- R160: the classes of a sample, and the table of class pairs. -/
def Obligations.CrossingFollowsTheClassTable : Prop :=
  (∀ x : Word, F32.isNaN x = true ↔ classOf x = .unord) ∧
  (∀ x : Word, F32.isNaN x = false →
    (classOf x = .neg ↔ F32.ival x < 0) ∧ (classOf x = .zero ↔ F32.ival x = 0) ∧ (classOf x = .pos ↔ 0 < F32.ival x)) ∧
  (∀ a b : Word, crossing a b = true ↔ (classOf a, classOf b) ∈
    [(SampleClass.neg, SampleClass.zero), (.neg, .pos), (.zero, .neg), (.zero, .pos), (.pos, .neg), (.pos, .zero)])

/-- R162: what ZC_PROCESS leaves, from the positions of the crossings in the block: the counter, the position of the
last crossing, the estimate from the last two, the results and the snapshot. -/
def Obligations.ZcProcessResult : Prop :=
  ∀ (f : Fields) (s : State), (Instr.zcProcess f).wellFormed = true →
    let xs := s.inBlk.toList.take f.len.toNat
    let at' := crossingPositions s.zc xs
    ∃ t : State, exec (.zcProcess f) s = .next t ∧
      t.zc.count = s.zc.count + u32 f.len.toNat ∧
      t.zc.hasPrev = true ∧ some t.zc.last = xs.getLast? ∧
      t.zc.hasCross = (s.zc.hasCross || !at'.isEmpty) ∧
      (∀ j, at'.getLast? = some j → t.zc.lastPos = s.zc.count + u32 j) ∧
      (∀ j k, at'.reverse.take 2 = [j, k] →
        t.zc.freq = zcEstimate 0x473B8000#32 (j - k)) ∧
      (∀ j, at' = [j] → t.zc.freq =
        if s.zc.hasCross then zcEstimate 0x473B8000#32 (zcInterval (s.zc.count + u32 j) s.zc.lastPos) else s.zc.freq) ∧
      (at' = [] → t.zc.freq = s.zc.freq ∧ t.zc.lastPos = s.zc.lastPos) ∧
      t.result0 = t.zc.freq ∧ t.result1 = u32 at'.length ∧
      (s.snap.armed = false → t.snap = s.snap) ∧
      (s.snap.armed = true → t.snap.armed = false ∧ t.snap.ready = true ∧
        ∀ j : Fin 48, t.snap.words[j] = if j.val < f.len.toNat then s.inBlk[j] else s.snap.words[j]) ∧
      t.status = { code := .ok, err := s.status.err } ∧
      { t with zc := s.zc, snap := s.snap, result0 := s.result0, result1 := s.result1, status := s.status } = s

/-- R163: the end state of the detector does not depend on how the samples are split into blocks, and after a detector
reset the latched position is the index of the last crossing. -/
def Obligations.ZcIndependentOfBlockSplit : Prop :=
  ∀ (blocks blocks' : List StagedBlock) (s : State),
    (∀ b ∈ blocks, (Instr.zcProcess b.2).wellFormed = true) →
    (∀ b ∈ blocks', (Instr.zcProcess b.2).wellFormed = true) →
    (blocks.map StagedBlock.samples).flatten = (blocks'.map StagedBlock.samples).flatten →
    ∃ t t' : State, runBlocks .zcProcess blocks s = .next t ∧ runBlocks .zcProcess blocks' s = .next t' ∧
      t.zc = t'.zc ∧
      (s.zc = ZcState.cleared → ∀ k,
        (crossingPositions s.zc (blocks.map StagedBlock.samples).flatten).getLast? = some k → t.zc.lastPos = u32 k)

/-- R172, R162: over any blocks fed to ZC_PROCESS after a reset of the detector, a signal that changes sign every h
samples, begun with either sign and p samples into a half period, is reported as the sample rate over h from its second
sign change on. RESULT1 counts one crossing for each sign change, and the latched position is that of the last.
With h = 240 at 48000 Hz the report is exactly 200.0. -/
def Obligations.PureToneReportsRateOverHalfPeriod : Prop :=
  (∀ (blocks : List StagedBlock) (s : State) (h p : Nat) (first second : SampleClass),
    (∀ b ∈ blocks, (Instr.zcProcess b.2).wellFormed = true) → s.zc = ZcState.cleared →
    0 < h → h ≤ 2 ^ 32 → p < h → (first, second) = (.pos, .neg) ∨ (first, second) = (.neg, .pos) →
    let xs := (blocks.map StagedBlock.samples).flatten
    2 * h - p < xs.length →
    (∀ j, j < xs.length → classOf (xs.getD j 0) = if (j + p) / h % 2 = 0 then first else second) →
    ∃ t : State, runBlocks .zcProcess blocks s = .next t ∧
      t.zc.freq = F32.rne32 48000 h ∧ t.result0 = F32.rne32 48000 h ∧
      t.zc.lastPos = u32 ((xs.length - 1 + p) / h * h - p) ∧ t.zc.count = u32 xs.length ∧
      crossingsReported blocks s = u32 ((xs.length - 1 + p) / h)) ∧
  F32.rne32 48000 240 = 0x43480000#32

/-- R171: no estimate is +0.0: every one is finite and greater than 0. -/
def Obligations.ZcEstimateIsPositive : Prop :=
  ∀ count lastPos : Word,
    let e := zcEstimate Config.sampleRate (zcInterval count lastPos)
    F32.finite e = true ∧ F32.lt posZero e = true

/-- R164: ZC_RESET clears the detector and nothing else. -/
def Obligations.ZcResetClearsDetectorOnly : Prop :=
  ∀ (f : Fields) (s : State), (Instr.zcReset f).wellFormed = true →
    exec (.zcReset f) s = .next { s with
      zc := { hasPrev := false, last := 0x00000000#32, count := 0, hasCross := false, lastPos := 0, freq := 0x00000000#32 }
      status := { code := .ok, err := s.status.err } }

/-- R166, R167, R168: arming sets the armed flag only, a check reports both flags and consumes nothing, completing
clears the ready flag only. -/
def Obligations.SnapshotCommandsTouchTheirFlag : Prop :=
  ∀ (f : Fields) (s : State),
    ((Instr.snapStart f).wellFormed = true → exec (.snapStart f) s = .next { s with
      snap := { armed := true, ready := s.snap.ready, words := s.snap.words }
      status := { code := .ok, err := s.status.err } }) ∧
    ((Instr.snapCheck f).wellFormed = true → exec (.snapCheck f) s = .next { s with
      result0 := if s.snap.ready then 1 else 0
      result1 := if s.snap.armed then 1 else 0
      status := { code := .ok, err := s.status.err } }) ∧
    ((Instr.snapComplete f).wellFormed = true → exec (.snapComplete f) s = .next { s with
      snap := { armed := s.snap.armed, ready := false, words := s.snap.words }
      status := { code := .ok, err := s.status.err } })

/-- R169: one arming gives one capture. After SNAP_START the first ZC_PROCESS captures its block and further ones do not. -/
def Obligations.OneArmingOneCapture : Prop :=
  ∀ (f : Fields) (b : StagedBlock) (more : List StagedBlock) (s : State),
    (Instr.snapStart f).wellFormed = true → (∀ x ∈ b :: more, (Instr.zcProcess x.2).wellFormed = true) →
    ∃ armed t : State, exec (.snapStart f) s = .next armed ∧ runBlocks .zcProcess (b :: more) armed = .next t ∧
      t.snap.armed = false ∧ t.snap.ready = true ∧
      ∀ j : Fin 48, t.snap.words[j] = if j.val < b.2.len.toNat then b.1[j] else s.snap.words[j]

/-! Spectral peak detector (42_spectral.md) -/

/-- R192, R193: with enough finite samples SPEC_ESTIMATE ends OK with the lowest bin of largest magnitude among
0..N/2, and its centre frequency; nothing else changes. -/
def Obligations.SpecEstimateFindsLowestPeak : Prop :=
  ∀ (f : Fields) (s : State), (Instr.specEstimate f).wellFormed = true →
    2 ^ f.len.toNat ≤ s.window.length →
    let x := s.window.drop (s.window.length - 2 ^ f.len.toNat)
    (∀ w ∈ x, F32.finite w = true) →
    ∃ (t : State) (best : Nat), exec (.specEstimate f) s = .next t ∧ best ≤ 2 ^ f.len.toNat / 2 ∧
      (∀ k, k ≤ 2 ^ f.len.toNat / 2 →
        F32.le (specMag (2 ^ f.len.toNat) x k) (specMag (2 ^ f.len.toNat) x best) = true) ∧
      (∀ k, k < best → F32.lt (specMag (2 ^ f.len.toNat) x k) (specMag (2 ^ f.len.toNat) x best) = true) ∧
      t.spec.bin = u32 best ∧ t.spec.freq = F32.rne32 (best * 48000) (2 ^ f.len.toNat) ∧
      t.result0 = t.spec.freq ∧ t.result1 = u32 best ∧
      t.status = { code := .ok, err := s.status.err } ∧
      { t with spec := s.spec, result0 := s.result0, result1 := s.result1, status := s.status } = s

/-- R192, R293: too short a history ends INSUFFICIENT_HISTORY even where a sample is not finite; then a sample that is
not finite ends BAD_ARG. Neither changes anything but STATUS. -/
def Obligations.SpecEstimateErrorsInOrder : Prop :=
  ∀ (f : Fields) (s : State), (Instr.specEstimate f).wellFormed = true →
    (s.window.length < 2 ^ f.len.toNat →
      exec (.specEstimate f) s = .next { s with status := { code := .insufficientHistory, err := true } }) ∧
    (2 ^ f.len.toNat ≤ s.window.length →
      (∃ w ∈ s.window.drop (s.window.length - 2 ^ f.len.toNat), F32.finite w = false) →
      exec (.specEstimate f) s = .next { s with status := { code := .badArg, err := true } })

/-- R191 (d), R192: an all-zero input, whichever zeros it holds, gives bin 0 and +0.0. -/
def Obligations.SilenceGivesBinZero : Prop :=
  ∀ (f : Fields) (s : State), (Instr.specEstimate f).wellFormed = true →
    2 ^ f.len.toNat ≤ s.window.length →
    (∀ w ∈ s.window.drop (s.window.length - 2 ^ f.len.toNat), F32.eq w posZero = true) →
    exec (.specEstimate f) s = .next { s with
      spec := { freq := 0x00000000#32, bin := 0 }, result0 := 0x00000000#32, result1 := 0
      status := { code := .ok, err := s.status.err } }

/-- R194: for SAMPLE_RATE = 48000.0 the centre frequency of every bin of every transform size is exact. -/
def Obligations.BinFrequencyIsExact : Prop :=
  ∀ l best : Nat, 1 ≤ l → l ≤ 12 → best ≤ 2 ^ l / 2 →
    F32.finite (binFreq Config.sampleRate (2 ^ l) best) = true ∧
    F32.val (binFreq Config.sampleRate (2 ^ l) best) = (best : ℚ) * 48000 / 2 ^ l

/-- R191, R192: where the magnitudes of the N samples at hand are accurate to eps (R191 (c), and the clause of (b) on
+infinity), SPEC_ESTIMATE finds the bin of the greatest reference magnitude whenever its margin over every other bin is
more than twice the accuracy, and stores that bin and its centre frequency.
It is stated for a block with any parameters (R13); the last clause says that this hardware is the one at `Config.params`.
The accuracy is a premise on this one input, which R191 gives for every input (assumption 8). -/
def Obligations.PeakIsDeterminateWithMargin : Prop :=
  ∀ (P : Params) (f : Fields) (s : State) (best : ℕ) (ref : ℕ → ℝ) (eps : ℝ),
    let n := 2 ^ f.len.toNat
    let x := s.window.drop (s.window.length - n)
    let margin := 2 * (eps * ((absSum x : ℚ) : ℝ))
    (Instr.specEstimate f).wellFormedFor P.specLmax = true → n ≤ s.window.length →
    (∀ w ∈ x, F32.finite w = true) → SpectrumAccurate (specMagFor P.specMagFree) eps n x →
    best ≤ n / 2 → (∀ k, k ≤ n / 2 → IsRefMagnitude n x k (ref k)) →
    (∀ k, k ≤ n / 2 → k ≠ best → ref k ≤ ((maxFinite : ℚ) : ℝ) ∧ ref k + margin < ref best) →
    ∃ t : State, execFor P (.specEstimate f) s = .next t ∧
      t.spec.bin = u32 best ∧ t.spec.freq = binFreq P.sampleRate n best ∧
      t.result0 = t.spec.freq ∧ t.result1 = u32 best ∧
      t.status = { code := .ok, err := s.status.err } ∧
      { t with spec := s.spec, result0 := s.result0, result1 := s.result1, status := s.status } = s ∧
      (P = Config.params → exec (.specEstimate f) s = .next t)

/-! Quantizer (43_quantizer.md) -/

/-- R210, R212: on a strictly increasing table of finite thresholds a reading that is not a NaN never ends NO_MATCH, and the
tone is the one whose interval holds the reading, clamped at both ends. -/
def Obligations.QuantRemapPartitionsTheLine : Prop :=
  ∀ (f : Fields) (s : State), (Instr.quantRemap f).wellFormed = true →
    StrictlyIncreasing s.qthr → F32.isNaN s.arg0 = false →
    ∃ i : Fin 16, exec (.quantRemap f) s = .next { s with
        result0 := s.qremap[i], result1 := u32 i, status := { code := .ok, err := s.status.err } } ∧
      (i.val = 0 ∨ F32.le s.qthr[i.val] s.arg0 = true) ∧
      (i.val = 15 ∨ F32.lt s.arg0 s.qthr[i.val + 1] = true) ∧
      (∀ k : Fin 16, F32.le s.qthr[k.val] s.arg0 = true → F32.lt s.arg0 s.qthr[k.val + 1] = true → k = i)

/-- R211: on any table QUANT_REMAP clamps below T[0] first, then at or above T[16], then takes the first matching
interval in index order. -/
def Obligations.QuantRemapFirstMatchOnAnyTable : Prop :=
  ∀ (f : Fields) (s : State), (Instr.quantRemap f).wellFormed = true →
    ∃ (i : Fin 16) (code : StatusCode), exec (.quantRemap f) s = .next { s with
        result0 := s.qremap[i], result1 := u32 i,
        status := { code := code, err := s.status.err || decide (code ≠ .ok) } } ∧
      (F32.lt s.arg0 s.qthr[0] = true → i.val = 0 ∧ code = .ok) ∧
      (F32.lt s.arg0 s.qthr[0] = false → F32.le s.qthr[16] s.arg0 = true → i.val = 15 ∧ code = .ok) ∧
      (F32.lt s.arg0 s.qthr[0] = false → F32.le s.qthr[16] s.arg0 = false →
        (∀ k : Fin 16, inInterval s.qthr s.arg0 k = true → (∀ m : Fin 16, m < k → inInterval s.qthr s.arg0 m = false) →
          i = k ∧ code = .ok) ∧
        ((∀ k : Fin 16, inInterval s.qthr s.arg0 k = false) → i.val = 0 ∧ code = .noMatch))

/-- R211: NO_MATCH needs a NaN: a NaN reading always ends NO_MATCH with tone 0, and with no NaN anywhere no table does. -/
def Obligations.NoMatchNeedsNaN : Prop :=
  ∀ (f : Fields) (s t : State), (Instr.quantRemap f).wellFormed = true → exec (.quantRemap f) s = .next t →
    (F32.isNaN s.arg0 = true → t.status.code = .noMatch ∧ t.result0 = s.qremap[0] ∧ t.result1 = 0) ∧
    (F32.isNaN s.arg0 = false → (∀ i : Fin 17, F32.isNaN s.qthr[i] = false) → t.status.code = .ok)

/-- R213: QUANT_CHECK reports whether the thresholds increase strictly, and the first place they do not. -/
def Obligations.QuantCheckFindsFirstUnordered : Prop :=
  ∀ (f : Fields) (s : State), (Instr.quantCheck f).wellFormed = true →
    ∃ t : State, exec (.quantCheck f) s = .next t ∧
      ((∀ i : Fin 16, F32.lt s.qthr[i.val] s.qthr[i.val + 1] = true) → t.result0 = 1 ∧ t.result1 = 16) ∧
      (∀ i : Fin 16, F32.lt s.qthr[i.val] s.qthr[i.val + 1] = false →
        (∀ m : Fin 16, m < i → F32.lt s.qthr[m.val] s.qthr[m.val + 1] = true) → t.result0 = 0 ∧ t.result1 = u32 i) ∧
      t.status = { code := .ok, err := s.status.err } ∧
      { t with result0 := s.result0, result1 := s.result1, status := s.status } = s

/-! Oscillator bank (44_oscillator.md) -/

/-- R233, R236: OSC_START tunes the four voices to the selected frequency, sets every phase to 0 and starts the bank. -/
def Obligations.OscStartTunesAndZeroesPhases : Prop :=
  ∀ (f : Fields) (s : State) (x : Word), (Instr.oscStart f).wellFormed = true →
    (f.sub = 0 → x = s.arg0) → (f.sub = 1 → x = s.zc.freq) → (f.sub = 2 → x = s.spec.freq) →
    F32.finite x = true → (∀ v : Fin 4, F32.finite (F32.mul x Config.ratio[v]) = true) →
    ∃ t : State, exec (.oscStart f) s = .next t ∧ t.osc.started = true ∧ t.osc.fund = x ∧
      (∀ v : Fin 4, t.osc.freq[v] = F32.mul x Config.ratio[v] ∧
        t.osc.inc[v] = phaseInc Config.sampleRate (F32.mul x Config.ratio[v]) ∧ t.osc.phase[v] = 0) ∧
      t.status = { code := .ok, err := s.status.err } ∧
      { t with osc := s.osc, status := s.status } = s

/-- R238, R244: on a started bank OSC_SET_FREQ tunes the voices and keeps every phase. -/
def Obligations.OscSetFreqKeepsPhases : Prop :=
  ∀ (f : Fields) (s : State) (x : Word), (Instr.oscSetFreq f).wellFormed = true → s.osc.started = true →
    (f.sub = 0 → x = s.arg0) → (f.sub = 1 → x = s.zc.freq) → (f.sub = 2 → x = s.spec.freq) →
    F32.finite x = true → (∀ v : Fin 4, F32.finite (F32.mul x Config.ratio[v]) = true) →
    ∃ t : State, exec (.oscSetFreq f) s = .next t ∧ t.osc.started = true ∧ t.osc.fund = x ∧
      t.osc.phase = s.osc.phase ∧
      (∀ v : Fin 4, t.osc.freq[v] = F32.mul x Config.ratio[v] ∧
        t.osc.inc[v] = phaseInc Config.sampleRate (F32.mul x Config.ratio[v])) ∧
      t.status = { code := .ok, err := s.status.err } ∧
      { t with osc := s.osc, status := s.status } = s

/-- R236, R238, R242, R293: a bank that has not been started refuses OSC_SET_FREQ and OSC_PROCESS with NOT_STARTED,
before any look at the frequency; a frequency that is not finite, or overflows in a voice, ends BAD_ARG. -/
def Obligations.OscErrorsInOrder : Prop :=
  ∀ (f : Fields) (s : State) (x : Word),
    (f.sub = 0 → x = s.arg0) → (f.sub = 1 → x = s.zc.freq) → (f.sub = 2 → x = s.spec.freq) →
    ((Instr.oscSetFreq f).wellFormed = true → s.osc.started = false →
      exec (.oscSetFreq f) s = .next { s with status := { code := .notStarted, err := true } }) ∧
    ((Instr.oscProcess f).wellFormed = true → s.osc.started = false →
      exec (.oscProcess f) s = .next { s with status := { code := .notStarted, err := true } }) ∧
    ((F32.finite x = false ∨ ∃ v : Fin 4, F32.finite (F32.mul x Config.ratio[v]) = false) →
      ((Instr.oscStart f).wellFormed = true →
        exec (.oscStart f) s = .next { s with status := { code := .badArg, err := true } }) ∧
      ((Instr.oscSetFreq f).wellFormed = true → s.osc.started = true →
        exec (.oscSetFreq f) s = .next { s with status := { code := .badArg, err := true } }))

/-- R242: OSC_PROCESS in closed form: sample j of voice v is the amplitude times the sine of the phase advanced j
times, each phase ends advanced LEN times, and the rest of the output block keeps its words. -/
def Obligations.OscProcessClosedForm : Prop :=
  ∀ (f : Fields) (s : State), (Instr.oscProcess f).wellFormed = true → s.osc.started = true →
    ∃ t : State, exec (.oscProcess f) s = .next t ∧
      (∀ v : Fin 4, t.osc.phase[v] = s.osc.phase[v] + u32 f.len.toNat * s.osc.inc[v]) ∧
      (∀ (v : Fin 4) (j : Fin 48), t.outBlk[v][j] =
        if j.val < f.len.toNat then F32.mul Config.amp (sinCfg (s.osc.phase[v] + u32 j * s.osc.inc[v]))
        else s.outBlk[v][j]) ∧
      t.status = { code := .ok, err := s.status.err } ∧
      { t with osc := s.osc, outBlk := s.outBlk, status := s.status } = s ∧
      { t.osc with phase := s.osc.phase } = s.osc

/-- R243: the advance per sample, read as a signed increment, is within SAMPLE_RATE / 2^33 of the voice frequency
whenever that is below half the sample rate. -/
def Obligations.IncrementRepresentsFrequency : Prop :=
  ∀ fv : Word, F32.finite fv = true → |F32.val fv| < 24000 →
    |(((phaseInc Config.sampleRate fv).toInt : ℤ) : ℚ) * 48000 / 2 ^ 32 - F32.val fv| ≤ 48000 / 2 ^ 33

/-- R232: the output sample of a voice is exact at the four quarter points, and with a sine accurate to eps it is
within 0.7 eps + 2^-24 + 1.2e-8 of 0.7 times the sine at every phase. -/
def Obligations.OutputSampleIsAmplitudeTimesSine : Prop :=
  voiceOut 0x00000000#32 = 0x00000000#32 ∧ voiceOut 0x80000000#32 = 0x00000000#32 ∧
  voiceOut 0x40000000#32 = 0x3F333333#32 ∧ voiceOut 0xC0000000#32 = 0xBF333333#32 ∧
  (∀ p : Word, voiceOut p = F32.mul 0x3F333333#32 (sinCfg p)) ∧
  ∀ (eps : ℝ) (p : Word), SineAccurate eps →
    |((F32.val (voiceOut p) : ℚ) : ℝ) - 0.7 * Real.sin (2 * Real.pi * p.toNat / 2 ^ 32)|
      ≤ 0.7 * eps + 1 / 2 ^ 24 + 1.2 / 10 ^ 8

/-! Edge detector (45_edge.md) -/

/-- R260, R262, R263: an edge command stores the normalized reading and reports a rise or a fall against the stored
one, and no edge on the first reading; nothing else changes.
The premise on the stored reading is a clause of the invariant; the level as a field is the model's choice (assumption 3). -/
def Obligations.EdgeCommandsCompareAndStore : Prop :=
  ∀ (f : Fields) (s : State) (high : Bool),
    (f.sub = 0 → high = s.gateIn) → (f.sub = 1 → high = !F32.eq s.arg0 posZero) →
    (s.edge.last = posZero ∨ s.edge.last = one32) →
    ((Instr.edgeRising f).wellFormed = true → exec (.edgeRising f) s = .next { s with
      edge := { hasLast := true, last := if high then one32 else posZero }
      result0 := if s.edge.hasLast = true ∧ high = true ∧ s.edge.last = posZero then 1 else 0
      status := { code := .ok, err := s.status.err } }) ∧
    ((Instr.edgeFalling f).wellFormed = true → exec (.edgeFalling f) s = .next { s with
      edge := { hasLast := true, last := if high then one32 else posZero }
      result0 := if s.edge.hasLast = true ∧ high = false ∧ s.edge.last = one32 then 1 else 0
      status := { code := .ok, err := s.status.err } })

/-- R264: two edge commands on the same reading: whichever comes second compares the reading with itself and reports 0. -/
def Obligations.SecondEdgeCommandSeesNoEdge : Prop :=
  ∀ (i j : Instr) (f g : Fields) (s t : State),
    (i = .edgeRising f ∨ i = .edgeFalling f) → (j = .edgeRising g ∨ j = .edgeFalling g) →
    i.wellFormed = true → j.wellFormed = true → exec i s = .next t → gateReading g t = gateReading f s →
    ∃ u : State, exec j t = .next u ∧ u.result0 = 0

/-- R265: over any sequence of readings in ARG0 (SUB = 1), from a detector with no history, EDGE_RISING reports exactly the readings that
rise above the one before, EDGE_FALLING exactly those that fall below it. -/
def Obligations.EdgeSequencesReportTransitions : Prop :=
  ∀ (f : Fields) (readings : List Word) (s : State), s.edge.hasLast = false → f.sub = 1 →
    (Instr.edgeRising f).wellFormed = true →
    let high := readings.map (fun g => !F32.eq g posZero)
    edgeResults (.edgeRising f) readings s =
      (List.range readings.length).map (fun k =>
        if 0 < k ∧ high.getD (k - 1) true = false ∧ high.getD k false = true then 1 else 0) ∧
    edgeResults (.edgeFalling f) readings s =
      (List.range readings.length).map (fun k =>
        if 0 < k ∧ high.getD (k - 1) false = true ∧ high.getD k true = false then 1 else 0)

/-! Arithmetic (00_scope.md) -/

/-- R18: rne32 of a ratio is the nearest finite number, ties to an even fraction, and overflows to infinity exactly
where IEEE rounding does.
The bound 2^128 - 2^103 at which it overflows is the model's reading of IEEE 754 (assumption 15, PRESUMED). -/
def Obligations.RoundingIsNearestEven : Prop :=
  ∀ n d : Nat, 0 < d →
    (F32.isInf (F32.rne32 n d) = true ↔ (2 ^ 128 - 2 ^ 103) * d ≤ n) ∧
    (n < (2 ^ 128 - 2 ^ 103) * d →
      F32.finite (F32.rne32 n d) = true ∧ F32.sign (F32.rne32 n d) = false ∧
      ∀ y : Word, F32.finite y = true →
        |F32.val (F32.rne32 n d) - (n : ℚ) / d| ≤ |F32.val y - (n : ℚ) / d| ∧
        (|F32.val y - (n : ℚ) / d| = |F32.val (F32.rne32 n d) - (n : ℚ) / d| →
          F32.val y = F32.val (F32.rne32 n d) ∨ F32.fracField (F32.rne32 n d) % 2 = 0))

/-- R18: fmul32 is the product rounded to the nearest binary32 number, ties to an even fraction, with the exclusive-or
of the signs. It is a NaN exactly for a NaN operand and for an infinity times a zero, and infinite for any other
infinity and where the product overflows. Which NaN is left out (assumption 11).
The IEEE rules, the bound 2^128 - 2^103 among them, are the model's reading of IEEE 754 (assumption 15, PRESUMED). -/
def Obligations.ProductIsNearestEven : Prop :=
  ∀ a b : Word,
    let r := F32.mul a b
    let e := F32.val a * F32.val b
    (F32.isNaN r = true ↔ F32.isNaN a = true ∨ F32.isNaN b = true ∨
      (F32.isInf a = true ∧ F32.eq b posZero = true) ∨ (F32.eq a posZero = true ∧ F32.isInf b = true)) ∧
    (F32.isNaN r = false → F32.sign r = (F32.sign a != F32.sign b)) ∧
    (F32.isNaN r = false → F32.isInf a = true ∨ F32.isInf b = true → F32.isInf r = true) ∧
    (F32.finite a = true → F32.finite b = true →
      (F32.isInf r = true ↔ 2 ^ 128 - 2 ^ 103 ≤ |e|) ∧
      (|e| < 2 ^ 128 - 2 ^ 103 →
        F32.finite r = true ∧
        ∀ y : Word, F32.finite y = true →
          |F32.val r - e| ≤ |F32.val y - e| ∧
          (|F32.val y - e| = |F32.val r - e| → F32.val y = F32.val r ∨ F32.fracField r % 2 = 0)))
end

