-- ==== Sys2Proof/Laws/Encoding.lean ====
section
/-! SUPPORT. The fields of an encoded word, the opcode map, and the byte lanes of a word. -/

namespace Sys2Proof

/-- OP of an encoded command. -/
theorem opField_encode (i : Instr) : opField (encode i) = opcode i := by
  unfold opField encode
  ext j hj
  simp only [BitVec.getElem_extractLsb', BitVec.getLsbD_append]
  simp [hj]

/-- The fields of an encoded command come back whole (R111). -/
theorem fieldsOf_encode (i : Instr) : fieldsOf (encode i) = i.fields := by
  rcases h : i.fields with ⟨sub, len, lo, hi⟩
  simp only [fieldsOf, encode, h, Fields.mk.injEq]
  refine ⟨?_, ?_, ?_, ?_⟩ <;>
  · ext j hj
    simp only [BitVec.getElem_extractLsb', BitVec.getLsbD_append]
    repeat' split
    all_goals first | omega | (rw [← BitVec.getLsbD_eq_getElem]; congr 1; omega)

/-- The opcode map gives back the command of each OP (R117). -/
theorem commandOf_opcode (i : Instr) : ∃ mk, commandOf (opcode i) = some mk ∧ mk i.fields = i := by
  cases i <;> exact ⟨_, rfl, rfl⟩

/-- No two rows of the opcode map share an OP (R117). -/
theorem opcodeMap_distinct : (opcodeMap.map (·.1)).Nodup := by decide

/-- A command the map selects has that OP and takes the fields it is given. -/
theorem commandOf_some {op : BitVec 8} {mk : Fields → Instr} (h : commandOf op = some mk) (f : Fields) :
    opcode (mk f) = op ∧ (mk f).fields = f := by
  unfold commandOf at h
  rw [Option.map_eq_some_iff] at h
  obtain ⟨row, hrow, rfl⟩ := h
  have hmem := List.mem_of_find?_eq_some hrow
  have heq := List.find?_some hrow
  simp only [beq_iff_eq] at heq
  subst heq
  simp only [opcodeMap, List.cons_append, List.nil_append, List.mem_cons, List.not_mem_nil, or_false] at hmem
  rcases hmem with h | h | h | h | h | h | h | h | h | h | h | h | h | h | h | h | h <;> subst h <;> exact ⟨rfl, rfl⟩

/-- A word is its five fields put together (R111). -/
theorem word_eq_fields (c : Word) :
    (fieldsOf c).rsv31_22 ++ (fieldsOf c).len ++ (fieldsOf c).rsv15_12 ++ (fieldsOf c).sub ++ opField c = c := by
  ext j hj
  simp only [fieldsOf, opField, BitVec.getElem_append, BitVec.getElem_extractLsb']
  repeat' split
  all_goals first | omega | (rw [← BitVec.getLsbD_eq_getElem]; congr 1; omega)

/-- A word is its four byte lanes put together (R72). -/
theorem wordOfLanes_laneOf (w : Word) : wordOfLanes (laneOf w 0) (laneOf w 1) (laneOf w 2) (laneOf w 3) = w := by
  apply BitVec.eq_of_getLsbD_eq
  intro j hj
  simp only [wordOfLanes, laneOf, BitVec.getLsbD_append, BitVec.getLsbD_extractLsb']
  have hcases : j < 8 ∨ (8 ≤ j ∧ j < 16) ∨ (16 ≤ j ∧ j < 24) ∨ (24 ≤ j ∧ j < 32) := by omega
  rcases hcases with h | ⟨h, h'⟩ | ⟨h, h'⟩ | ⟨h, h'⟩
  · simp [h]
  · simp [show ¬j < 8 by omega, show j - 8 < 8 by omega, show 8 + (j - 8) = j by omega]
  · simp [show ¬j < 8 by omega, show ¬j - 8 < 8 by omega, show j - 8 - 8 < 8 by omega,
      show 16 + (j - 8 - 8) = j by omega]
  · simp [show ¬j < 8 by omega, show ¬j - 8 < 8 by omega, show ¬j - 8 - 8 < 8 by omega,
      show j - 8 - 8 - 8 < 8 by omega, show 24 + (j - 8 - 8 - 8) = j by omega]

/-- Decoding the four lanes of a word is decoding the word. -/
theorem decodeBytes_lanes (w : Word) (rest : List Byte) :
    decodeBytes (laneOf w 0 :: laneOf w 1 :: laneOf w 2 :: laneOf w 3 :: rest) = (decode w).map (·, rest) := by
  simp [decodeBytes, wordOfLanes_laneOf]

end Sys2Proof
end

