-- ==== Sys2Proof/Laws/State.lean ====
section
/-! SUPPORT. One lemma for each field and each shared update of the state, true by definition. -/

namespace Sys2Proof.Machine

section
variable (x : StatusCode) (s : State)
@[simp] theorem complete_status : (complete x s).status = statusAfter x s.status := rfl
@[simp] theorem complete_cmd : (complete x s).cmd = s.cmd := rfl
@[simp] theorem complete_arg0 : (complete x s).arg0 = s.arg0 := rfl
@[simp] theorem complete_result0 : (complete x s).result0 = s.result0 := rfl
@[simp] theorem complete_result1 : (complete x s).result1 = s.result1 := rfl
@[simp] theorem complete_window : (complete x s).window = s.window := rfl
@[simp] theorem complete_inBlk : (complete x s).inBlk = s.inBlk := rfl
@[simp] theorem complete_zc : (complete x s).zc = s.zc := rfl
@[simp] theorem complete_snap : (complete x s).snap = s.snap := rfl
@[simp] theorem complete_spec : (complete x s).spec = s.spec := rfl
@[simp] theorem complete_edge : (complete x s).edge = s.edge := rfl
@[simp] theorem complete_osc : (complete x s).osc = s.osc := rfl
@[simp] theorem complete_qthr : (complete x s).qthr = s.qthr := rfl
@[simp] theorem complete_qremap : (complete x s).qremap = s.qremap := rfl
@[simp] theorem complete_outBlk : (complete x s).outBlk = s.outBlk := rfl
@[simp] theorem complete_gateIn : (complete x s).gateIn = s.gateIn := rfl
@[simp] theorem complete_pending : (complete x s).pending = s.pending := rfl
@[simp] theorem complete_response : (complete x s).response = s.response := rfl
end

section
variable (r0 r1 : Word) (s : State)
@[simp] theorem setResults_status : (setResults r0 r1 s).status = s.status := rfl
@[simp] theorem setResults_cmd : (setResults r0 r1 s).cmd = s.cmd := rfl
@[simp] theorem setResults_arg0 : (setResults r0 r1 s).arg0 = s.arg0 := rfl
@[simp] theorem setResults_result0 : (setResults r0 r1 s).result0 = r0 := rfl
@[simp] theorem setResults_result1 : (setResults r0 r1 s).result1 = r1 := rfl
@[simp] theorem setResults_window : (setResults r0 r1 s).window = s.window := rfl
@[simp] theorem setResults_inBlk : (setResults r0 r1 s).inBlk = s.inBlk := rfl
@[simp] theorem setResults_zc : (setResults r0 r1 s).zc = s.zc := rfl
@[simp] theorem setResults_snap : (setResults r0 r1 s).snap = s.snap := rfl
@[simp] theorem setResults_spec : (setResults r0 r1 s).spec = s.spec := rfl
@[simp] theorem setResults_edge : (setResults r0 r1 s).edge = s.edge := rfl
@[simp] theorem setResults_osc : (setResults r0 r1 s).osc = s.osc := rfl
@[simp] theorem setResults_qthr : (setResults r0 r1 s).qthr = s.qthr := rfl
@[simp] theorem setResults_qremap : (setResults r0 r1 s).qremap = s.qremap := rfl
@[simp] theorem setResults_outBlk : (setResults r0 r1 s).outBlk = s.outBlk := rfl
@[simp] theorem setResults_gateIn : (setResults r0 r1 s).gateIn = s.gateIn := rfl
@[simp] theorem setResults_pending : (setResults r0 r1 s).pending = s.pending := rfl
@[simp] theorem setResults_response : (setResults r0 r1 s).response = s.response := rfl
end

section
variable (r0 : Word) (s : State)
@[simp] theorem setResult0_status : (setResult0 r0 s).status = s.status := rfl
@[simp] theorem setResult0_cmd : (setResult0 r0 s).cmd = s.cmd := rfl
@[simp] theorem setResult0_arg0 : (setResult0 r0 s).arg0 = s.arg0 := rfl
@[simp] theorem setResult0_result0 : (setResult0 r0 s).result0 = r0 := rfl
@[simp] theorem setResult0_result1 : (setResult0 r0 s).result1 = s.result1 := rfl
@[simp] theorem setResult0_window : (setResult0 r0 s).window = s.window := rfl
@[simp] theorem setResult0_inBlk : (setResult0 r0 s).inBlk = s.inBlk := rfl
@[simp] theorem setResult0_zc : (setResult0 r0 s).zc = s.zc := rfl
@[simp] theorem setResult0_snap : (setResult0 r0 s).snap = s.snap := rfl
@[simp] theorem setResult0_spec : (setResult0 r0 s).spec = s.spec := rfl
@[simp] theorem setResult0_edge : (setResult0 r0 s).edge = s.edge := rfl
@[simp] theorem setResult0_osc : (setResult0 r0 s).osc = s.osc := rfl
@[simp] theorem setResult0_qthr : (setResult0 r0 s).qthr = s.qthr := rfl
@[simp] theorem setResult0_qremap : (setResult0 r0 s).qremap = s.qremap := rfl
@[simp] theorem setResult0_outBlk : (setResult0 r0 s).outBlk = s.outBlk := rfl
@[simp] theorem setResult0_gateIn : (setResult0 r0 s).gateIn = s.gateIn := rfl
@[simp] theorem setResult0_pending : (setResult0 r0 s).pending = s.pending := rfl
@[simp] theorem setResult0_response : (setResult0 r0 s).response = s.response := rfl
end

section
variable (s : State)
@[simp] theorem applyReset_status : (applyReset s).status = State.reset.status := rfl
@[simp] theorem applyReset_cmd : (applyReset s).cmd = State.reset.cmd := rfl
@[simp] theorem applyReset_arg0 : (applyReset s).arg0 = State.reset.arg0 := rfl
@[simp] theorem applyReset_result0 : (applyReset s).result0 = State.reset.result0 := rfl
@[simp] theorem applyReset_result1 : (applyReset s).result1 = State.reset.result1 := rfl
@[simp] theorem applyReset_window : (applyReset s).window = State.reset.window := rfl
@[simp] theorem applyReset_inBlk : (applyReset s).inBlk = State.reset.inBlk := rfl
@[simp] theorem applyReset_zc : (applyReset s).zc = State.reset.zc := rfl
@[simp] theorem applyReset_snap : (applyReset s).snap = State.reset.snap := rfl
@[simp] theorem applyReset_spec : (applyReset s).spec = State.reset.spec := rfl
@[simp] theorem applyReset_edge : (applyReset s).edge = State.reset.edge := rfl
@[simp] theorem applyReset_osc : (applyReset s).osc = State.reset.osc := rfl
@[simp] theorem applyReset_qthr : (applyReset s).qthr = State.reset.qthr := rfl
@[simp] theorem applyReset_qremap : (applyReset s).qremap = State.reset.qremap := rfl
@[simp] theorem applyReset_outBlk : (applyReset s).outBlk = State.reset.outBlk := rfl
@[simp] theorem applyReset_gateIn : (applyReset s).gateIn = s.gateIn := rfl
@[simp] theorem applyReset_pending : (applyReset s).pending = s.pending := rfl
@[simp] theorem applyReset_response : (applyReset s).response = s.response := rfl
end

@[simp] theorem statusAfter_code (x : StatusCode) (s : Status) : (statusAfter x s).code = x := rfl
@[simp] theorem statusAfter_ok (s : Status) : statusAfter .ok s = { code := .ok, err := s.err } := rfl

/-- A code other than OK sets ERR (R291). -/
theorem statusAfter_error {x : StatusCode} (h : x ≠ .ok) (s : Status) : statusAfter x s = { code := x, err := true } := by
  simp [statusAfter, h]

/-- Ending a command changes STATUS only (R291). -/
theorem complete_frame (x : StatusCode) (s : State) : { complete x s with status := s.status } = s := rfl

@[simp] theorem setResults_spec_frame (r0 r1 : Word) (s : State) :
    { setResults r0 r1 s with result0 := s.result0, result1 := s.result1 } = s := rfl

@[simp] theorem bufFill_complete (x : StatusCode) (s : State) : bufFill (complete x s) = bufFill s := rfl
@[simp] theorem bufFill_reset : bufFill State.reset = 0 := rfl

end Sys2Proof.Machine
end

