-- ==== Sys2Proof/Laws/Fields.lean ====
section
/-! SUPPORT. The field check each command makes is the well-formedness of R117, and what an ill-formed command does. -/

namespace Sys2Proof.Machine

@[simp] theorem blkMax_eq : Config.blkMax = 48 := rfl
@[simp] theorem specLmax_eq : Config.specLmax = 12 := by decide
@[simp] theorem bufCap_eq : Config.bufCap = 4096 := rfl
@[simp] theorem snapLen_eq : Config.snapLen = 48 := rfl
@[simp] theorem params_bufCap : Config.params.bufCap = Config.bufCap := rfl
@[simp] theorem params_sampleRate : Config.params.sampleRate = Config.sampleRate := rfl
@[simp] theorem params_amp : Config.params.amp = Config.amp := rfl
@[simp] theorem params_ratio : Config.params.ratio = Config.ratio := rfl
@[simp] theorem params_qthrReset : Config.params.qthrReset = Config.qthrReset := rfl
@[simp] theorem params_qremapReset : Config.params.qremapReset = Config.qremapReset := rfl
@[simp] theorem params_sinFree : Config.params.sinFree = Config.sinFree := rfl
@[simp] theorem params_specMagFree : Config.params.specMagFree = Config.specMagFree := rfl
@[simp] theorem params_base : Config.params.base = Config.base := rfl
@[simp] theorem params_specLmax : Config.params.specLmax = Config.specLmax := rfl

/-- The field check, part by part (R110, R117). -/
theorem fieldsLegal_iff (maxSub minLen maxLen : Nat) (f : Fields) :
    fieldsLegal maxSub minLen maxLen f = true ↔
      f.rsv15_12 = 0 ∧ f.rsv31_22 = 0 ∧ f.sub.toNat ≤ maxSub ∧ minLen ≤ f.len.toNat ∧ f.len.toNat ≤ maxLen := by
  simp [fieldsLegal, and_assoc]

/-- Well-formedness, part by part (R111, R117), where SPEC_LMAX is `lmax`. -/
theorem wellFormedFor_iff (lmax : Nat) (i : Instr) :
    i.wellFormedFor lmax = true ↔ i.fields.rsv15_12 = 0 ∧ i.fields.rsv31_22 = 0 ∧ i.fields.sub.toNat ≤ i.maxSub ∧
      (i.lenRange lmax).1 ≤ i.fields.len.toNat ∧ i.fields.len.toNat ≤ (i.lenRange lmax).2 := by
  simp [Instr.wellFormedFor, and_assoc]

/-- Well-formedness on this hardware, part by part (R111, R117). -/
theorem wellFormed_iff (i : Instr) :
    i.wellFormed = true ↔ i.fields.rsv15_12 = 0 ∧ i.fields.rsv31_22 = 0 ∧ i.fields.sub.toNat ≤ i.maxSub ∧
      (i.lenRange 12).1 ≤ i.fields.len.toNat ∧ i.fields.len.toNat ≤ (i.lenRange 12).2 :=
  wellFormedFor_iff 12 i

theorem wellFormed_nop (f : Fields) : (Instr.nop f).wellFormed = noFields f := by
  rw [Bool.eq_iff_iff, wellFormed_iff, noFields, fieldsLegal_iff]
  rfl

theorem wellFormed_softReset (f : Fields) : (Instr.softReset f).wellFormed = noFields f := by
  rw [Bool.eq_iff_iff, wellFormed_iff, noFields, fieldsLegal_iff]
  rfl

theorem wellFormed_bufAppend (f : Fields) : (Instr.bufAppend f).wellFormed = blockFields f := by
  rw [Bool.eq_iff_iff, wellFormed_iff, blockFields, fieldsLegal_iff]
  rfl

theorem wellFormed_bufIsFull (f : Fields) : (Instr.bufIsFull f).wellFormed = noFields f := by
  rw [Bool.eq_iff_iff, wellFormed_iff, noFields, fieldsLegal_iff]
  rfl

theorem wellFormed_zcProcess (f : Fields) : (Instr.zcProcess f).wellFormed = blockFields f := by
  rw [Bool.eq_iff_iff, wellFormed_iff, blockFields, fieldsLegal_iff]
  rfl

theorem wellFormed_zcReset (f : Fields) : (Instr.zcReset f).wellFormed = noFields f := by
  rw [Bool.eq_iff_iff, wellFormed_iff, noFields, fieldsLegal_iff]
  rfl

theorem wellFormed_snapStart (f : Fields) : (Instr.snapStart f).wellFormed = noFields f := by
  rw [Bool.eq_iff_iff, wellFormed_iff, noFields, fieldsLegal_iff]
  rfl

theorem wellFormed_snapCheck (f : Fields) : (Instr.snapCheck f).wellFormed = noFields f := by
  rw [Bool.eq_iff_iff, wellFormed_iff, noFields, fieldsLegal_iff]
  rfl

theorem wellFormed_snapComplete (f : Fields) : (Instr.snapComplete f).wellFormed = noFields f := by
  rw [Bool.eq_iff_iff, wellFormed_iff, noFields, fieldsLegal_iff]
  rfl

theorem wellFormed_specEstimate (f : Fields) : (Instr.specEstimate f).wellFormed = spectralFields f := by
  rw [Bool.eq_iff_iff, wellFormed_iff, spectralFields, spectralFieldsFor, fieldsLegal_iff, specLmax_eq]
  rfl

theorem wellFormed_quantRemap (f : Fields) : (Instr.quantRemap f).wellFormed = noFields f := by
  rw [Bool.eq_iff_iff, wellFormed_iff, noFields, fieldsLegal_iff]
  rfl

theorem wellFormed_quantCheck (f : Fields) : (Instr.quantCheck f).wellFormed = noFields f := by
  rw [Bool.eq_iff_iff, wellFormed_iff, noFields, fieldsLegal_iff]
  rfl

theorem wellFormed_oscStart (f : Fields) : (Instr.oscStart f).wellFormed = freqFields f := by
  rw [Bool.eq_iff_iff, wellFormed_iff, freqFields, fieldsLegal_iff]
  rfl

theorem wellFormed_oscSetFreq (f : Fields) : (Instr.oscSetFreq f).wellFormed = freqFields f := by
  rw [Bool.eq_iff_iff, wellFormed_iff, freqFields, fieldsLegal_iff]
  rfl

theorem wellFormed_oscProcess (f : Fields) : (Instr.oscProcess f).wellFormed = blockFields f := by
  rw [Bool.eq_iff_iff, wellFormed_iff, blockFields, fieldsLegal_iff]
  rfl

theorem wellFormed_edgeRising (f : Fields) : (Instr.edgeRising f).wellFormed = gateFields f := by
  rw [Bool.eq_iff_iff, wellFormed_iff, gateFields, fieldsLegal_iff]
  rfl

theorem wellFormed_edgeFalling (f : Fields) : (Instr.edgeFalling f).wellFormed = gateFields f := by
  rw [Bool.eq_iff_iff, wellFormed_iff, gateFields, fieldsLegal_iff]
  rfl

/-- The block length of a legal block command is 1 to 48 (R117). -/
theorem len_of_blockFields {f : Fields} (h : blockFields f = true) : 1 ≤ f.len.toNat ∧ f.len.toNat ≤ 48 := by
  have := (fieldsLegal_iff _ _ _ _).1 h
  exact ⟨this.2.2.2.1, this.2.2.2.2⟩

/-- The L of a legal SPEC_ESTIMATE is 1 to 12 (R117). -/
theorem len_of_spectralFields {f : Fields} (h : spectralFields f = true) : 1 ≤ f.len.toNat ∧ f.len.toNat ≤ 12 := by
  have := (fieldsLegal_iff _ _ _ _).1 h
  simp only [specLmax_eq] at this
  exact ⟨this.2.2.2.1, this.2.2.2.2⟩

/-- The selector of a legal oscillator command is 0, 1 or 2 (R117). -/
theorem sub_of_freqFields {f : Fields} (h : freqFields f = true) : f.sub = 0 ∨ f.sub = 1 ∨ f.sub = 2 := by
  have h2 := ((fieldsLegal_iff _ _ _ _).1 h).2.2.1
  have : f.sub.toNat = 0 ∨ f.sub.toNat = 1 ∨ f.sub.toNat = 2 := by omega
  rcases this with h | h | h
  · exact .inl (BitVec.eq_of_toNat_eq h)
  · exact .inr (.inl (BitVec.eq_of_toNat_eq h))
  · exact .inr (.inr (BitVec.eq_of_toNat_eq h))

/-- The selector of a legal edge command is 0 or 1 (R117). -/
theorem sub_of_gateFields {f : Fields} (h : gateFields f = true) : f.sub = 0 ∨ f.sub = 1 := by
  have h2 := ((fieldsLegal_iff _ _ _ _).1 h).2.2.1
  have : f.sub.toNat = 0 ∨ f.sub.toNat = 1 := by omega
  rcases this with h | h
  · exact .inl (BitVec.eq_of_toNat_eq h)
  · exact .inr (BitVec.eq_of_toNat_eq h)

/-- The samples of a block command are exactly LEN words (R39, R112). -/
theorem sampleBlock_length {f : Fields} (h : f.len.toNat ≤ 48) (s : State) : (sampleBlock f s).length = f.len.toNat := by
  simp [sampleBlock, h]

/-- Sample j of a block is IN_BLK[j] (R39). -/
theorem sampleBlock_getElem {f : Fields} {s : State} {j : Nat} (h : j < (sampleBlock f s).length) :
    (sampleBlock f s)[j] = s.inBlk[j]'(by simp [sampleBlock] at h; omega) := by
  simp [sampleBlock]

end Sys2Proof.Machine
end

