-- ==== Sys2Proof/Laws/Exec.lean ====
section
/-! SUPPORT. What each meaning answers, case by case; later proofs cite these and never unfold a meaning. -/

namespace Sys2Proof.Machine

/-! What the parametric operations are on this hardware -/

theorem voiceOut_eq : voiceOutFor Config.params = voiceOut := rfl

/-! SPEC_ESTIMATE in a block with any parameters -/

section
variable {P : Params} {f : Fields} {s : State}

theorem execSpecEstimateFor_badField (h : spectralFieldsFor P.specLmax f = false) :
    execSpecEstimateFor P f s = .next (complete .badField s) := by
  simp [execSpecEstimateFor, h]

theorem execSpecEstimateFor_short (h : spectralFieldsFor P.specLmax f = true) (hn : bufFill s < 2 ^ f.len.toNat) :
    execSpecEstimateFor P f s = .next (complete .insufficientHistory s) := by
  simp [execSpecEstimateFor, h, hn]

theorem execSpecEstimateFor_badArg (h : spectralFieldsFor P.specLmax f = true) (hn : 2 ^ f.len.toNat ≤ bufFill s)
    (hx : (recentSamples (2 ^ f.len.toNat) s.window).all F32.finite = false) :
    execSpecEstimateFor P f s = .next (complete .badArg s) := by
  simp only [execSpecEstimateFor, h, hx, Nat.not_lt.2 hn, Bool.not_true, Bool.not_false, if_true, if_false,
    Bool.false_eq_true]

theorem execSpecEstimateFor_ok (h : spectralFieldsFor P.specLmax f = true) (hn : 2 ^ f.len.toNat ≤ bufFill s)
    (hx : (recentSamples (2 ^ f.len.toNat) s.window).all F32.finite = true) {n best : Nat} {freq : Word}
    (hN : n = 2 ^ f.len.toNat)
    (hb : best = peakBin (specMagFor P.specMagFree n (recentSamples n s.window)) (n / 2))
    (hf : freq = binFreq P.sampleRate n best) :
    execSpecEstimateFor P f s = .next (complete .ok
      (setResults freq (u32 best) { s with spec := { freq := freq, bin := u32 best } })) := by
  subst hf hb hN
  simp only [execSpecEstimateFor, h, hx, Nat.not_lt.2 hn, Bool.not_true, if_false, Bool.false_eq_true]

end

section
variable {f : Fields} {s : State}

theorem exec_nop_badField (h : noFields f = false) : exec (.nop f) s = .next (complete .badField s) := by
  simp [exec, execNop, h]

theorem exec_nop (h : noFields f = true) :
    exec (.nop f) s = .next (complete .ok s) := by
  simp [exec, execNop, h]

theorem exec_softReset_badField (h : noFields f = false) : exec (.softReset f) s = .next (complete .badField s) := by
  simp [exec, execSoftReset, execSoftResetFor, h]

theorem exec_softReset (h : noFields f = true) :
    exec (.softReset f) s = .next (complete .ok { applyReset s with cmd := softResetWord }) := by
  simp [exec, execSoftReset, execSoftResetFor, applyReset, h]

theorem exec_bufAppend_badField (h : blockFields f = false) : exec (.bufAppend f) s = .next (complete .badField s) := by
  simp [exec, execBufAppend, execBufAppendFor, h]

theorem exec_bufAppend (h : blockFields f = true) :
    exec (.bufAppend f) s = .next (complete .ok { s with window := appendWindow Config.bufCap s.window (sampleBlock f s) }) := by
  simp [exec, execBufAppend, execBufAppendFor, h]

theorem exec_bufIsFull_badField (h : noFields f = false) : exec (.bufIsFull f) s = .next (complete .badField s) := by
  simp [exec, execBufIsFull, execBufIsFullFor, h]

theorem exec_bufIsFull (h : noFields f = true) :
    exec (.bufIsFull f) s = .next (complete .ok (setResult0 (flagWord (bufFill s == Config.bufCap)) s)) := by
  simp [exec, execBufIsFull, execBufIsFullFor, h]

theorem exec_zcProcess_badField (h : blockFields f = false) : exec (.zcProcess f) s = .next (complete .badField s) := by
  simp [exec, execZcProcess, execZcProcessFor, h]

theorem exec_zcProcess (h : blockFields f = true) :
    exec (.zcProcess f) s = .next (complete .ok (setResults (zcScan Config.sampleRate (s.zc, 0) (sampleBlock f s)).1.freq
        (zcScan Config.sampleRate (s.zc, 0) (sampleBlock f s)).2
        { s with zc := (zcScan Config.sampleRate (s.zc, 0) (sampleBlock f s)).1,
                 snap := snapCapture (sampleBlock f s) s.snap })) := by
  simp [exec, execZcProcess, execZcProcessFor, h]

theorem exec_zcReset_badField (h : noFields f = false) : exec (.zcReset f) s = .next (complete .badField s) := by
  simp [exec, execZcReset, h]

theorem exec_zcReset (h : noFields f = true) :
    exec (.zcReset f) s = .next (complete .ok { s with zc := ZcState.cleared }) := by
  simp [exec, execZcReset, h]

theorem exec_snapStart_badField (h : noFields f = false) : exec (.snapStart f) s = .next (complete .badField s) := by
  simp [exec, execSnapStart, h]

theorem exec_snapStart (h : noFields f = true) :
    exec (.snapStart f) s = .next (complete .ok { s with snap := { s.snap with armed := true } }) := by
  simp [exec, execSnapStart, h]

theorem exec_snapCheck_badField (h : noFields f = false) : exec (.snapCheck f) s = .next (complete .badField s) := by
  simp [exec, execSnapCheck, h]

theorem exec_snapCheck (h : noFields f = true) :
    exec (.snapCheck f) s = .next (complete .ok (setResults (flagWord s.snap.ready) (flagWord s.snap.armed) s)) := by
  simp [exec, execSnapCheck, h]

theorem exec_snapComplete_badField (h : noFields f = false) : exec (.snapComplete f) s = .next (complete .badField s) := by
  simp [exec, execSnapComplete, h]

theorem exec_snapComplete (h : noFields f = true) :
    exec (.snapComplete f) s = .next (complete .ok { s with snap := { s.snap with ready := false } }) := by
  simp [exec, execSnapComplete, h]

theorem exec_specEstimate_badField (h : spectralFields f = false) : exec (.specEstimate f) s = .next (complete .badField s) :=
  execSpecEstimateFor_badField (P := Config.params) h

theorem exec_quantRemap_badField (h : noFields f = false) : exec (.quantRemap f) s = .next (complete .badField s) := by
  simp [exec, execQuantRemap, h]

theorem exec_quantCheck_badField (h : noFields f = false) : exec (.quantCheck f) s = .next (complete .badField s) := by
  simp [exec, execQuantCheck, h]

theorem exec_quantCheck (h : noFields f = true) :
    exec (.quantCheck f) s = .next (complete .ok (setResults (flagWord (firstUnordered s.qthr == 16)) (u32 (firstUnordered s.qthr)) s)) := by
  simp [exec, execQuantCheck, h]

theorem exec_oscStart_badField (h : freqFields f = false) : exec (.oscStart f) s = .next (complete .badField s) := by
  simp [exec, execOscStart, execOscStartFor, h]

theorem exec_oscSetFreq_badField (h : freqFields f = false) : exec (.oscSetFreq f) s = .next (complete .badField s) := by
  simp [exec, execOscSetFreq, execOscSetFreqFor, h]

theorem exec_oscProcess_badField (h : blockFields f = false) : exec (.oscProcess f) s = .next (complete .badField s) := by
  simp [exec, execOscProcess, execOscProcessFor, h]

theorem exec_edgeRising_badField (h : gateFields f = false) : exec (.edgeRising f) s = .next (complete .badField s) := by
  simp [exec, execEdgeRising, h]

theorem exec_edgeRising (h : gateFields f = true) :
    exec (.edgeRising f) s = .next (complete .ok (storeReading (gateReading f s) (F32.lt s.edge.last (gateReading f s)) s)) := by
  simp [exec, execEdgeRising, h]

theorem exec_edgeFalling_badField (h : gateFields f = false) : exec (.edgeFalling f) s = .next (complete .badField s) := by
  simp [exec, execEdgeFalling, h]

theorem exec_edgeFalling (h : gateFields f = true) :
    exec (.edgeFalling f) s = .next (complete .ok (storeReading (gateReading f s) (F32.lt (gateReading f s) s.edge.last) s)) := by
  simp [exec, execEdgeFalling, h]

theorem exec_quantRemap_match (h : noFields f = true) {i : Fin 16} (hi : toneOf s.qthr s.arg0 = some i) :
    exec (.quantRemap f) s = .next (complete .ok (setResults s.qremap[i.val] (u32 i) s)) := by
  simp [exec, execQuantRemap, h, hi]

theorem exec_quantRemap_noMatch (h : noFields f = true) (hi : toneOf s.qthr s.arg0 = none) :
    exec (.quantRemap f) s = .next (complete .noMatch (setResults s.qremap[0] 0 s)) := by
  simp [exec, execQuantRemap, h, hi, u32]

theorem exec_specEstimate_short (h : spectralFields f = true) (hn : bufFill s < 2 ^ f.len.toNat) :
    exec (.specEstimate f) s = .next (complete .insufficientHistory s) :=
  execSpecEstimateFor_short (P := Config.params) h hn

theorem exec_specEstimate_badArg (h : spectralFields f = true) (hn : 2 ^ f.len.toNat ≤ bufFill s)
    (hx : (recentSamples (2 ^ f.len.toNat) s.window).all F32.finite = false) :
    exec (.specEstimate f) s = .next (complete .badArg s) :=
  execSpecEstimateFor_badArg (P := Config.params) h hn hx

theorem exec_specEstimate (h : spectralFields f = true) (hn : 2 ^ f.len.toNat ≤ bufFill s)
    (hx : (recentSamples (2 ^ f.len.toNat) s.window).all F32.finite = true) {n best : Nat} {freq : Word}
    (hN : n = 2 ^ f.len.toNat) (hb : best = peakBin (specMag n (recentSamples n s.window)) (n / 2))
    (hf : freq = binFreq Config.sampleRate n best) :
    exec (.specEstimate f) s = .next (complete .ok
      (setResults freq (u32 best) { s with spec := { freq := freq, bin := u32 best } })) :=
  execSpecEstimateFor_ok (P := Config.params) h hn hx hN hb hf

theorem exec_oscStart_badArg (h : freqFields f = true) (ht : tune Config.ratio Config.sampleRate (selectFreq f s) = none) :
    exec (.oscStart f) s = .next (complete .badArg s) := by
  simp [exec, execOscStart, execOscStartFor, h, ht]

theorem exec_oscStart (h : freqFields f = true) {t : Tuning}
    (ht : tune Config.ratio Config.sampleRate (selectFreq f s) = some t) :
    exec (.oscStart f) s = .next (complete .ok { s with osc :=
      { started := true, fund := selectFreq f s, freq := t.freq, inc := t.inc, phase := Vector.replicate 4 0 } }) := by
  simp [exec, execOscStart, execOscStartFor, h, ht]

theorem exec_oscSetFreq_notStarted (h : freqFields f = true) (hs : s.osc.started = false) :
    exec (.oscSetFreq f) s = .next (complete .notStarted s) := by
  simp [exec, execOscSetFreq, execOscSetFreqFor, h, hs]

theorem exec_oscSetFreq_badArg (h : freqFields f = true) (hs : s.osc.started = true)
    (ht : tune Config.ratio Config.sampleRate (selectFreq f s) = none) :
    exec (.oscSetFreq f) s = .next (complete .badArg s) := by
  simp [exec, execOscSetFreq, execOscSetFreqFor, h, hs, ht]

theorem exec_oscSetFreq (h : freqFields f = true) (hs : s.osc.started = true) {t : Tuning}
    (ht : tune Config.ratio Config.sampleRate (selectFreq f s) = some t) :
    exec (.oscSetFreq f) s = .next (complete .ok { s with osc :=
      { s.osc with fund := selectFreq f s, freq := t.freq, inc := t.inc } }) := by
  simp [exec, execOscSetFreq, execOscSetFreqFor, h, hs, ht]

theorem exec_oscProcess_notStarted (h : blockFields f = true) (hs : s.osc.started = false) :
    exec (.oscProcess f) s = .next (complete .notStarted s) := by
  simp [exec, execOscProcess, execOscProcessFor, h, hs]

theorem exec_oscProcess (h : blockFields f = true) (hs : s.osc.started = true) {b : BankOut}
    (hb : b = runBank voiceOut s.osc.inc f.len.toNat { phase := s.osc.phase, out := s.outBlk }) :
    exec (.oscProcess f) s = .next (complete .ok { s with osc := { s.osc with phase := b.phase }, outBlk := b.out }) := by
  subst hb
  simp [exec, execOscProcess, execOscProcessFor, voiceOut_eq, h, hs]

end

/-- Everything a command can do: it ends with one of the seven codes, and what it wrote before that is one of these. -/
theorem exec_cases (i : Instr) (s : State) :
    (i.wellFormed = false ∧ exec i s = .next (complete .badField s)) ∨
    (i.wellFormed = true ∧ ∃ x u, exec i s = .next (complete x u) ∧
      (u.pending = s.pending ∧ u.gateIn = s.gateIn ∧ u.response = s.response) ∧
      ((u = s ∧ (x = .badArg ∨ x = .notStarted ∨ x = .insufficientHistory)) ∨
       (x = .noMatch ∧ (∃ f, i = .quantRemap f) ∧ u = setResults s.qremap[0] 0 s) ∨
       x = .ok)) := by
  cases i with
  | nop f =>
    rw [wellFormed_nop]
    cases h : noFields f with
    | false => exact .inl ⟨rfl, exec_nop_badField h⟩
    | true =>
      exact .inr ⟨rfl, _, _, exec_nop h, ⟨rfl, rfl, rfl⟩, .inr (.inr rfl)⟩
  | softReset f =>
    rw [wellFormed_softReset]
    cases h : noFields f with
    | false => exact .inl ⟨rfl, exec_softReset_badField h⟩
    | true =>
      exact .inr ⟨rfl, _, _, exec_softReset h, ⟨rfl, rfl, rfl⟩, .inr (.inr rfl)⟩
  | bufAppend f =>
    rw [wellFormed_bufAppend]
    cases h : blockFields f with
    | false => exact .inl ⟨rfl, exec_bufAppend_badField h⟩
    | true =>
      exact .inr ⟨rfl, _, _, exec_bufAppend h, ⟨rfl, rfl, rfl⟩, .inr (.inr rfl)⟩
  | bufIsFull f =>
    rw [wellFormed_bufIsFull]
    cases h : noFields f with
    | false => exact .inl ⟨rfl, exec_bufIsFull_badField h⟩
    | true =>
      exact .inr ⟨rfl, _, _, exec_bufIsFull h, ⟨rfl, rfl, rfl⟩, .inr (.inr rfl)⟩
  | zcProcess f =>
    rw [wellFormed_zcProcess]
    cases h : blockFields f with
    | false => exact .inl ⟨rfl, exec_zcProcess_badField h⟩
    | true =>
      exact .inr ⟨rfl, _, _, exec_zcProcess h, ⟨rfl, rfl, rfl⟩, .inr (.inr rfl)⟩
  | zcReset f =>
    rw [wellFormed_zcReset]
    cases h : noFields f with
    | false => exact .inl ⟨rfl, exec_zcReset_badField h⟩
    | true =>
      exact .inr ⟨rfl, _, _, exec_zcReset h, ⟨rfl, rfl, rfl⟩, .inr (.inr rfl)⟩
  | snapStart f =>
    rw [wellFormed_snapStart]
    cases h : noFields f with
    | false => exact .inl ⟨rfl, exec_snapStart_badField h⟩
    | true =>
      exact .inr ⟨rfl, _, _, exec_snapStart h, ⟨rfl, rfl, rfl⟩, .inr (.inr rfl)⟩
  | snapCheck f =>
    rw [wellFormed_snapCheck]
    cases h : noFields f with
    | false => exact .inl ⟨rfl, exec_snapCheck_badField h⟩
    | true =>
      exact .inr ⟨rfl, _, _, exec_snapCheck h, ⟨rfl, rfl, rfl⟩, .inr (.inr rfl)⟩
  | snapComplete f =>
    rw [wellFormed_snapComplete]
    cases h : noFields f with
    | false => exact .inl ⟨rfl, exec_snapComplete_badField h⟩
    | true =>
      exact .inr ⟨rfl, _, _, exec_snapComplete h, ⟨rfl, rfl, rfl⟩, .inr (.inr rfl)⟩
  | specEstimate f =>
    rw [wellFormed_specEstimate]
    cases h : spectralFields f with
    | false => exact .inl ⟨rfl, exec_specEstimate_badField h⟩
    | true =>
      refine .inr ⟨rfl, ?_⟩
      by_cases hn : 2 ^ f.len.toNat ≤ bufFill s
      · cases hx : (recentSamples (2 ^ f.len.toNat) s.window).all F32.finite with
        | false => exact ⟨_, _, exec_specEstimate_badArg h hn hx, ⟨rfl, rfl, rfl⟩, .inl ⟨rfl, .inl rfl⟩⟩
        | true =>
          obtain ⟨n, hN⟩ : ∃ n, n = 2 ^ f.len.toNat := ⟨_, rfl⟩
          obtain ⟨best, hb⟩ : ∃ b, b = peakBin (specMag n (recentSamples n s.window)) (n / 2) := ⟨_, rfl⟩
          obtain ⟨freq, hf⟩ : ∃ q, q = binFreq Config.sampleRate n best := ⟨_, rfl⟩
          exact ⟨_, _, exec_specEstimate h hn hx hN hb hf, ⟨rfl, rfl, rfl⟩, .inr (.inr rfl)⟩
      · exact ⟨_, _, exec_specEstimate_short h (Nat.lt_of_not_le hn), ⟨rfl, rfl, rfl⟩, .inl ⟨rfl, .inr (.inr rfl)⟩⟩
  | quantRemap f =>
    rw [wellFormed_quantRemap]
    cases h : noFields f with
    | false => exact .inl ⟨rfl, exec_quantRemap_badField h⟩
    | true =>
      refine .inr ⟨rfl, ?_⟩
      cases ht : toneOf s.qthr s.arg0 with
      | none => exact ⟨_, _, exec_quantRemap_noMatch h ht, ⟨rfl, rfl, rfl⟩, .inr (.inl ⟨rfl, ⟨f, rfl⟩, rfl⟩)⟩
      | some t => exact ⟨_, _, exec_quantRemap_match h ht, ⟨rfl, rfl, rfl⟩, .inr (.inr rfl)⟩
  | quantCheck f =>
    rw [wellFormed_quantCheck]
    cases h : noFields f with
    | false => exact .inl ⟨rfl, exec_quantCheck_badField h⟩
    | true =>
      exact .inr ⟨rfl, _, _, exec_quantCheck h, ⟨rfl, rfl, rfl⟩, .inr (.inr rfl)⟩
  | oscStart f =>
    rw [wellFormed_oscStart]
    cases h : freqFields f with
    | false => exact .inl ⟨rfl, exec_oscStart_badField h⟩
    | true =>
      refine .inr ⟨rfl, ?_⟩
      cases ht : tune Config.ratio Config.sampleRate (selectFreq f s) with
      | none => exact ⟨_, _, exec_oscStart_badArg h ht, ⟨rfl, rfl, rfl⟩, .inl ⟨rfl, .inl rfl⟩⟩
      | some t => exact ⟨_, _, exec_oscStart h ht, ⟨rfl, rfl, rfl⟩, .inr (.inr rfl)⟩
  | oscSetFreq f =>
    rw [wellFormed_oscSetFreq]
    cases h : freqFields f with
    | false => exact .inl ⟨rfl, exec_oscSetFreq_badField h⟩
    | true =>
      refine .inr ⟨rfl, ?_⟩
      cases hs : s.osc.started with
      | false => exact ⟨_, _, exec_oscSetFreq_notStarted h hs, ⟨rfl, rfl, rfl⟩, .inl ⟨rfl, .inr (.inl rfl)⟩⟩
      | true =>
        cases ht : tune Config.ratio Config.sampleRate (selectFreq f s) with
        | none => exact ⟨_, _, exec_oscSetFreq_badArg h hs ht, ⟨rfl, rfl, rfl⟩, .inl ⟨rfl, .inl rfl⟩⟩
        | some t => exact ⟨_, _, exec_oscSetFreq h hs ht, ⟨rfl, rfl, rfl⟩, .inr (.inr rfl)⟩
  | oscProcess f =>
    rw [wellFormed_oscProcess]
    cases h : blockFields f with
    | false => exact .inl ⟨rfl, exec_oscProcess_badField h⟩
    | true =>
      refine .inr ⟨rfl, ?_⟩
      cases hs : s.osc.started with
      | false => exact ⟨_, _, exec_oscProcess_notStarted h hs, ⟨rfl, rfl, rfl⟩, .inl ⟨rfl, .inr (.inl rfl)⟩⟩
      | true => exact ⟨_, _, exec_oscProcess h hs rfl, ⟨rfl, rfl, rfl⟩, .inr (.inr rfl)⟩
  | edgeRising f =>
    rw [wellFormed_edgeRising]
    cases h : gateFields f with
    | false => exact .inl ⟨rfl, exec_edgeRising_badField h⟩
    | true =>
      exact .inr ⟨rfl, _, _, exec_edgeRising h, ⟨rfl, rfl, rfl⟩, .inr (.inr rfl)⟩
  | edgeFalling f =>
    rw [wellFormed_edgeFalling]
    cases h : gateFields f with
    | false => exact .inl ⟨rfl, exec_edgeFalling_badField h⟩
    | true =>
      exact .inr ⟨rfl, _, _, exec_edgeFalling h, ⟨rfl, rfl, rfl⟩, .inr (.inr rfl)⟩

/-- A command answers a next state and leaves the inputs and the response alone (R296). -/
theorem exec_env (i : Instr) (s : State) :
    ∃ t, exec i s = .next t ∧ t.pending = s.pending ∧ t.gateIn = s.gateIn ∧ t.response = s.response := by
  rcases exec_cases i s with ⟨-, h⟩ | ⟨-, x, u, h, hu, -⟩
  · exact ⟨_, h, rfl, rfl, rfl⟩
  · exact ⟨_, h, hu⟩

/-- A host write to an element leaves the inputs and the response alone. -/
theorem writeElem_env (v : Word) (s : State) (r : Reg) :
    (writeElem v s r).pending = s.pending ∧ (writeElem v s r).gateIn = s.gateIn ∧
      (writeElem v s r).response = s.response := by
  cases r <;> exact ⟨rfl, rfl, rfl⟩

/-- What a host reads does not depend on the inputs or the last response. -/
@[simp] theorem readElem_env (s : State) (r : Reg) (g : Bool) (p : List Input) (q : Option Response) :
    readElem { s with gateIn := g, pending := p, response := q } r = readElem s r := by
  cases r <;> rfl

end Sys2Proof.Machine
end

