-- ==== Sys2Proof/Laws/Float.lean ====
section
/-! SUPPORT. Binary32 facts: values of the constants, the order, and that rounding depends on the ratio only. -/

namespace Sys2Proof.Machine.F32

theorem lt_irrefl (a : Word) : lt a a = false := by simp [lt]

theorem lt_iff {a b : Word} : lt a b = true ↔ isNaN a = false ∧ isNaN b = false ∧ ival a < ival b := by
  simp [lt, and_assoc]

theorem le_iff {a b : Word} : le a b = true ↔ isNaN a = false ∧ isNaN b = false ∧ ival a ≤ ival b := by
  simp [le, and_assoc]

theorem eq_iff {a b : Word} : eq a b = true ↔ isNaN a = false ∧ isNaN b = false ∧ ival a = ival b := by
  simp [eq, and_assoc]

/-- On numbers that are not NaN, not below is at or above (R19). -/
theorem lt_false_iff_le {a b : Word} (ha : isNaN a = false) (hb : isNaN b = false) : lt a b = false ↔ le b a = true := by
  simp [lt, le, ha, hb]

theorem isNaN_of_finite {a : Word} (h : finite a = true) : isNaN a = false := by
  simp only [finite, bne_iff_ne, ne_eq] at h
  simp [isNaN, h]

@[simp] theorem ival_posZero : ival posZero = 0 := by decide
@[simp] theorem isNaN_posZero : isNaN posZero = false := by decide
@[simp] theorem finite_posZero : finite posZero = true := by decide

/-- The size of a value is its magnitude in units of 2^-149 (R17). -/
theorem abs_val (x : Word) : |val x| = (mag x : ℚ) / 2 ^ 149 := by
  rw [val, abs_div, abs_of_pos (by positivity : (0 : ℚ) < 2 ^ 149), ival]
  split <;> simp

/-- val(48000.0) = 48000 (R22). -/
theorem mag_sampleRate : mag Config.sampleRate = 48000 * 2 ^ 149 := by decide

theorem mag_one32 : mag one32 = 2 ^ 149 := by decide

/-- Rounding a ratio to an integer depends on the ratio only. -/
theorem roundDiv_mul_right (n d : Nat) {c : Nat} (hc : 0 < c) : roundDiv (n * c) (d * c) = roundDiv n d := by
  have h1 : 2 * (n % d * c) < d * c ↔ 2 * (n % d) < d := by
    rw [← Nat.mul_assoc]; exact Nat.mul_lt_mul_right hc
  have h2 : d * c < 2 * (n % d * c) ↔ d < 2 * (n % d) := by
    rw [← Nat.mul_assoc]; exact Nat.mul_lt_mul_right hc
  simp only [roundDiv, Nat.mul_div_mul_right n d hc, Nat.mul_mod_mul_right, h1, h2]

/-- Rounding a ratio to binary32 depends on the ratio only. -/
theorem roundMag_mul_right (n d : Nat) {c : Nat} (hc : 0 < c) : roundMag (n * c) (d * c) = roundMag n d := by
  have hm : n * c * 2 ^ 149 = n * 2 ^ 149 * c := Nat.mul_right_comm _ _ _
  simp only [roundMag, hm, Nat.mul_div_mul_right _ d hc]
  rw [Nat.mul_right_comm d c, roundDiv_mul_right _ _ hc]

theorem rne32_mul_right (n d : Nat) {c : Nat} (hc : 0 < c) : rne32 (n * c) (d * c) = rne32 n d := by
  rw [rne32, roundMag_mul_right n d hc, rne32]

theorem roundMag_le_inf (n d : Nat) : roundMag n d ≤ 0x7F800000 := Nat.min_le_right _ _

end Sys2Proof.Machine.F32

namespace Sys2Proof.Machine

/-- The estimate over an interval at 48000 Hz (R161). -/
theorem zcEstimate_eq (interval : Nat) : zcEstimate Config.sampleRate interval = F32.rne32 48000 interval := by
  rw [zcEstimate, F32.mag_sampleRate, Nat.mul_comm (2 ^ 149) interval]
  exact F32.rne32_mul_right _ _ (Nat.two_pow_pos _)

/-- The centre frequency of a bin at 48000 Hz (R192). -/
theorem binFreq_eq (n k : Nat) : binFreq Config.sampleRate n k = F32.rne32 (k * 48000) n := by
  rw [binFreq, F32.mag_sampleRate, ← Nat.mul_assoc, Nat.mul_comm (2 ^ 149) n]
  exact F32.rne32_mul_right _ _ (Nat.two_pow_pos _)

end Sys2Proof.Machine
end

