-- ==== Sys2Proof/Laws/Memory.lean ====
section
/-! SUPPORT. The word memories: writing a run of words, the window law, and that every operation keeps `Memory.wf`. -/

namespace Sys2Proof.Machine

/-- A run of words written from position j on: inside the run the run's word, elsewhere the old one. -/
theorem writeFrom_getElem {n : Nat} (xs : List Word) (v : Vector Word n) (j k : Nat) (h : k < n) :
    (writeFrom v j xs)[k] = if hk : j ≤ k ∧ k < j + xs.length then xs[k - j]'(by omega) else v[k] := by
  induction xs generalizing v j with
  | nil => simp [writeFrom]
  | cons x xs ih =>
    rw [writeFrom, ih]
    by_cases h1 : j + 1 ≤ k ∧ k < j + 1 + xs.length
    · rw [dif_pos h1, dif_pos (by simp only [List.length_cons]; omega)]
      simp only [show k - j = (k - (j + 1)) + 1 by omega, List.getElem_cons_succ]
    · rw [dif_neg h1, Vector.getElem_setIfInBounds h]
      by_cases h2 : j = k
      · subst h2; simp
      · rw [if_neg h2, dif_neg (by simp only [List.length_cons]; omega)]

/-- How many samples the window holds after an append (R140). -/
theorem appendWindow_length (cap : Nat) (w xs : List Word) :
    (appendWindow cap w xs).length = min cap (w.length + xs.length) := by
  simp [appendWindow]; omega

/-- An append to a window that has room evicts nothing (R140). -/
theorem appendWindow_room {cap : Nat} {w xs : List Word} (h : w.length + xs.length ≤ cap) :
    appendWindow cap w xs = w ++ xs := by
  simp [appendWindow, Nat.sub_eq_zero_of_le h]

/-- Two appends are one append of both sequences (R142). -/
theorem appendWindow_append (cap : Nat) (w xs ys : List Word) :
    appendWindow cap (appendWindow cap w xs) ys = appendWindow cap w (xs ++ ys) := by
  simp only [appendWindow, ← List.append_assoc]
  rw [← List.drop_append_of_le_length (by simp), List.drop_drop]
  congr 1
  simp only [List.length_drop, List.length_append]
  omega

theorem appendWindow_nil_left (cap : Nat) (xs : List Word) :
    appendWindow cap [] xs = xs.drop (xs.length - cap) := by simp [appendWindow]

/-- The reset state has the canonical form (R41). -/
theorem reset_memory_wf : Memory.wf State.reset := by simp [Memory.wf]

theorem complete_memory_wf {x : StatusCode} {s : State} : Memory.wf (complete x s) ↔ Memory.wf s := Iff.rfl

theorem applyReset_memory_wf (s : State) : Memory.wf (applyReset s) := by
  simp [Memory.wf, bufFill, State.reset]

/-- A host write keeps the canonical form: no element the host writes is the window (R60). -/
theorem writeElem_memory_wf {v : Word} {s : State} {r : Reg} : Memory.wf (writeElem v s r) ↔ Memory.wf s := by
  cases r <;> exact Iff.rfl

/-- An append leaves the canonical form whatever it found (R140). -/
theorem appendWindow_memory_wf (w xs : List Word) : (appendWindow Config.bufCap w xs).length ≤ Config.bufCap := by
  rw [appendWindow_length]; exact Nat.min_le_left _ _

/-- The window after a command: reset, appended to, or the same. -/
theorem exec_window {i : Instr} {s t : State} (h : exec i s = .next t) :
    t.window = s.window ∨ (t.window = [] ∧ ∃ f, i = .softReset f ∧ noFields f = true) ∨
      ∃ f, i = .bufAppend f ∧ t.window = appendWindow Config.bufCap s.window (sampleBlock f s) := by
  rcases exec_cases i s with ⟨-, he⟩ | ⟨hw, x, u, he, -, hx⟩
  · rw [he] at h; cases h; exact .inl rfl
  · cases i with
    | softReset f =>
      rw [wellFormed_softReset] at hw
      rw [exec_softReset hw] at h; cases h
      exact .inr (.inl ⟨rfl, f, rfl, hw⟩)
    | bufAppend f =>
      rw [wellFormed_bufAppend] at hw
      rw [exec_bufAppend hw] at h; cases h
      exact .inr (.inr ⟨f, rfl, by simp only [complete_window]⟩)
    | nop f => rw [wellFormed_nop] at hw; rw [exec_nop hw] at h; cases h; exact .inl rfl
    | bufIsFull f => rw [wellFormed_bufIsFull] at hw; rw [exec_bufIsFull hw] at h; cases h; exact .inl rfl
    | zcProcess f => rw [wellFormed_zcProcess] at hw; rw [exec_zcProcess hw] at h; cases h; exact .inl rfl
    | zcReset f => rw [wellFormed_zcReset] at hw; rw [exec_zcReset hw] at h; cases h; exact .inl rfl
    | snapStart f => rw [wellFormed_snapStart] at hw; rw [exec_snapStart hw] at h; cases h; exact .inl rfl
    | snapCheck f => rw [wellFormed_snapCheck] at hw; rw [exec_snapCheck hw] at h; cases h; exact .inl rfl
    | snapComplete f => rw [wellFormed_snapComplete] at hw; rw [exec_snapComplete hw] at h; cases h; exact .inl rfl
    | quantCheck f => rw [wellFormed_quantCheck] at hw; rw [exec_quantCheck hw] at h; cases h; exact .inl rfl
    | edgeRising f => rw [wellFormed_edgeRising] at hw; rw [exec_edgeRising hw] at h; cases h; exact .inl rfl
    | edgeFalling f => rw [wellFormed_edgeFalling] at hw; rw [exec_edgeFalling hw] at h; cases h; exact .inl rfl
    | quantRemap f =>
      rw [wellFormed_quantRemap] at hw
      cases ht : toneOf s.qthr s.arg0 with
      | none => rw [exec_quantRemap_noMatch hw ht] at h; cases h; exact .inl rfl
      | some t => rw [exec_quantRemap_match hw ht] at h; cases h; exact .inl rfl
    | specEstimate f =>
      rw [wellFormed_specEstimate] at hw
      by_cases hn : 2 ^ f.len.toNat ≤ bufFill s
      · cases hx : (recentSamples (2 ^ f.len.toNat) s.window).all F32.finite with
        | false => rw [exec_specEstimate_badArg hw hn hx] at h; cases h; exact .inl rfl
        | true =>
          obtain ⟨n, hN⟩ : ∃ n, n = 2 ^ f.len.toNat := ⟨_, rfl⟩
          obtain ⟨best, hb⟩ : ∃ b, b = peakBin (specMag n (recentSamples n s.window)) (n / 2) := ⟨_, rfl⟩
          obtain ⟨freq, hf⟩ : ∃ q, q = binFreq Config.sampleRate n best := ⟨_, rfl⟩
          rw [exec_specEstimate hw hn hx hN hb hf] at h; cases h; exact .inl rfl
      · rw [exec_specEstimate_short hw (Nat.lt_of_not_le hn)] at h; cases h; exact .inl rfl
    | oscStart f =>
      rw [wellFormed_oscStart] at hw
      cases ht : tune Config.ratio Config.sampleRate (selectFreq f s) with
      | none => rw [exec_oscStart_badArg hw ht] at h; cases h; exact .inl rfl
      | some t => rw [exec_oscStart hw ht] at h; cases h; exact .inl rfl
    | oscSetFreq f =>
      rw [wellFormed_oscSetFreq] at hw
      cases hs : s.osc.started with
      | false => rw [exec_oscSetFreq_notStarted hw hs] at h; cases h; exact .inl rfl
      | true =>
        cases ht : tune Config.ratio Config.sampleRate (selectFreq f s) with
        | none => rw [exec_oscSetFreq_badArg hw hs ht] at h; cases h; exact .inl rfl
        | some t => rw [exec_oscSetFreq hw hs ht] at h; cases h; exact .inl rfl
    | oscProcess f =>
      rw [wellFormed_oscProcess] at hw
      cases hs : s.osc.started with
      | false => rw [exec_oscProcess_notStarted hw hs] at h; cases h; exact .inl rfl
      | true =>
        obtain ⟨b, hb⟩ : ∃ b, b = runBank voiceOut s.osc.inc f.len.toNat { phase := s.osc.phase, out := s.outBlk } := ⟨_, rfl⟩
        rw [exec_oscProcess hw hs hb] at h; cases h; exact .inl rfl

/-- Every command keeps the canonical form (R41). -/
theorem exec_memory_wf {i : Instr} {s t : State} (hs : Memory.wf s) (h : exec i s = .next t) : Memory.wf t := by
  rcases exec_window h with hw | ⟨hw, -⟩ | ⟨f, -, hw⟩
  · simpa [Memory.wf, bufFill, hw] using hs
  · simp [Memory.wf, bufFill, hw]
  · simpa [Memory.wf, bufFill, hw] using appendWindow_memory_wf s.window (sampleBlock f s)

end Sys2Proof.Machine
end

