-- ==== Sys2Proof/Laws/Oscillator.lean ====
section
/-! SUPPORT. One sample position of OSC_PROCESS, voice by voice, and the tuning of the bank. -/

namespace Sys2Proof.Machine

/-- Each voice advances by its own increment (R242). -/
theorem stepBank_phase (smp : Word → Word) (inc : Vector Word 4) (b : BankOut) (j : Nat) (v : Fin 4) :
    (stepBank smp inc b j).phase[v] = b.phase[v] + inc[v] := by
  rcases b with ⟨phase, out⟩
  match v with
  | 0 | 1 | 2 | 3 => simp [stepBank, stepVoice, List.finRange]

/-- Each voice writes one sample, of its phase before the advance, on its own channel (R242). -/
theorem stepBank_out (smp : Word → Word) (inc : Vector Word 4) (b : BankOut) (j : Nat) (v : Fin 4) :
    (stepBank smp inc b j).out[v] = b.out[v].setIfInBounds j (smp b.phase[v]) := by
  rcases b with ⟨phase, out⟩
  match v with
  | 0 | 1 | 2 | 3 => simp [stepBank, stepVoice, List.finRange]

/-- The loop, one position longer (R242). -/
theorem runBank_succ (smp : Word → Word) (inc : Vector Word 4) (n : Nat) (b : BankOut) :
    runBank smp inc (n + 1) b = stepBank smp inc (runBank smp inc n b) n := by
  simp [runBank, List.range_succ]

@[simp] theorem runBank_zero (smp : Word → Word) (inc : Vector Word 4) (b : BankOut) : runBank smp inc 0 b = b := rfl

/-- A tuning exists exactly when the fundamental and every voice frequency are finite (R233). -/
theorem tune_eq_some_iff (ratio : Vector Word 4) (sr f : Word) (t : Tuning) :
    tune ratio sr f = some t ↔
      F32.finite f = true ∧ (∀ v : Fin 4, F32.finite (voiceFreqs ratio f)[v] = true) ∧
        t = { freq := voiceFreqs ratio f, inc := (voiceFreqs ratio f).map (phaseInc sr) } := by
  have hall : (voiceFreqs ratio f).toList.all F32.finite = true ↔ ∀ v : Fin 4, F32.finite (voiceFreqs ratio f)[v] = true := by
    rw [List.all_eq_true]
    constructor
    · intro h v; exact h _ (by simp)
    · intro h x hx
      obtain ⟨i, hi, rfl⟩ := List.getElem_of_mem hx
      simpa using h ⟨i, by simpa using hi⟩
  simp only [tune, Bool.and_eq_true, hall]
  split
  · rename_i h; exact ⟨fun e => ⟨h.1, h.2, (Option.some.inj e).symm⟩, fun e => by rw [e.2.2]⟩
  · rename_i h; simp only [reduceCtorEq, false_iff]; exact fun h' => h ⟨h'.1, h'.2.1⟩

/-- Voice v has the fundamental times ratio v, rounded once (R233). -/
theorem voiceFreqs_getElem (ratio : Vector Word 4) (f : Word) (v : Fin 4) : (voiceFreqs ratio f)[v] = F32.mul f ratio[v] := by
  rw [voiceFreqs, Fin.getElem_fin, Vector.getElem_map]
  rfl

/-- Whatever the free choice, SinCfg is finite and in [-1.0, 1.0] (R231 (b)). -/
theorem sineLegal_sinCfgFor (free : Word → Word) (p : Word) : sineLegal (sinCfgFor free p) = true := by
  unfold sinCfgFor
  repeat' split
  all_goals first | assumption | decide

theorem sineLegal_sinCfg (p : Word) : sineLegal (sinCfg p) = true := sineLegal_sinCfgFor _ p

end Sys2Proof.Machine
end

