-- ==== Sys2Proof/Laws/Step.lean ====
section
/-! SUPPORT. What a step does with each kind of input, and what each bus access does. -/

namespace Sys2Proof.Machine

section
variable {s : State} {rest : List Input}

theorem step_nil (h : s.pending = []) : step s = .next s := by simp [step, takeInput, h]

theorem step_cons {e : Input} (h : s.pending = e :: rest) : step s = serve e { s with pending := rest } := by
  simp [step, takeInput, h]

end

section
variable (s : State)

theorem serve_busRead (off : Offset) (size : Nat) :
    serve (.busRead off size) s = .next { s with response := some (busReadResponse off size s) } := rfl

theorem serve_gate (level : Bool) : serve (.gate level) s = .next { s with gateIn := level } := rfl

theorem serve_reset : serve .reset s = .next (applyReset s) := rfl

theorem accessLegal_iff {off : Offset} {size : Nat} :
    accessLegal off size = true ↔ size = 4 ∧ off.toNat % 4 = 0 := by simp [accessLegal]

theorem regAt_cmdOffset : regAt cmdOffset = .cmd := by decide

/-- A legal write of an element other than CMD (R71, R76, R78). -/
theorem serve_busWrite_elem {off : Offset} {data : Word} (hl : off.toNat % 4 = 0) (hr : regAt off ≠ .cmd) :
    serve (.busWrite off 4 data) s =
      .next { writeElem data s (regAt off) with response := some .writeOk } := by
  have hl' : accessLegal off 4 = true := accessLegal_iff.2 ⟨rfl, hl⟩
  simp only [serve, serveWith, busWriteWith, hl', if_true]

/-- A write of CMD issues the word (R79). -/
theorem serve_commandWrite (c : Word) :
    serve (commandWrite c) s = issue c { s with response := some .writeOk } := by
  have hl' : accessLegal cmdOffset 4 = true := by decide
  simp only [serve, serveWith, commandWrite, busWriteWith, hl', regAt_cmdOffset, if_true, issue]

/-- An illegal write is discarded (R71). -/
theorem serve_busWrite_illegal {off : Offset} {size : Nat} {data : Word} (hl : accessLegal off size = false) :
    serve (.busWrite off size data) s = .next { s with response := some .writeError } := by
  simp [serve, serveWith, busWriteWith, hl]

/-- The word that is written to CMD issues a command or ends ILLEGAL_OPCODE (R110). -/
theorem issue_cases (c : Word) :
    (∃ i, decode c = .ok i ∧ issue c s = exec i { s with cmd := c }) ∨
    (∃ r, decode c = .error r ∧ issue c s = .next (complete .illegalOpcode { s with cmd := c })) := by
  unfold issue issueWith
  cases h : decode c with
  | ok i => exact .inl ⟨i, rfl, rfl⟩
  | error r => exact .inr ⟨r, rfl, rfl⟩

/-- The writes that are not commands: everything a host write to an element can do. -/
theorem writeElem_cases (v : Word) (r : Reg) :
    (r = .status ∧ writeElem v s r = { s with status := statusWrite v s.status }) ∨
    (r = .arg0 ∧ writeElem v s r = { s with arg0 := v }) ∨
    (∃ i, r = .qthr i ∧ writeElem v s r = { s with qthr := s.qthr.set i v }) ∨
    (∃ i, r = .qremap i ∧ writeElem v s r = { s with qremap := s.qremap.set i v }) ∨
    (∃ j, r = .inBlk j ∧ writeElem v s r = { s with inBlk := s.inBlk.set j v }) ∨
    writeElem v s r = s := by
  cases r with
  | status => exact .inl ⟨rfl, rfl⟩
  | arg0 => exact .inr (.inl ⟨rfl, rfl⟩)
  | qthr i => exact .inr (.inr (.inl ⟨i, rfl, rfl⟩))
  | qremap i => exact .inr (.inr (.inr (.inl ⟨i, rfl, rfl⟩)))
  | inBlk j => exact .inr (.inr (.inr (.inr (.inl ⟨j, rfl, rfl⟩))))
  | _ => exact .inr (.inr (.inr (.inr (.inr rfl))))

end

/-- The four byte offsets of a word belong to one element (R72, R74). -/
theorem regAt_sameWord {a b : Offset} (h : a.toNat / 4 = b.toNat / 4) : regAt a = regAt b := by
  simp only [regAt, h]

/-- The element at an aligned offset (R74). -/
theorem regAt_aligned {off : Offset} (h : off.toNat % 4 = 0) : regAt off = regAtWord off.toNat := by
  simp only [regAt, show off.toNat / 4 * 4 = off.toNat by omega]

/-- BASE plus an offset selects that offset (R70). -/
theorem offsetOfAddress_base (base : Nat) (off : Offset) : offsetOfAddress base (base + off.toNat) = some off := by
  have h := off.isLt
  rw [offsetOfAddress, if_pos ⟨by omega, by omega⟩, Nat.add_sub_cancel_left, BitVec.ofNat_toNat, BitVec.setWidth_eq]

/-- No address outside the 32 KiB window at BASE selects an offset (R70). -/
theorem offsetOfAddress_none {base addr : Nat} (h : addr < base ∨ base + 0x8000 ≤ addr) :
    offsetOfAddress base addr = none :=
  if_neg (by omega)

/-- BASE is aligned to 32 KiB (R70). -/
theorem base_aligned : Config.base % 0x8000 = 0 := by unfold Config.base; omega

end Sys2Proof.Machine
end

