-- ==== Sys2Proof/Laws/Parametric.lean ====
section
/-! SUPPORT. The machine of this hardware is the parametric one at `Config.params`, and the sizes of the state are those of R13. -/

namespace Sys2Proof.Machine

/-- The reset state of this hardware (R320). -/
theorem resetFor_params : State.resetFor Config.params = State.reset := rfl

/-- What a command does on this hardware (R13). -/
theorem execFor_params (i : Instr) (s : State) : execFor Config.params i s = exec i s := by cases i <;> rfl

/-- One step of this hardware (R13, R91). -/
theorem stepFor_params (s : State) : stepFor Config.params s = step s := by
  rw [stepFor, show execFor Config.params = exec from funext₂ execFor_params]
  rfl

/-- The machine of this hardware (R13). -/
theorem coreFor_params : coreFor Config.params = core := by
  simp only [coreFor, core, show stepFor Config.params = step from funext stepFor_params, resetFor_params]

/-- Well-formedness on this hardware (R117). -/
theorem wellFormedFor_params (i : Instr) : i.wellFormedFor Config.params.specLmax = i.wellFormed := by
  rw [Instr.wellFormed, params_specLmax, specLmax_eq]

/-- SPEC_ESTIMATE is well formed exactly when its field check passes, whatever the parameters (R117). -/
theorem wellFormedFor_specEstimate (lmax : Nat) (f : Fields) :
    (Instr.specEstimate f).wellFormedFor lmax = spectralFieldsFor lmax f := by
  rw [Bool.eq_iff_iff, wellFormedFor_iff, spectralFieldsFor, fieldsLegal_iff]
  rfl

/-- The parameters of this hardware are legal (R14, R70). -/
theorem params_legal : LegalParams Config.params := by
  rw [LegalParams, params_base]
  exact ⟨by decide, by decide, base_aligned⟩

/-- The numbers the types of the state and the register map are laid out with are the sizes of R13. -/
theorem state_sizes (s : State) :
    s.snap.words.toList.length = Config.snapLen ∧ s.inBlk.toList.length = Config.blkMax ∧
      s.qthr.toList.length = Config.qtBounds ∧ s.qremap.toList.length = Config.qtTones ∧
      s.osc.phase.toList.length = Config.nVoices ∧ s.outBlk.toList.length = Config.nVoices := by
  simp [Config.snapLen, Config.blkMax, Config.qtBounds, Config.qtTones, Config.nVoices]

end Sys2Proof.Machine
end

