-- ==== Sys2Proof/Laws/PerInstr.lean ====
section
/-! SUPPORT. The family EncodedFields: the word of a command carries its OP and its fields, command by command. -/

namespace Sys2Proof.Laws.EncodedFields

/-- The word of a command carries the OP of its row of R117 and every field of R111. -/
def Statement (i : Instr) : Prop := opField (encode i) = opcode i ∧ fieldsOf (encode i) = i.fields

/-- One proof for every command: the encoder is one concatenation of fields. -/
theorem all (i : Instr) : Statement i := ⟨opField_encode i, fieldsOf_encode i⟩

theorem nop (f : Fields) : Statement (.nop f) := all _
theorem softReset (f : Fields) : Statement (.softReset f) := all _
theorem bufAppend (f : Fields) : Statement (.bufAppend f) := all _
theorem bufIsFull (f : Fields) : Statement (.bufIsFull f) := all _
theorem zcProcess (f : Fields) : Statement (.zcProcess f) := all _
theorem zcReset (f : Fields) : Statement (.zcReset f) := all _
theorem snapStart (f : Fields) : Statement (.snapStart f) := all _
theorem snapCheck (f : Fields) : Statement (.snapCheck f) := all _
theorem snapComplete (f : Fields) : Statement (.snapComplete f) := all _
theorem specEstimate (f : Fields) : Statement (.specEstimate f) := all _
theorem quantRemap (f : Fields) : Statement (.quantRemap f) := all _
theorem quantCheck (f : Fields) : Statement (.quantCheck f) := all _
theorem oscStart (f : Fields) : Statement (.oscStart f) := all _
theorem oscSetFreq (f : Fields) : Statement (.oscSetFreq f) := all _
theorem oscProcess (f : Fields) : Statement (.oscProcess f) := all _
theorem edgeRising (f : Fields) : Statement (.edgeRising f) := all _
theorem edgeFalling (f : Fields) : Statement (.edgeFalling f) := all _

end Sys2Proof.Laws.EncodedFields
end

