-- ==== Sys2Proof/Laws/ZeroCrossing.lean ====
section
/-! SUPPORT. The scan of ZC_PROCESS, sample by sample, and the snapshot capture. -/

namespace Sys2Proof.Machine

section
variable (sr : Word)

@[simp] theorem zcScan_nil (a : ZcState × Word) : zcScan sr a [] = a := rfl

theorem zcScan_cons (z : ZcState) (n : Word) (x : Word) (xs : List Word) :
    zcScan sr (z, n) (x :: xs) = zcScan sr (zcSample sr z x, if zcCrosses z x then n + 1 else n) xs := rfl

/-- Scanning a sequence in two pieces is scanning it in one (R163). -/
theorem zcScan_append (a : ZcState × Word) (xs ys : List Word) :
    zcScan sr a (xs ++ ys) = zcScan sr (zcScan sr a xs) ys := List.foldl_append

@[simp] theorem zcSample_last (z : ZcState) (x : Word) : (zcSample sr z x).last = x := rfl
@[simp] theorem zcSample_hasPrev (z : ZcState) (x : Word) : (zcSample sr z x).hasPrev = true := rfl

@[simp] theorem zcSample_count (z : ZcState) (x : Word) : (zcSample sr z x).count = z.count + 1 := by
  simp only [zcSample, zcAtCrossing]
  repeat' split
  all_goals rfl

/-- A sample that makes no crossing leaves the position, the estimate and the crossing flag (R162). -/
theorem zcSample_noCross {z : ZcState} {x : Word} (h : zcCrosses z x = false) :
    zcSample sr z x = { z with last := x, hasPrev := true, count := z.count + 1 } := by
  simp [zcSample, h]

/-- The first crossing latches its position only (R162). -/
theorem zcSample_firstCross {z : ZcState} {x : Word} (h : zcCrosses z x = true) (hc : z.hasCross = false) :
    zcSample sr z x =
      { z with last := x, hasPrev := true, count := z.count + 1, lastPos := z.count, hasCross := true } := by
  simp [zcSample, zcAtCrossing, h, hc]

/-- A later crossing gives an estimate and latches its position (R162). -/
theorem zcSample_laterCross {z : ZcState} {x : Word} (h : zcCrosses z x = true) (hc : z.hasCross = true) :
    zcSample sr z x =
      { z with last := x, hasPrev := true, count := z.count + 1, lastPos := z.count
               freq := zcEstimate sr (zcInterval z.count z.lastPos) } := by
  simp [zcSample, zcAtCrossing, h, hc]

end

/-- Two identical samples are never a crossing (R172). -/
theorem crossing_self (a : Word) : crossing a a = false := by simp [crossing]

/-- The interval is never 0 and at most 2^32 (R161). -/
theorem zcInterval_range (count lastPos : Word) : 1 ≤ zcInterval count lastPos ∧ zcInterval count lastPos ≤ 2 ^ 32 := by
  simp only [zcInterval]
  split
  · omega
  · rename_i h
    have h1 : (count - lastPos).toNat ≠ 0 := fun h0 => h (BitVec.eq_of_toNat_eq h0)
    have h2 := (count - lastPos).isLt
    omega

theorem snapCapture_idle {xs : List Word} {p : SnapState} (h : p.armed = false) : snapCapture xs p = p := by
  simp [snapCapture, h]

theorem snapCapture_armed {xs : List Word} {p : SnapState} (h : p.armed = true) :
    snapCapture xs p = { armed := false, ready := true, words := writeFrom p.words 0 xs } := by
  simp [snapCapture, h]

end Sys2Proof.Machine
end

