-- ==== Sys2Proof/Machine/HostProgram.lean ====
section
/-! DEFINITION. Host programs: the lines and pseudo-instructions of the host assembly (R125 to R129) as syntax trees, and the finite list of bus accesses a program denotes; the boot sequence (R325) and the per-block loop (R326) written in it (assumptions 18, 20). -/

namespace Sys2Proof.Machine

/-- The command mnemonics (R117). -/
inductive Mnemonic where
  | nop | softReset | bufAppend | bufIsFull | zcProcess | zcReset | snapStart | snapCheck | snapComplete
  | specEstimate | quantRemap | quantCheck | oscStart | oscSetFreq | oscProcess | edgeRising | edgeFalling
  deriving DecidableEq, Repr

/-- The values of the field `src` (R126). -/
inductive Source where
  | arg0 | zc | spec | pin
  deriving DecidableEq, Repr

/-- The fields a `CMD` line gives (R126); an absent one is none. -/
structure CmdFields where
  len : Option Nat := none
  l   : Option Nat := none
  src : Option Source := none
  deriving DecidableEq, Repr

/-- A decimal real, or an expression in the iteration number of REPEAT (R125, R128).
DESIGN CHOICE (assumption 20): R128 does not say what an `<expression in b>` may be. Here it is built from decimal
numerals, b, negation, +, - and *; there is no division. -/
inductive RealExpr where
  /-- A decimal numeral: its digits as a number, and how many of them stand after the point. -/
  | lit (digits : Nat) (places : Nat)
  | iteration
  | neg (a : RealExpr)
  | add (a b : RealExpr)
  | sub (a b : RealExpr)
  | mul (a b : RealExpr)
  deriving DecidableEq, Repr

/-- A word operand: hexadecimal, or `f:` and a real (R125). -/
inductive HostWord where
  | hex (w : Word)
  | real (x : RealExpr)
  deriving DecidableEq, Repr

/-- One line (R125, R128). -/
inductive Line where
  | wr (r : Reg) (w : HostWord)
  | rd (r : Reg)
  | cmd (m : Mnemonic) (f : CmdFields)
  | loadblk (ws : List HostWord)
  | ingest (n : Nat)
  | track
  | setf (r : Reg) (x : RealExpr)
  | clrerr
  | expect (r : Reg) (w : HostWord)
  deriving DecidableEq, Repr

/-- A program: lines, and REPEAT k ... END around a program (R128, R129). -/
inductive Program where
  | done
  | line (l : Line) (rest : Program)
  | rep (k : Nat) (body : Program) (rest : Program)
  deriving DecidableEq, Repr

/-- The command of a mnemonic (R117). -/
def mnemonicCommand : Mnemonic → Fields → Instr
  | .nop => .nop
  | .softReset => .softReset
  | .bufAppend => .bufAppend
  | .bufIsFull => .bufIsFull
  | .zcProcess => .zcProcess
  | .zcReset => .zcReset
  | .snapStart => .snapStart
  | .snapCheck => .snapCheck
  | .snapComplete => .snapComplete
  | .specEstimate => .specEstimate
  | .quantRemap => .quantRemap
  | .quantCheck => .quantCheck
  | .oscStart => .oscStart
  | .oscSetFreq => .oscSetFreq
  | .oscProcess => .oscProcess
  | .edgeRising => .edgeRising
  | .edgeFalling => .edgeFalling

/-- LEN from `len=` or `l=`: a field the command does not take is refused (R126). -/
def lenOf (m : Mnemonic) (f : CmdFields) : Option Nat :=
  match m with
  | .bufAppend | .zcProcess | .oscProcess => if f.l.isSome then none else some (f.len.getD 0)
  | .specEstimate => if f.len.isSome then none else some (f.l.getD 0)
  | .nop | .softReset | .bufIsFull | .zcReset | .snapStart | .snapCheck | .snapComplete | .quantRemap
  | .quantCheck | .oscStart | .oscSetFreq | .edgeRising | .edgeFalling =>
    if f.len.isSome || f.l.isSome then none else some 0

/-- SUB from `src=`; an absent `src` is SUB 0 (R126). -/
def subOf (m : Mnemonic) (f : CmdFields) : Option Nat :=
  match m with
  | .oscStart | .oscSetFreq =>
    match f.src with
    | none | some .arg0 => some 0
    | some .zc => some 1
    | some .spec => some 2
    | some .pin => none
  | .edgeRising | .edgeFalling =>
    match f.src with
    | none | some .pin => some 0
    | some .arg0 => some 1
    | some .zc | some .spec => none
  | .nop | .softReset | .bufAppend | .bufIsFull | .zcProcess | .zcReset | .snapStart | .snapCheck
  | .snapComplete | .specEstimate | .quantRemap | .quantCheck | .oscProcess =>
    if f.src.isSome then none else some 0

/-- Assembling a `CMD` line: refused where a field is not taken or a value is outside R117's range (R126), that of
this hardware for SPEC_LMAX (assumption 20). -/
def assembleCmd (m : Mnemonic) (f : CmdFields) : Option Instr := do
  let len ← lenOf m f
  let sub ← subOf m f
  let i := mnemonicCommand m
    { sub := BitVec.ofNat 4 sub, len := BitVec.ofNat 6 len, rsv15_12 := 0, rsv31_22 := 0 }
  if len < 64 ∧ i.wellFormed = true then some i else none

/-- The value of a real expression in iteration b (R128; assumption 20). -/
def realValue (b : Nat) : RealExpr → ℚ
  | .lit digits places => digits / 10 ^ places
  | .iteration => b
  | .neg x => -realValue b x
  | .add x y => realValue b x + realValue b y
  | .sub x y => realValue b x - realValue b y
  | .mul x y => realValue b x * realValue b y

/-- `rne32` of a rational of either sign (R18); 0 gives +0.0. -/
def rne32Signed (q : ℚ) : Word := F32.withSign (decide (q.num < 0)) (F32.roundMag q.num.natAbs q.den)

/-- The word an operand stands for (R125). -/
def hostWordValue (b : Nat) : HostWord → Word
  | .hex w => w
  | .real x => rne32Signed (realValue b x)

/-- A 32-bit write of a named element (R125); none for an element with no name. -/
def writeAccess (r : Reg) (w : Word) : Option Input :=
  r.offset?.map (fun a => .busWrite (BitVec.ofNat 15 a) 4 w)

/-- A 32-bit read of a named element (R125). -/
def readAccess (r : Reg) : Option Input := r.offset?.map (fun a => .busRead (BitVec.ofNat 15 a) 4)

/-- The access of a `CMD` line: a write of the encoded word to CMD (R125). -/
def cmdAccess (m : Mnemonic) (f : CmdFields) : Option Input :=
  (assembleCmd m f).map (fun i => commandWrite (encode i))

/-- The writes of LOADBLK from position j of IN_BLK on; none past the last word (R128). -/
def loadAccesses : Nat → List Word → Option (List Input)
  | _, [] => some []
  | j, w :: ws =>
    if h : j < 48 then do
      let a ← writeAccess (.inBlk ⟨j, h⟩) w
      let rest ← loadAccesses (j + 1) ws
      some (a :: rest)
    else none

/-- The bus accesses of one line in iteration b (R125, R128). An expectation is no part of the access (R127). -/
def lineAccesses (b : Nat) : Line → Option (List Input)
  | .wr r w => (writeAccess r (hostWordValue b w)).map ([·])
  | .rd r => (readAccess r).map ([·])
  | .cmd m f => (cmdAccess m f).map ([·])
  | .loadblk ws => loadAccesses 0 (ws.map (hostWordValue b))
  | .ingest n => do
    let a ← cmdAccess .bufAppend { len := some n }
    let z ← cmdAccess .zcProcess { len := some n }
    some [a, z]
  | .track => (cmdAccess .oscSetFreq { src := some .zc }).map ([·])
  | .setf r x => (writeAccess r (rne32Signed (realValue b x))).map ([·])
  | .clrerr => (writeAccess .status 0x00000100).map ([·])
  | .expect r _ => (readAccess r).map ([·])

/-- `REPEAT k`: the accesses of iterations b, b+1, ..., in order (R128). -/
def repeatAccesses (body : Nat → Option (List Input)) : Nat → Nat → Option (List Input)
  | _, 0 => some []
  | b, k + 1 => do
    let one ← body b
    let more ← repeatAccesses body (b + 1) k
    some (one ++ more)

/-- The fixed finite list of accesses a program denotes (R129); none where the assembler refuses a line. `b` is the
iteration number its lines see.
DESIGN CHOICE (assumption 20): R128 does not say what b means inside nested REPEATs or outside any. Here the number of
the innermost REPEAT hides those of the outer ones, and outside any REPEAT b is the number the caller gives. -/
def programAccesses (b : Nat) : Program → Option (List Input)
  | .done => some []
  | .line l rest => do
    let one ← lineAccesses b l
    let more ← programAccesses b rest
    some (one ++ more)
  | .rep k body rest => do
    let loop ← repeatAccesses (fun i => programAccesses i body) 0 k
    let more ← programAccesses b rest
    some (loop ++ more)

/-- A program of plain lines. -/
def linesProgram : List Line → Program
  | [] => .done
  | l :: ls => .line l (linesProgram ls)

/-- The boot sequence of R325: identify, load and check the table, start the bank, clear the error bit. -/
def bootLines (thresholds : Vector Word 17) (tones : Vector Word 16) (frequency : Word) : List Line :=
  [.expect .id (.hex 0x42570001), .rd .cfgSampleRate, .rd .cfgBufCap] ++
  (List.finRange 17).map (fun i => .wr (.qthr i) (.hex thresholds[i])) ++
  (List.finRange 16).map (fun i => .wr (.qremap i) (.hex tones[i])) ++
  [.cmd .quantCheck {}, .expect .result0 (.hex 1)] ++
  [.wr .arg0 (.hex frequency), .cmd .oscStart {}, .clrerr]

/-- One turn of the per-block loop of R326: stage, append and analyse, estimate the spectrum if asked, re-tune,
synthesize, read the output block. -/
def blockLines (samples : List Word) (spectral : Option Nat) (source : Source) : List Line :=
  [.loadblk (samples.map .hex), .ingest samples.length] ++
  (match spectral with
    | some l => [.cmd .specEstimate { l := some l }]
    | none => []) ++
  [.cmd .oscSetFreq { src := some source }, .cmd .oscProcess { len := some samples.length }] ++
  (List.finRange 4).flatMap (fun v =>
    ((List.finRange 48).filter (fun j => j.val < samples.length)).map (fun j => .rd (.outBlk v j)))

end Sys2Proof.Machine
end

