-- ==== Sys2Proof/Tests/Slice0.lean ====
section
/-! SUPPORT. The model's own tests, with expected values from spec/ (chiefly 95_test_vectors.md), and a witness for the hypotheses of each statement. -/

namespace Sys2Proof.Tests

open Sys2Proof Sys2Proof.Machine

/-- Does an outcome answer a next state with a property? -/
def answers (o : Host.Outcome State Fault Refusal) (p : State → Bool) : Bool :=
  match o with
  | .next t => p t
  | .fault _ => false
  | .refused _ => false

/-- Fields with LEN only. -/
def lenF (n : Nat) : Fields := ⟨0, BitVec.ofNat 6 n, 0, 0⟩

/-- Fields with SUB only. -/
def subF (n : Nat) : Fields := ⟨BitVec.ofNat 4 n, 0, 0, 0⟩

/-- No field set. -/
def noF : Fields := ⟨0, 0, 0, 0⟩

/-- A staging memory that begins with the given words. -/
def staged (xs : List Word) : Vector Word 48 := writeFrom (Vector.replicate 48 0) 0 xs

/-- The reset state with a staged block. -/
def withBlock (xs : List Word) : State := { State.reset with inBlk := staged xs }

/-- The reset state with ARG0 set. -/
def withArg (x : Word) : State := { State.reset with arg0 := x }

/-- Table A of 95_test_vectors.md 2.6: thresholds 0, 1, ..., 16. -/
def tableA : Vector Word 17 :=
  #v[0x00000000#32, 0x3F800000#32, 0x40000000#32, 0x40400000#32, 0x40800000#32, 0x40A00000#32, 0x40C00000#32,
     0x40E00000#32, 0x41000000#32, 0x41100000#32, 0x41200000#32, 0x41300000#32, 0x41400000#32, 0x41500000#32,
     0x41600000#32, 0x41700000#32, 0x41800000#32]

/-- Table A, tones 60, 61, ..., 75. -/
def tonesA : Vector Word 16 :=
  #v[0x42700000#32, 0x42740000#32, 0x42780000#32, 0x427C0000#32, 0x42800000#32, 0x42820000#32, 0x42840000#32,
     0x42860000#32, 0x42880000#32, 0x428A0000#32, 0x428C0000#32, 0x428E0000#32, 0x42900000#32, 0x42920000#32,
     0x42940000#32, 0x42960000#32]

/-- The reset state with table A and a reading. -/
def quantA (x : Word) : State := { State.reset with qthr := tableA, qremap := tonesA, arg0 := x }

/-- The bank of vector O4: started at 12000 Hz. -/
def bankO4 : OscState where
  started := true
  fund := 0x463B8000
  freq := #v[0x463B8000#32, 0x468CA000#32, 0x467A0000#32, 0x46BB8000#32]
  inc := #v[0x40000000#32, 0x60000000#32, 0x55555555#32, 0x80000000#32]
  phase := Vector.replicate 4 0

/-! Parameters (R13, R14) -/

/-- Legal parameters of another build: BUF_CAP = 64 and SAMPLE_RATE = 24000.0. -/
def otherParams : Params := { Config.params with bufCap := 64, sampleRate := 0x46BB8000 }

theorem test_parameters_in_range : LegalParams Config.params ∧ Config.blkMax = 48 ∧ Config.params.specLmax = 12 :=
  ⟨params_legal, rfl, by decide⟩
theorem test_other_capacity : readRegFor otherParams 0x0024 State.reset = 64
    ∧ answers (execFor otherParams (.bufIsFull noF) { State.reset with window := List.replicate 64 0 })
        (fun t => t.result0 == 1) = true
    ∧ answers (execFor otherParams (.specEstimate (lenF 7)) State.reset) (fun t => readReg 0x0004 t == 0x00000102#32) = true := by
  decide +kernel
theorem test_other_sample_rate : answers (execFor otherParams (.zcProcess (lenF 4))
      (withBlock [0x3F800000, 0xBF800000, 0xBF800000, 0x3F800000]))
    (fun t => t.result0 == 0x463B8000) = true := by decide +kernel

/-! Well-formedness: an ill-formed term for each check (R111, R117) -/

theorem test_reserved_low_refused : (Instr.nop ⟨0, 0, 1, 0⟩).wellFormed = false := by decide
theorem test_reserved_high_refused : (Instr.nop ⟨0, 0, 0, 1⟩).wellFormed = false := by decide
theorem test_sub_refused : (Instr.oscStart (subF 3)).wellFormed = false ∧ (Instr.edgeRising (subF 2)).wellFormed = false
    ∧ (Instr.bufAppend ⟨1, 4, 0, 0⟩).wellFormed = false := by decide
theorem test_len_refused : (Instr.bufAppend (lenF 0)).wellFormed = false ∧ (Instr.bufAppend (lenF 49)).wellFormed = false
    ∧ (Instr.specEstimate (lenF 13)).wellFormed = false ∧ (Instr.softReset (lenF 1)).wellFormed = false := by decide
theorem test_bounds_accepted : (Instr.bufAppend (lenF 48)).wellFormed = true ∧ (Instr.zcProcess (lenF 1)).wellFormed = true
    ∧ (Instr.specEstimate (lenF 12)).wellFormed = true ∧ (Instr.oscSetFreq (subF 2)).wellFormed = true
    ∧ (Instr.edgeFalling (subF 1)).wellFormed = true := by decide

/-! Decoding: the example words of R119, one for each constructor, bit by bit -/

theorem test_decode_control : decode 0b00000000000000000000000000000000#32 = .ok (.nop noF)
    ∧ decode 0b00000000000000000000000000000001#32 = .ok (.softReset noF) := by decide
theorem test_decode_buffer : decode 0b00000000001100000000000000010000#32 = .ok (.bufAppend (lenF 48))
    ∧ decode 0b00000000000000000000000000010001#32 = .ok (.bufIsFull noF) := by decide
theorem test_decode_zero_crossing : decode 0b00000000001100000000000000100000#32 = .ok (.zcProcess (lenF 48))
    ∧ decode 0b00000000000000000000000000100001#32 = .ok (.zcReset noF) := by decide
theorem test_decode_snapshot : decode 0b00000000000000000000000000100010#32 = .ok (.snapStart noF)
    ∧ decode 0b00000000000000000000000000100011#32 = .ok (.snapCheck noF)
    ∧ decode 0b00000000000000000000000000100100#32 = .ok (.snapComplete noF) := by decide
theorem test_decode_spectral : decode 0b00000000000011000000000000110000#32 = .ok (.specEstimate (lenF 12)) := by decide
theorem test_decode_quantizer : decode 0b00000000000000000000000001000000#32 = .ok (.quantRemap noF)
    ∧ decode 0b00000000000000000000000001000001#32 = .ok (.quantCheck noF) := by decide
theorem test_decode_oscillator : decode 0b00000000000000000000000101010000#32 = .ok (.oscStart (subF 1))
    ∧ decode 0b00000000000000000000000101010001#32 = .ok (.oscSetFreq (subF 1))
    ∧ decode 0b00000000001100000000000001010010#32 = .ok (.oscProcess (lenF 48)) := by decide
theorem test_decode_edge : decode 0b00000000000000000000000001100000#32 = .ok (.edgeRising (subF 0))
    ∧ decode 0b00000000000000000000000101100001#32 = .ok (.edgeFalling (subF 1)) := by decide
theorem test_decode_rejects_by_name : decode 0xFFFFFF02#32 = .error (.illegalOpcode 0x02)
    ∧ decodeBytes [0x22, 0x00] = .error (.tooShort 2) := by decide
theorem test_decode_bytes_little_endian :
    decodeBytes [0x10, 0x00, 0x30, 0x00, 0xAA] = .ok (.bufAppend (lenF 48), [0xAA]) := by decide
theorem test_decodeTableWord : decodeTableWord 8 0x41 = some (.quantCheck noF)
    ∧ decodeTableWord 32 0x00300052 = some (.oscProcess (lenF 48)) ∧ decodeTableWord 8 0x02 = none := by decide

/-! The bus and STATUS (95_test_vectors.md 2.1, 2.2, 2.9) -/

/-- One step of the reset state on one input. -/
def stepOn (e : Input) (s : State) : Host.Outcome State Fault Refusal := step { s with pending := [e] }

theorem test_X1_constants : readReg 0x0000 State.reset = 0x42570001#32 ∧ readReg 0x0020 State.reset = 0x473B8000#32
    ∧ readReg 0x0024 State.reset = 0x00001000#32 ∧ readReg 0x0028 State.reset = 0x00000030#32 := by decide
theorem test_V1_unaligned_read : answers (stepOn (.busRead 0x0002 4) State.reset)
    (fun t => t.response == some (.readError 0) && t.status == State.reset.status) = true := by decide
theorem test_V2_byte_write_of_cmd : answers (stepOn (.busWrite 0x0008 1 0x01) State.reset)
    (fun t => t.response == some .writeError && t.cmd == 0) = true := by decide
theorem test_V5_unassigned : answers (stepOn (commandWrite 0x00000002) State.reset)
    (fun t => readReg 0x0004 t == 0x00000101#32 && readReg 0x0008 t == 0x00000002#32) = true := by decide
theorem test_V8_reserved_bit : answers (stepOn (commandWrite 0x00001000) State.reset)
    (fun t => readReg 0x0004 t == 0x00000102#32) = true := by decide
theorem test_V13_field_before_started : answers (stepOn (commandWrite 0x00000351) State.reset)
    (fun t => readReg 0x0004 t == 0x00000102#32) = true := by decide
theorem test_V14_started_before_argument : answers (stepOn (commandWrite 0x00000051) (withArg 0x7FC00000#32))
    (fun t => readReg 0x0004 t == 0x00000104#32) = true := by decide
theorem test_V18_clear_error : answers (stepOn (.busWrite 0x0004 4 0xFFFFFFFF)
      { State.reset with status := { code := .badArg, err := true } })
    (fun t => readReg 0x0004 t == 0x00000003#32) = true := by decide
theorem test_write_then_read_back : answers (stepOn (.busWrite 0x0140 4 0x7FC00001) (quantA 0))
    (fun t => readReg 0x0140 t == 0x7FC00001#32 && readByte 0x0141 t == 0x00 && readByte 0x0143 t == 0x7F) = true := by
  decide +kernel
theorem test_idle_waits : answers (step State.reset) (fun t => t.pending == [] && t.cmd == 0) = true := by decide
theorem test_fetch_word : answers (step (State.reset.withFetchWord 8 0x22)) (fun t => t.snap.armed) = true := by decide

/-! Commands, from the worked examples and the derived vectors -/

theorem test_C1_nop_keeps_err : answers (exec (.nop noF) { State.reset with status := { code := .badArg, err := true } })
    (fun t => readReg 0x0004 t == 0x00000100#32) = true := by decide
theorem test_C2_soft_reset : answers (exec (.softReset noF) { withBlock [5] with window := [1, 2], gateIn := true })
    (fun t => t.window == [] && t.cmd == 1 && readReg 0x0200 t == 0 && t.gateIn) = true := by decide +kernel
theorem test_C3_soft_reset_bad_field : answers (exec (.softReset (lenF 1)) { State.reset with window := [7] })
    (fun t => t.window == [7] && readReg 0x0004 t == 0x00000102#32) = true := by decide
theorem test_B1_append : answers (exec (.bufAppend (lenF 3)) (withBlock [0x3F800000, 0x40000000, 0x40400000]))
    (fun t => readReg 0x0040 t == 3 && readReg 0x4008 t == 0x40400000#32 && readReg 0x400C t == 0) = true := by decide
theorem test_append_evicts_straddling :
    appendWindow 4 [1, 2, 3] [10, 11] = ([2, 3, 10, 11] : List Word) := by decide +kernel
theorem test_B5_not_full : answers (exec (.bufIsFull noF) { State.reset with result0 := 9, result1 := 9 })
    (fun t => t.result0 == 0 && t.result1 == 9) = true := by decide
theorem test_Z1_alternating : answers (exec (.zcProcess (lenF 4)) (withBlock [0x3F800000, 0xBF800000, 0xBF800000, 0x3F800000]))
    (fun t => t.zc == { hasPrev := true, last := 0x3F800000, count := 4, hasCross := true, lastPos := 3, freq := 0x46BB8000 }
      && t.result0 == 0x46BB8000 && t.result1 == 2) = true := by decide +kernel
theorem test_Z13_counter_wraps : answers (exec (.zcProcess (lenF 1)) { withBlock [0xBF800000] with
      zc := { hasPrev := true, last := 0x3F800000, count := 0xFFFFFFFF, hasCross := true, lastPos := 0xFFFFFFFD, freq := 0 } })
    (fun t => t.zc.freq == 0x46BB8000 && t.zc.lastPos == 0xFFFFFFFF && t.zc.count == 0) = true := by decide
theorem test_Z4_Z5_no_crossing : crossing 0x00000000#32 0x80000000#32 = false ∧ crossing 0x3F800000#32 0x7FC00000#32 = false
    ∧ crossing 0x7FC00000#32 0xBF800000#32 = false ∧ crossing 0x80000000#32 0x3F800000#32 = true := by decide
theorem test_Z12_zc_reset : answers (exec (.zcReset noF) { State.reset with
      zc := { hasPrev := true, last := 1, count := 4, hasCross := true, lastPos := 3, freq := 5 }, result1 := 2 })
    (fun t => t.zc == ZcState.cleared && t.result1 == 2) = true := by decide
theorem test_Z14_snap_start : answers (exec (.snapStart noF) State.reset) (fun t => readReg 0x0064 t == 1) = true := by decide
theorem test_Z19_short_capture : answers (exec (.zcProcess (lenF 1)) { withBlock [0x40A00000] with
      snap := { armed := true, ready := true, words := staged [7, 8] } })
    (fun t => readReg 0x0300 t == 0x40A00000#32 && readReg 0x0304 t == 8 && readReg 0x0064 t == 2) = true := by decide +kernel
theorem test_Z15_snap_check : answers (exec (.snapCheck noF) { State.reset with
      snap := { armed := true, ready := false, words := staged [] } })
    (fun t => t.result0 == 0 && t.result1 == 1) = true := by decide
theorem test_Z18_snap_complete : answers (exec (.snapComplete noF) { State.reset with
      snap := { armed := true, ready := true, words := staged [9] } })
    (fun t => readReg 0x0064 t == 1 && readReg 0x0300 t == 9) = true := by decide
theorem test_F7_silence : answers (exec (.specEstimate (lenF 3)) { State.reset with
      window := List.replicate 8 0x80000000, spec := { freq := 5, bin := 6 } })
    (fun t => t.spec == { freq := 0, bin := 0 } && t.status.code == .ok) = true := by decide +kernel
theorem test_F12_history_before_argument : answers (exec (.specEstimate (lenF 3)) { State.reset with
      window := [0x7FC00000, 0x3F800000] })
    (fun t => readReg 0x0004 t == 0x00000105#32) = true := by decide
theorem test_bin_frequency : binFreq Config.sampleRate 16 4 = 0x463B8000#32 ∧ binFreq Config.sampleRate 2 1 = 0x46BB8000#32 := by
  decide
theorem test_peak_keeps_lower_bin : peakBin (fun k => if k = 1 ∨ k = 3 then one32 else posZero) 4 = 1 := by decide
theorem test_Q1_equal_to_threshold : answers (exec (.quantRemap noF) (quantA 0x40400000))
    (fun t => t.result0 == 0x427C0000 && t.result1 == 3 && t.status.code == .ok) = true := by decide
theorem test_Q9_nan : answers (exec (.quantRemap noF) (quantA 0x7FC00000))
    (fun t => t.result0 == 0x42700000 && t.result1 == 0 && readReg 0x0004 t == 0x00000106#32) = true := by decide
theorem test_Q10_first_match : toneOf (tableA.set 5 0x41200000) 0x40E00000#32 = some 4
    ∧ toneOf (tableA.set 5 0x7FC00000) 0x40900000#32 = none ∧ toneOf tableA 0xBF800000#32 = some 0
    ∧ toneOf tableA 0x41800000#32 = some 15 ∧ toneOf tableA 0x403FFFFF#32 = some 2 := by decide
theorem test_Q12_check : answers (exec (.quantCheck noF) (quantA 0)) (fun t => t.result0 == 1 && t.result1 == 16) = true := by
  decide
theorem test_Q13_Q16_unordered : firstUnordered (tableA.set 5 0x40800000) = 4 ∧ firstUnordered (tableA.set 5 0x41200000) = 5
    ∧ firstUnordered (tableA.set 5 0x7FC00000) = 4
    ∧ firstUnordered ((tableA.set 0 0x80000000).set 1 0x00000000) = 0 := by decide
theorem test_O1_tuning_of_440 : tune Config.ratio Config.sampleRate 0x43DC0000#32 = some
    { freq := #v[0x43DC0000#32, 0x44250000#32, 0x4412AAAB#32, 0x445C0000#32]
      inc := #v[0x0258BF26#32, 0x03851EB8#32, 0x0320FEDF#32, 0x04B17E4B#32] } := by decide +kernel
theorem test_O6_negative : (tune Config.ratio Config.sampleRate 0xC63B8000#32).map (·.inc) =
    some #v[0xC0000000#32, 0xA0000000#32, 0xAAAAAAAB#32, 0x80000000#32] := by decide +kernel
theorem test_O4_start : answers (exec (.oscStart noF) (withArg 0x463B8000#32)) (fun t => t.osc == bankO4) = true := by decide +kernel
theorem test_O8_overflow : answers (exec (.oscStart noF) (withArg 0x7F7FFFFF#32))
    (fun t => readReg 0x0004 t == 0x00000103#32 && !t.osc.started) = true := by decide +kernel
theorem test_O13_retune_keeps_phase : answers (exec (.oscSetFreq noF) { withArg 0x473B8000#32 with
      osc := { bankO4 with phase := Vector.replicate 4 0x12345678 } })
    (fun t => t.osc.inc == #v[0x00000000#32, 0x80000000#32, 0x55555555#32, 0x00000000#32]
      && t.osc.phase == Vector.replicate 4 0x12345678) = true := by decide +kernel
theorem test_O5_process : answers (exec (.oscProcess (lenF 2)) { State.reset with osc := bankO4 })
    (fun t => t.osc.phase == #v[0x80000000#32, 0xC0000000#32, 0xAAAAAAAA#32, 0x00000000#32]
      && readReg 0x0400 t == 0 && readReg 0x0404 t == 0x3F333333#32 && readReg 0x0704 t == 0) = true := by decide
theorem test_O10_not_started : answers (exec (.oscProcess (lenF 1)) State.reset)
    (fun t => readReg 0x0004 t == 0x00000104#32) = true := by decide
theorem test_E1_E2_sequences :
    edgeResults (.edgeRising (subF 1)) [0, 0, 0x3F800000, 0x3F800000, 0] State.reset = [0, 0, 1, 0, 0] ∧
    edgeResults (.edgeFalling (subF 1)) [0, 0, 0x3F800000, 0x3F800000, 0] State.reset = [0, 0, 0, 0, 1] := by decide
theorem test_E5_nan_reads_high :
    edgeResults (.edgeFalling (subF 1)) [0x7FC00000, 0] State.reset = [0, 1] := by decide
theorem test_E7_pin : answers (exec (.edgeRising noF) { State.reset with gateIn := true, edge := { hasLast := true, last := 0 } })
    (fun t => t.result0 == 1 && t.edge.last == one32) = true := by decide

/-! Arithmetic (R18, R22) -/

theorem test_rounding : F32.rne32 4 3 = 0x3FAAAAAB#32 ∧ F32.rne32 7 10 = 0x3F333333#32 ∧ F32.rne32 48000 1 = 0x473B8000#32
    ∧ F32.rne32 0 1 = 0x00000000#32 ∧ F32.rne32 (2 ^ 24 + 1) 1 = 0x4B800000#32 ∧ F32.rne32 1 (2 ^ 149) = 0x00000001#32
    ∧ F32.rne32 1 (2 ^ 150) = 0x00000000#32 ∧ F32.rne32 (2 ^ 128) 1 = 0x7F800000#32 := by decide +kernel
theorem test_product_signs : F32.mul 0xC63B8000#32 0x3FC00000#32 = 0xC68CA000#32 ∧ F32.mul 0x3F333333#32 0x80000000#32 = 0x80000000#32
    ∧ F32.mul 0x7F7FFFFF#32 0x3FC00000#32 = 0x7F800000#32 ∧ F32.mul 0x7F800000#32 0x00000000#32 = F32.quietNaN := by decide +kernel

/-- Two ties broken to even, one underflow to zero, one tie between subnormals, an overflow, and the sign of a zero. -/
theorem test_product_rounding : F32.mul 0x3F800001#32 0x3F800001#32 = 0x3F800002#32
    ∧ F32.mul 0x3F800003#32 0x3FC00000#32 = 0x3FC00004#32 ∧ F32.mul 0x00000001#32 0x3F000000#32 = 0x00000000#32
    ∧ F32.mul 0x80000003#32 0x3F000000#32 = 0x80000002#32 ∧ F32.mul 0x7F000000#32 0xC0000000#32 = 0xFF800000#32
    ∧ F32.mul 0x00000000#32 0xC0000000#32 = 0x80000000#32 := by decide +kernel

/-! The host assembly (R125 to R129) -/

theorem test_assemble : assembleCmd .edgeFalling { src := some .arg0 } = some (.edgeFalling (subF 1))
    ∧ assembleCmd .specEstimate { l := some 12 } = some (.specEstimate (lenF 12))
    ∧ assembleCmd .bufAppend { l := some 3 } = none ∧ assembleCmd .bufAppend { len := some 49 } = none
    ∧ assembleCmd .bufAppend { len := some 65 } = none ∧ assembleCmd .oscStart { src := some .pin } = none := by decide
theorem test_pseudo_instructions :
    lineAccesses 0 (.ingest 4) = some [commandWrite 0x00040010, commandWrite 0x00040020] ∧
    lineAccesses 0 .clrerr = some [.busWrite 0x0004 4 0x00000100] ∧
    lineAccesses 0 (.rd (.outBlk 2 0)) = some [.busRead 0x0600 4] ∧
    lineAccesses 0 (.loadblk [.hex 7, .hex 8]) = some [.busWrite 0x0200 4 7, .busWrite 0x0204 4 8] ∧
    programAccesses 0 (.rep 2 (.line .track .done) .done) = some [commandWrite 0x00000151, commandWrite 0x00000151] := by
  decide

theorem test_boot_and_block_loop :
    (programAccesses 0 (linesProgram (bootLines tableA tonesA 0x43DC0000))).map List.length = some 41 ∧
    programAccesses 0 (linesProgram (blockLines [7] (some 1) .spec)) = some [.busWrite 0x0200 4 7, commandWrite 0x00010010,
      commandWrite 0x00010020, commandWrite 0x00010030, commandWrite 0x00000251, commandWrite 0x00010052, .busRead 0x0400 4,
      .busRead 0x0500 4, .busRead 0x0600 4, .busRead 0x0700 4] := by decide +kernel

/-! Witnesses: for each statement with hypotheses, a concrete case that meets them together, at the ends of its ranges -/

/-- The reset state with one pending input. -/
def withInput (e : Input) : State := { State.reset with pending := [e] }

/-- The state a command leaves at a state, or that state itself where it does not answer one. -/
def after (i : Instr) (s : State) : State :=
  match exec i s with
  | .next t => t
  | .fault _ => s
  | .refused _ => s

theorem witness_DecodeAndEncodeAgree : decode 0xFFC0F000#32 = .ok (.nop ⟨0, 0, 15, 1023⟩) := by decide
theorem witness_EncodedWordIsLenSubOp : (Instr.edgeFalling (subF 1)).wellFormed = true
    ∧ encode (.edgeFalling (subF 1)) = 0x00000161#32 := by decide
theorem witness_UnassignedOpcodesAreTheListedRanges :
    [0x02, 0x0F, 0x12, 0x1F, 0x25, 0x2F, 0x31, 0x3F, 0x42, 0x4F, 0x53, 0x5F, 0x62, 0xFF].all
      (fun o => (commandOf o).isNone) = true ∧
    [0x00, 0x01, 0x10, 0x11, 0x20, 0x24, 0x30, 0x40, 0x41, 0x50, 0x52, 0x60, 0x61].all
      (fun o => (commandOf o).isSome) = true := by decide
theorem witness_RegisterMapAgreesBothWays :
    [(Reg.id, 0x0000), (.oscFund, 0x0094), (.oscFreq 3, 0x00AC), (.oscInc 0, 0x00B0), (.oscPhase 3, 0x00CC), (.qthr 16, 0x0140),
      (.qremap 15, 0x01BC), (.inBlk 47, 0x02BC), (.snap 47, 0x03BC), (.outBlk 0 0, 0x0400), (.outBlk 3 47, 0x07BC),
      (.bufWin 0, 0x4000), (.bufWin 4095, 0x7FFC)].all
      (fun (row : Reg × Nat) => row.1.offset? == some row.2 && regAt (BitVec.ofNat 15 row.2) == row.1) = true := by decide +kernel
theorem witness_StepRunsTheDecodedCommand : (withInput (commandWrite 0x22)).pending = commandWrite 0x22 :: []
    ∧ decode 0x22 = .ok (.snapStart noF) := by decide
theorem witness_UnassignedOpcodeEndsIllegal : (withInput (commandWrite 0xFFFFFF02)).pending = commandWrite 0xFFFFFF02 :: []
    ∧ decode 0xFFFFFF02 = .error (.illegalOpcode 0x02) := by decide
theorem witness_IllegalAccessIsBusErrorOnly :
    (withInput (.busRead 0x0002 4)).pending = .busRead 0x0002 4 :: [] ∧ (0x0002 : Offset).toNat % 4 ≠ 0 ∧
    (withInput (.busWrite 0x0008 1 0x01)).pending = .busWrite 0x0008 1 0x01 :: [] ∧ (1 : Nat) ≠ 4 := by decide
theorem witness_LegalReadHasNoSideEffect : (withInput (.busRead 0x7FFC 4)).pending = .busRead 0x7FFC 4 :: []
    ∧ (0x7FFC : Offset).toNat % 4 = 0 := by decide
theorem witness_WordIsItsFourByteLanes : 0 < 0x2000 ∧ 0x1FFF < 0x2000 ∧
    readReg (BitVec.ofNat 15 (4 * 0)) State.reset = 0x42570001#32 ∧ readByte (BitVec.ofNat 15 (4 * 0 + 3)) State.reset = 0x42 := by
  decide
theorem witness_ReservedOffsetsReadZeroIgnoreWrites :
    [0x0018, 0x001C, 0x002C, 0x003C, 0x0044, 0x004C, 0x0068, 0x006C, 0x0078, 0x007C, 0x0088, 0x008C, 0x0098, 0x009C, 0x00D0,
      0x00FC, 0x0144, 0x017C, 0x01C0, 0x01FC, 0x02C0, 0x02FC, 0x03C0, 0x03FC, 0x04C0, 0x04FC, 0x07C0, 0x07FC, 0x0800, 0x3FFC].all
      (fun a => a % 4 == 0 && regAt (BitVec.ofNat 15 a) == .reserved) = true ∧
    (withInput (.busRead 0x3FFC 4)).pending = .busRead 0x3FFC 4 :: [] ∧
    (withInput (.busWrite 0x0018 4 5)).pending = .busWrite 0x0018 4 5 :: [] := by decide +kernel
theorem witness_HostWriteChangesOnlyItsWord :
    (withInput (.busWrite 0x000C 4 7)).pending = .busWrite 0x000C 4 7 :: [] ∧ (0x000C : Offset).toNat % 4 = 0 ∧
      (0x000C : Offset) ≠ cmdOffset ∧ hostWritable (regAt 0x000C) = true ∧ hostWritable (regAt 0x02BC) = true ∧
    hostWritable (regAt 0x0010) = false ∧ regAt 0x0010 ≠ .status ∧ hostWritable (regAt 0x7FFC) = false ∧
    (0x0010 : Offset).toNat / 4 ≠ (0x000C : Offset).toNat / 4 := by decide +kernel
theorem witness_StatusWriteClearsErrOnly :
    (withInput (.busWrite 0x0004 4 0x00000100)).pending = .busWrite 0x0004 4 0x00000100 :: [] ∧
    (0x00000100#32).getLsbD 8 = true ∧ (0xFFFFFEFF#32).getLsbD 8 = false := by decide
theorem witness_BufferWindowReadsTheWindow : 4095 < 4096 ∧ ¬4095 < ({ State.reset with window := [7] } : State).window.length
    ∧ 0 < ({ State.reset with window := [7] } : State).window.length := by decide
theorem witness_BadFieldExactlyWhenIllFormed : (Instr.bufAppend (lenF 49)).wellFormed = false
    ∧ (Instr.bufAppend (lenF 48)).wellFormed = true ∧ (exec (.bufAppend (lenF 48)) State.reset = .next (after (.bufAppend (lenF 48)) State.reset)) :=
  ⟨by decide, by decide, rfl⟩
theorem witness_ErrorsChangeStatusOnly :
    exec (.oscProcess (lenF 0)) State.reset = .next (after (.oscProcess (lenF 0)) State.reset) ∧
    (statusByte (after (.oscProcess (lenF 0)) State.reset).status.code).toNat = 2 ∧
    exec (.specEstimate (lenF 1)) State.reset = .next (after (.specEstimate (lenF 1)) State.reset) ∧
    (statusByte (after (.specEstimate (lenF 1)) State.reset).status.code).toNat = 5 := ⟨rfl, rfl, rfl, rfl⟩
theorem witness_ErrStaysUntilCleared :
    let s := { withInput (commandWrite 0) with status := { code := .badArg, err := true } }
    (∃ t, step s = .next t) ∧ s.status.err = true ∧ ¬ResetNext s ∧
      ∀ data : Word, data.getLsbD 8 = true → nextInput s ≠ some (.busWrite 0x0004 4 data) := by
  refine ⟨⟨_, rfl⟩, rfl, by unfold ResetNext; decide, fun data _ => ?_⟩
  simp [nextInput, withInput, commandWrite, cmdOffset]
theorem witness_CommandWritesOnlyItsElements :
    exec (.zcReset noF) State.reset = .next (after (.zcReset noF) State.reset) ∧ mayWrite (.zcReset noF) (regAt 0x0050) = true ∧
      mayWrite (.zcReset noF) (regAt 0x004C) = false ∧ mayWrite (.zcReset noF) (regAt 0x0064) = false := ⟨rfl, rfl, rfl, rfl⟩
theorem witness_GateLevelUnseenByOtherCommands :
    exec (.edgeRising (subF 1)) State.reset = .next (after (.edgeRising (subF 1)) State.reset) ∧
      ∀ f : Fields, f.sub = 0 → Instr.edgeRising (subF 1) ≠ .edgeRising f ∧ Instr.edgeRising (subF 1) ≠ .edgeFalling f := by
  refine ⟨rfl, fun f hf => ⟨fun h => ?_, by simp⟩⟩
  have h1 : subF 1 = f := by simpa using h
  exact absurd (h1 ▸ hf) (by decide)
theorem witness_QuantizerTableUnseenByOtherCommands :
    exec (.edgeRising noF) State.reset = .next (after (.edgeRising noF) State.reset) ∧
      ∀ f : Fields, Instr.edgeRising noF ≠ .quantRemap f ∧ Instr.edgeRising noF ≠ .quantCheck f ∧ Instr.edgeRising noF ≠ .softReset f :=
  ⟨rfl, fun _ => by simp⟩
theorem witness_ResetReadsTheResetColumn : (withInput .reset).pending = .reset :: [] := rfl
theorem witness_SoftResetResetsTheBlock : (Instr.softReset noF).wellFormed = true := by decide

/-- A state with every component of the invariant at work: a window, an estimate, a peak, a reading and a running bank. -/
def busyState : State := { withInput (commandWrite 0x00010052) with
  window := [one32, one32]
  zc := { hasPrev := true, last := one32, count := 4, hasCross := true, lastPos := 3, freq := 0x46BB8000 }
  spec := { freq := 0x46BB8000, bin := 1 }
  edge := { hasLast := true, last := one32 }
  osc := bankO4
  outBlk := Vector.replicate 4 (Vector.replicate 48 0xBF333333) }

theorem witness_StepKeepsInv : Inv busyState ∧ ∃ t, step busyState = .next t := by
  refine ⟨⟨by decide, nofun, nofun, .inr ⟨2, by decide, by decide, by decide⟩, ⟨1, 1, by decide, by decide, by decide, rfl, by decide⟩,
    .inr ⟨rfl, rfl⟩, nofun, fun _ => by decide +kernel, fun v j => ?_⟩, _, rfl⟩
  simp only [busyState, Fin.getElem_fin, Vector.getElem_replicate]
  decide
theorem witness_FillNeverDecreasesExceptAtReset : Memory.wf busyState ∧ ¬ResetNext busyState ∧ ∃ t, step busyState = .next t :=
  ⟨by decide, by unfold ResetNext; decide, _, rfl⟩
theorem witness_NopOnlySetsCode : (Instr.nop noF).wellFormed = true := by decide
theorem witness_BufAppendKeepsMostRecent : (Instr.bufAppend (lenF 1)).wellFormed = true ∧ (Instr.bufAppend (lenF 48)).wellFormed = true := by
  decide
theorem witness_WindowIsTailOfAllAppends : State.reset.window = [] ∧
    ∀ b ∈ [(staged [1, 2], lenF 2), (staged [3], lenF 1)], (Instr.bufAppend b.2).wellFormed = true := by decide
theorem witness_BufIsFullReportsFullness : (Instr.bufIsFull noF).wellFormed = true
    ∧ ({ State.reset with window := List.replicate 4096 0 } : State).window.length = 4096 := ⟨by decide, List.length_replicate⟩
theorem witness_RingRefinesTheWindow : Ring.wf (⟨#v[5, 6, 3, 4], 2, 4⟩ : Ring 4)
    ∧ ringWindow (⟨#v[5, 6, 3, 4], 2, 4⟩ : Ring 4) = ([3, 4, 5, 6] : List Word) ∧ Ring.wf (⟨#v[0, 0, 0, 0], 0, 0⟩ : Ring 4) :=
  ⟨⟨by decide, by decide⟩, by decide, by decide, by decide⟩
theorem witness_CrossingFollowsTheClassTable : F32.isNaN 0x7F800001#32 = true ∧ F32.isNaN 0x7F800000#32 = false
    ∧ classOf 0x7F800001#32 = .unord ∧ classOf 0x7F800000#32 = .pos ∧ classOf 0x80000000#32 = .zero ∧ classOf 0x80000001#32 = .neg := by
  decide

/-- The block 1.0, -1.0, -1.0, 1.0 of vector Z1. -/
def blockZ1 : State := withBlock [0x3F800000, 0xBF800000, 0xBF800000, 0x3F800000]

theorem witness_ZcProcessResult :
    (Instr.zcProcess (lenF 4)).wellFormed = true ∧
    (crossingPositions blockZ1.zc (blockZ1.inBlk.toList.take 4)).reverse.take 2 = [3, 1] ∧
    crossingPositions blockZ1.zc (blockZ1.inBlk.toList.take 2) = [1] ∧
    crossingPositions blockZ1.zc (blockZ1.inBlk.toList.take 1) = [] ∧
    crossingPositions { blockZ1.zc with hasPrev := true, last := 0xBF800000 } (blockZ1.inBlk.toList.take 1) = [0] ∧
    blockZ1.snap.armed = false ∧ ({ armed := true, ready := false, words := staged [] } : SnapState).armed = true := by decide
theorem witness_ZcIndependentOfBlockSplit :
    (∀ b ∈ [(staged [1, 0x80000001], lenF 2)], (Instr.zcProcess b.2).wellFormed = true) ∧
    (∀ b ∈ [(staged [1], lenF 1), (staged [0x80000001], lenF 1)], (Instr.zcProcess b.2).wellFormed = true) ∧
    ([(staged [1, 0x80000001], lenF 2)].map StagedBlock.samples).flatten
      = ([(staged [1], lenF 1), (staged [0x80000001], lenF 1)].map StagedBlock.samples).flatten ∧
    State.reset.zc = ZcState.cleared ∧
    (crossingPositions State.reset.zc ([(staged [1, 0x80000001], lenF 2)].map StagedBlock.samples).flatten).getLast? = some 1 := by
  decide
/-- A signal begun negative, one sample into a half period of two, in blocks of one and three samples. -/
def toneBlocks : List StagedBlock := [(staged [0xBF800000], lenF 1), (staged [one32, one32, 0xBF800000], lenF 3)]

theorem witness_PureToneReportsRateOverHalfPeriod :
    (∀ b ∈ toneBlocks, (Instr.zcProcess b.2).wellFormed = true) ∧ State.reset.zc = ZcState.cleared ∧
    (toneBlocks.map StagedBlock.samples).flatten = [0xBF800000#32, one32, one32, 0xBF800000#32] ∧
    2 * 2 - 1 < 4 ∧ (∀ j, j < 4 → classOf ([0xBF800000#32, one32, one32, 0xBF800000#32].getD j 0) =
      if (j + 1) / 2 % 2 = 0 then SampleClass.neg else SampleClass.pos) ∧
    2 * 1 - 0 < 3 ∧ (∀ j, j < 3 → classOf ([one32, 0xBF800000#32, one32].getD j 0) =
      if (j + 0) / 1 % 2 = 0 then SampleClass.pos else SampleClass.neg) ∧
    crossingsReported toneBlocks State.reset = 2 := by decide +kernel
theorem witness_ZcResetClearsDetectorOnly : (Instr.zcReset noF).wellFormed = true := by decide
theorem witness_SnapshotCommandsTouchTheirFlag : (Instr.snapStart noF).wellFormed = true ∧ (Instr.snapCheck noF).wellFormed = true
    ∧ (Instr.snapComplete noF).wellFormed = true := by decide
theorem witness_OneArmingOneCapture : (Instr.snapStart noF).wellFormed = true ∧
    ∀ x ∈ [(staged [1, 2], lenF 2), (staged [3], lenF 1)], (Instr.zcProcess x.2).wellFormed = true := by decide

/-- The fields L = 1 and windows of two samples. -/
def withWindow (w : List Word) : State := { State.reset with window := w }

theorem witness_SpecEstimateFindsLowestPeak : (Instr.specEstimate (lenF 1)).wellFormed = true ∧
    2 ^ (lenF 1).len.toNat ≤ (withWindow [one32, 0xBF800000]).window.length ∧
    ∀ w ∈ (withWindow [one32, 0xBF800000]).window.drop (2 - 2 ^ (lenF 1).len.toNat), F32.finite w = true := ⟨by decide, by decide, List.all_eq_true.1 (by decide)⟩
theorem witness_SpecEstimateErrorsInOrder : (Instr.specEstimate (lenF 1)).wellFormed = true ∧
    (withWindow [0x7FC00000]).window.length < 2 ^ (lenF 1).len.toNat ∧
    2 ^ (lenF 1).len.toNat ≤ (withWindow [0x7FC00000, one32]).window.length ∧
    ∃ w ∈ (withWindow [0x7FC00000, one32]).window.drop (2 - 2 ^ (lenF 1).len.toNat), F32.finite w = false := 
  ⟨by decide, by decide, by decide, 0x7FC00000#32, .head _, by decide⟩
theorem witness_SilenceGivesBinZero : (Instr.specEstimate (lenF 1)).wellFormed = true ∧
    2 ^ (lenF 1).len.toNat ≤ (withWindow [0x00000000, 0x80000000]).window.length ∧
    ∀ w ∈ (withWindow [0x00000000, 0x80000000]).window.drop (2 - 2 ^ (lenF 1).len.toNat), F32.eq w posZero = true := 
  ⟨by decide, by decide, List.all_eq_true.1 (by decide)⟩
theorem witness_BinFrequencyIsExact : 1 ≤ 1 ∧ 1 ≤ 12 ∧ 1 ≤ 2 ^ 1 / 2 ∧ 12 ≤ 12 ∧ 2048 ≤ 2 ^ 12 / 2 := by decide
/-- The magnitudes of vector F2, N = 2 and input 1.0, -1.0: +0.0 and rne32(0.16). -/
def magF2 (k : ℕ) : Word := if k = 0 then posZero else 0x3E23D70A#32

theorem val_F2 : F32.val one32 = 1 ∧ F32.val 0xBF800000#32 = -1 ∧ F32.val 0x3E23D70A#32 = 5368709 / 2 ^ 25 ∧ F32.val posZero = 0 := by
  have h1 : F32.ival one32 = 2 ^ 149 := by decide
  have h2 : F32.ival 0xBF800000#32 = -2 ^ 149 := by decide
  have h3 : F32.ival 0x3E23D70A#32 = 5368709 * 2 ^ 124 := by decide
  have h4 : F32.ival posZero = 0 := by decide
  simp only [F32.val, h1, h2, h3, h4]
  norm_num

theorem absSum_F2 : absSum [one32, 0xBF800000#32] = 2 := by
  obtain ⟨v1, v2, -, -⟩ := val_F2
  simp only [absSum, List.map, List.sum_cons, List.sum_nil, v1, v2]; norm_num

/-- The reference magnitudes of vector F2 are 0 and 0.16 (w = 0.08, 0.08). -/
theorem ref_F2 (k : ℕ) (hk : k ≤ 1) : IsRefMagnitude 2 [one32, 0xBF800000#32] k (if k = 0 then 0 else 0.16) := by
  obtain ⟨v1, v2, -, -⟩ := val_F2
  obtain rfl | rfl : k = 0 ∨ k = 1 := by omega
  · simp only [IsRefMagnitude, Finset.sum_range_succ, Finset.sum_range_zero, List.getD_cons_zero, List.getD_cons_succ, v1, v2]
    norm_num
  · have he : Complex.exp (-2 * Real.pi * Complex.I * (1 : ℕ) * (1 : ℕ) / (2 : ℕ)) = -1 := by
      rw [← Complex.exp_neg_pi_mul_I]; congr 1; push_cast; ring
    simp only [IsRefMagnitude, Finset.sum_range_succ, Finset.sum_range_zero, List.getD_cons_zero, List.getD_cons_succ, v1, v2, he]
    norm_num

/-- A block whose SpecMag answers the magnitudes of vector F2. -/
def paramsF2 : Params := { Config.params with specMagFree := fun _ _ k => magF2 k }

/-- The magnitudes of vector F2 are accurate to 0.01 for its input. -/
theorem accurate_F2 : SpectrumAccurate (specMagFor paramsF2.specMagFree) 0.01 2 [one32, 0xBF800000#32] := by
  obtain ⟨-, -, v3, v4⟩ := val_F2
  intro k m hk hm
  obtain rfl : m = if k = 0 then 0 else 0.16 := hm.trans (ref_F2 k hk).symm
  rw [absSum_F2]
  obtain rfl | rfl : k = 0 ∨ k = 1 := by omega
  · have h : specMagFor paramsF2.specMagFree 2 [one32, 0xBF800000#32] 0 = posZero := by decide
    rw [h, v4]
    exact ⟨fun _ => by norm_num, fun hf => absurd hf (by decide)⟩
  · have h : specMagFor paramsF2.specMagFree 2 [one32, 0xBF800000#32] 1 = 0x3E23D70A#32 := by decide
    rw [h, v3]
    exact ⟨fun _ => by norm_num [abs_le], fun hf => absurd hf (by decide)⟩

theorem witness_PeakIsDeterminateWithMargin :
    (Instr.specEstimate (lenF 1)).wellFormedFor paramsF2.specLmax = true ∧
    2 ^ (lenF 1).len.toNat ≤ (withWindow [one32, 0xBF800000]).window.length ∧
    (withWindow [one32, 0xBF800000]).window.drop (2 - 2 ^ (lenF 1).len.toNat) = [one32, 0xBF800000#32] ∧
    (∀ w ∈ [one32, 0xBF800000#32], F32.finite w = true) ∧
    SpectrumAccurate (specMagFor paramsF2.specMagFree) 0.01 2 [one32, 0xBF800000#32] ∧ 1 ≤ 2 / 2 ∧
    (∀ k, k ≤ 2 / 2 → IsRefMagnitude 2 [one32, 0xBF800000#32] k (if k = 0 then 0 else 0.16)) ∧
    (∀ k : ℕ, k ≤ 2 / 2 → k ≠ 1 → (if k = 0 then 0 else 0.16) ≤ ((maxFinite : ℚ) : ℝ) ∧
      (if k = 0 then 0 else 0.16) + 2 * (0.01 * ((absSum [one32, 0xBF800000#32] : ℚ) : ℝ)) < (if 1 = 0 then 0 else 0.16 : ℝ)) := by
  refine ⟨by decide, by decide, rfl, List.all_eq_true.1 (by decide), accurate_F2, by decide, fun k hk => ref_F2 k hk,
    fun k hk hk1 => ?_⟩
  obtain rfl : k = 0 := by omega
  have hmax : (0 : ℚ) ≤ maxFinite := by
    rw [maxFinite, F32.val, show F32.ival 0x7F7FFFFF#32 = (2 ^ 24 - 1) * 2 ^ 253 by decide]; positivity
  rw [absSum_F2]
  exact ⟨by simpa using hmax, by norm_num⟩
theorem witness_QuantRemapPartitionsTheLine : (Instr.quantRemap noF).wellFormed = true ∧
    StrictlyIncreasing (quantA 0x40400000).qthr ∧ F32.isNaN (quantA 0x40400000).arg0 = false :=
  ⟨by decide, ⟨by decide, by decide⟩, by decide⟩
theorem witness_QuantRemapFirstMatchOnAnyTable : (Instr.quantRemap noF).wellFormed = true ∧
    F32.lt 0xBF800000#32 tableA[0] = true ∧
    (F32.lt 0x41800000#32 tableA[0] = false ∧ F32.le tableA[16] 0x41800000#32 = true) ∧
    (F32.lt 0x00000000#32 tableA[0] = false ∧ F32.le tableA[16] 0x00000000#32 = false ∧
      inInterval tableA 0x00000000#32 0 = true ∧ ∀ m : Fin 16, m < 0 → inInterval tableA 0x00000000#32 m = false) ∧
    (F32.lt 0x7FC00000#32 tableA[0] = false ∧ F32.le tableA[16] 0x7FC00000#32 = false ∧
      ∀ k : Fin 16, inInterval tableA 0x7FC00000#32 k = false) := by decide
theorem witness_NoMatchNeedsNaN : (Instr.quantRemap noF).wellFormed = true ∧
    exec (.quantRemap noF) (quantA 0x7FC00000) = .next (after (.quantRemap noF) (quantA 0x7FC00000)) ∧
    F32.isNaN (quantA 0x7FC00000).arg0 = true ∧ F32.isNaN (quantA 0x7F800000).arg0 = false ∧
    ∀ i : Fin 17, F32.isNaN (quantA 0x7F800000).qthr[i] = false := ⟨by decide, rfl, by decide, by decide, by decide⟩
theorem witness_QuantCheckFindsFirstUnordered : (Instr.quantCheck noF).wellFormed = true ∧
    (∀ i : Fin 16, F32.lt tableA[i.val] tableA[i.val + 1] = true) ∧
    (F32.lt (tableA.set 16 0x41700000)[15] (tableA.set 16 0x41700000)[16] = false ∧
      ∀ m : Fin 16, m < 15 → F32.lt (tableA.set 16 0x41700000)[m.val] (tableA.set 16 0x41700000)[m.val + 1] = true) := by decide

/-- A frequency, 12000 Hz, in all three places a command may select it from, on a started bank. -/
def tunedState : State := { withArg 0x463B8000 with
  zc := { ZcState.cleared with freq := 0x463B8000 }
  spec := { freq := 0x463B8000, bin := 0 }
  osc := bankO4 }

theorem witness_OscStartTunesAndZeroesPhases :
    (Instr.oscStart (subF 0)).wellFormed = true ∧ (Instr.oscStart (subF 2)).wellFormed = true ∧
    (0x463B8000#32 = tunedState.arg0 ∧ 0x463B8000#32 = tunedState.zc.freq ∧ 0x463B8000#32 = tunedState.spec.freq) ∧
    F32.finite 0x463B8000#32 = true ∧ ∀ v : Fin 4, F32.finite (F32.mul 0x463B8000#32 Config.ratio[v]) = true := by decide
theorem witness_OscSetFreqKeepsPhases :
    (Instr.oscSetFreq (subF 1)).wellFormed = true ∧ tunedState.osc.started = true ∧ 0x463B8000#32 = tunedState.zc.freq ∧
    F32.finite 0x463B8000#32 = true ∧ ∀ v : Fin 4, F32.finite (F32.mul 0x463B8000#32 Config.ratio[v]) = true := by decide
theorem witness_OscErrorsInOrder :
    (0x7FC00000#32 = (withArg 0x7FC00000#32).arg0 ∧ F32.finite 0x7FC00000#32 = false) ∧
    (F32.finite 0x7F7FFFFF#32 = true ∧ F32.finite (F32.mul 0x7F7FFFFF#32 Config.ratio[1]) = false) ∧
    (Instr.oscSetFreq noF).wellFormed = true ∧ (Instr.oscProcess (lenF 1)).wellFormed = true ∧ (Instr.oscStart noF).wellFormed = true ∧
    (withArg 0x7FC00000#32).osc.started = false ∧ tunedState.osc.started = true := by decide
theorem witness_OscProcessClosedForm : (Instr.oscProcess (lenF 1)).wellFormed = true ∧ (Instr.oscProcess (lenF 48)).wellFormed = true
    ∧ tunedState.osc.started = true := by decide
theorem witness_IncrementRepresentsFrequency : F32.finite 0x46BB7FFF#32 = true ∧ |F32.val 0x46BB7FFF#32| < 24000 := by
  refine ⟨by decide, ?_⟩
  have h : F32.mag 0x46BB7FFF#32 = 12287999 * 2 ^ 140 := by decide
  rw [F32.abs_val, h]; norm_num
theorem witness_OutputSampleIsAmplitudeTimesSine : SineAccurate 2 := by
  intro p
  have hb := sineLegal_sinCfg p
  simp only [sineLegal, Bool.and_eq_true, decide_eq_true_eq, F32.mag_one32] at hb
  have hq : |F32.val (sinCfg p)| ≤ 1 := by
    rw [F32.abs_val, div_le_one (by positivity)]
    exact_mod_cast hb.2
  have hv : |((F32.val (sinCfg p) : ℚ) : ℝ)| ≤ 1 := by exact_mod_cast hq
  calc _ ≤ |((F32.val (sinCfg p) : ℚ) : ℝ)| + |Real.sin (2 * Real.pi * p.toNat / 2 ^ 32)| := abs_sub _ _
    _ ≤ 1 + 1 := add_le_add hv (Real.abs_sin_le_one _)
    _ = 2 := by norm_num
theorem witness_EdgeCommandsCompareAndStore :
    (true = ({ State.reset with gateIn := true } : State).gateIn) ∧ (false = !F32.eq (withArg 0x80000000).arg0 posZero) ∧
    State.reset.edge.last = posZero ∧ busyState.edge.last = one32 ∧
    (Instr.edgeRising noF).wellFormed = true ∧ (Instr.edgeFalling (subF 1)).wellFormed = true := by decide
theorem witness_SecondEdgeCommandSeesNoEdge :
    (Instr.edgeRising (subF 1)).wellFormed = true ∧ (Instr.edgeFalling (subF 1)).wellFormed = true ∧
    exec (.edgeRising (subF 1)) (withArg one32) = .next (after (.edgeRising (subF 1)) (withArg one32)) ∧
    gateReading (subF 1) (after (.edgeRising (subF 1)) (withArg one32)) = gateReading (subF 1) (withArg one32) :=
  ⟨by decide, by decide, rfl, rfl⟩
theorem witness_EdgeSequencesReportTransitions : State.reset.edge.hasLast = false ∧ (subF 1).sub = 1 ∧
    (Instr.edgeRising (subF 1)).wellFormed = true := by decide
theorem witness_RoundingIsNearestEven : 0 < 1 ∧ (2 ^ 128 - 2 ^ 103) * 1 ≤ 2 ^ 128 - 2 ^ 103 ∧
    2 ^ 128 - 2 ^ 103 - 1 < (2 ^ 128 - 2 ^ 103) * 1 ∧ F32.finite 0x00000000#32 = true := by decide
theorem witness_ProductIsNearestEven :
    F32.isNaN 0x7FC00000#32 = true ∧ (F32.isInf 0xFF800000#32 = true ∧ F32.eq 0x80000000#32 posZero = true) ∧
    (F32.isNaN (F32.mul 0x80000000#32 0x3F800000#32) = false ∧ F32.sign 0x80000000#32 = true ∧ F32.sign 0x3F800000#32 = false) ∧
    (F32.isNaN (F32.mul 0xFF800000#32 0x00000001#32) = false ∧ F32.isInf 0xFF800000#32 = true) ∧
    (F32.finite 0x3F333333#32 = true ∧ F32.finite 0x3F800001#32 = true ∧ F32.finite 0x00000001#32 = true) ∧
    2 ^ 128 - 2 ^ 103 ≤ |F32.val 0x7F000000#32 * F32.val 0x40000000#32| ∧
    |F32.val 0x00000001#32 * F32.val 0x3F000000#32| < 2 ^ 128 - 2 ^ 103 := by
  have h1 : F32.mag 0x7F000000#32 = 2 ^ 127 * 2 ^ 149 := by decide
  have h2 : F32.mag 0x40000000#32 = 2 ^ 150 := by decide
  have h3 : F32.mag 0x00000001#32 = 1 := by decide
  have h4 : F32.mag 0x3F000000#32 = 2 ^ 148 := by decide
  refine ⟨by decide, by decide, by decide, by decide, by decide, ?_, ?_⟩
  · rw [abs_mul, F32.abs_val, F32.abs_val, h1, h2]; norm_num
  · rw [abs_mul, F32.abs_val, F32.abs_val, h3, h4]; norm_num

end Sys2Proof.Tests
end

section
/-! PROOFS. BUF_APPEND keeps the most recent samples (40_buffer.md). -/

namespace Sys2Proof.Machine

/-- The window after an append, element by element: it starts at the first sample of W ++ S that is not evicted (R140). -/
theorem appendWindow_getElem? (cap : Nat) (w xs : List Word) (i : Nat) :
    (appendWindow cap w xs)[i]? = (w ++ xs)[w.length + xs.length - cap + i]? := by
  rw [appendWindow, List.getElem?_drop, List.length_append]

/-- Settles O29: the next state is known from the command's own equation, and the appended window is read off by its
length and by its elements. -/
theorem bufAppendKeepsMostRecent : Obligations.BufAppendKeepsMostRecent := by
  intro f s hwf
  rw [wellFormed_bufAppend] at hwf
  have hlen : (sampleBlock f s).length = f.len.toNat := sampleBlock_length (len_of_blockFields hwf).2 s
  refine ⟨_, exec_bufAppend hwf, ?_, fun i _ => ?_, rfl, rfl⟩
  · rw [complete_window, appendWindow_length, hlen, bufCap_eq]
  · rw [complete_window, appendWindow_getElem?, hlen, bufCap_eq, sampleBlock]

end Sys2Proof.Machine
end

section
/-! PROOFS. The classes of a sample and the table of class pairs (41_zero_crossing.md, R160). -/

namespace Sys2Proof.Machine

/-- A NaN is in the class UNORD (R160). -/
theorem classOf_nan {x : Word} (h : F32.isNaN x = true) : classOf x = .unord := by simp [classOf, h]

/-- The class of a sample that is not a NaN is the sign of its value; both zeros have value 0 (R160). -/
theorem classOf_not_nan {x : Word} (h : F32.isNaN x = false) :
    classOf x = if F32.ival x < 0 then .neg else if 0 < F32.ival x then .pos else .zero := by
  simp [classOf, F32.lt_iff, h]

/-- The class of a number is never UNORD, and it is NEG, ZERO or POS as its value is below, at or above 0. -/
theorem classOf_not_nan_iff {x : Word} (h : F32.isNaN x = false) :
    classOf x ≠ .unord ∧ (classOf x = .neg ↔ F32.ival x < 0) ∧ (classOf x = .zero ↔ F32.ival x = 0) ∧
      (classOf x = .pos ↔ 0 < F32.ival x) := by
  rw [classOf_not_nan h]
  obtain hneg | hzero | hpos := lt_trichotomy (F32.ival x) 0
  · simp [hneg, hneg.ne, hneg.not_gt]
  · simp [hzero]
  · simp [hpos, hpos.ne', hpos.not_gt]

/-- Exactly the NaNs are in the class UNORD. -/
theorem isNaN_iff_classOf_unord (x : Word) : F32.isNaN x = true ↔ classOf x = .unord := by
  refine ⟨classOf_nan, fun hc => ?_⟩
  by_contra hn
  exact (classOf_not_nan_iff (Bool.eq_false_iff.mpr hn)).1 hc

/-- A crossing is a pair of two ordered classes that differ (R160). -/
theorem crossing_iff (a b : Word) :
    crossing a b = true ↔ classOf a ≠ .unord ∧ classOf b ≠ .unord ∧ classOf a ≠ classOf b := by
  simp [crossing, and_assoc]

/-- The pairs of two ordered classes that differ are the six marked cells of the table of R160. -/
theorem ordered_and_differ_iff_mem_table (c d : SampleClass) :
    (c ≠ .unord ∧ d ≠ .unord ∧ c ≠ d) ↔ (c, d) ∈
      [(SampleClass.neg, SampleClass.zero), (.neg, .pos), (.zero, .neg), (.zero, .pos), (.pos, .neg), (.pos, .zero)] := by
  cases c <;> cases d <;> decide

/-- Settles O33: the class of a number is the sign of its value, and the crossing test is the table of class pairs. -/
theorem crossingFollowsTheClassTable : Obligations.CrossingFollowsTheClassTable :=
  ⟨isNaN_iff_classOf_unord, fun _ h => (classOf_not_nan_iff h).2,
    fun a b => (crossing_iff a b).trans (ordered_and_differ_iff_mem_table (classOf a) (classOf b))⟩

end Sys2Proof.Machine
end

section
/-! PROOFS. QUANT_REMAP on a strictly increasing table (43_quantizer.md, R210 to R212). -/

namespace Sys2Proof.Machine.F32

theorem lt_trans {a b c : Word} (hab : lt a b = true) (hbc : lt b c = true) : lt a c = true := by
  obtain ⟨ha, _, h₁⟩ := lt_iff.mp hab
  obtain ⟨_, hc, h₂⟩ := lt_iff.mp hbc
  exact lt_iff.mpr ⟨ha, hc, h₁.trans h₂⟩

theorem le_of_lt_of_le {a b c : Word} (hab : lt a b = true) (hbc : le b c = true) : le a c = true := by
  obtain ⟨ha, _, h₁⟩ := lt_iff.mp hab
  obtain ⟨_, hc, h₂⟩ := le_iff.mp hbc
  exact le_iff.mpr ⟨ha, hc, h₁.le.trans h₂⟩

end Sys2Proof.Machine.F32

namespace Sys2Proof.Machine

/-- The tone `i` holds the reading `x`: T[i] <=f x <f T[i+1], without the lower bound at tone 0 and without the upper
bound at tone 15 (R210). -/
def HoldsClamped (t : Vector Word 17) (x : Word) (i : Fin 16) : Prop :=
  (i.val = 0 ∨ F32.le t[i.val] x = true) ∧ (i.val = 15 ∨ F32.lt x t[i.val + 1] = true)

section
variable {t : Vector Word 17} {x : Word}

theorem inInterval_iff {k : Fin 16} :
    inInterval t x k = true ↔ F32.le t[k.val] x = true ∧ F32.lt x t[k.val + 1] = true := by
  simp [inInterval]

theorem HoldsClamped.of_inInterval {k : Fin 16} (h : inInterval t x k = true) : HoldsClamped t x k :=
  (inInterval_iff.mp h).imp .inr .inr

theorem StrictlyIncreasing.not_nan (ht : StrictlyIncreasing t) (i : Fin 17) : F32.isNaN t[i] = false :=
  F32.isNaN_of_finite (ht.1 i)

/-- The values of the thresholds increase strictly from any index to any later one. -/
theorem StrictlyIncreasing.strictMono_ival (ht : StrictlyIncreasing t) : StrictMono fun i : Fin 17 => F32.ival t[i] :=
  Fin.strictMono_iff_lt_succ.mpr fun i => (F32.lt_iff.mp (ht.2 i)).2.2

/-- On thresholds without a NaN the scan of R211 misses no reading from T[0] up to T[16]: one at or above T[k] that lies in
no interval is at or above T[k+1] too. -/
theorem exists_inInterval (ht : ∀ i : Fin 17, F32.isNaN t[i] = false) (hx : F32.isNaN x = false)
    (h0 : F32.le t[0] x = true) (h16 : F32.le t[16] x = false) : ∃ k : Fin 16, inInterval t x k = true := by
  by_contra! hnone
  have hall : ∀ i : Fin 17, F32.le t[i] x = true := by
    intro i
    induction i using Fin.induction with
    | zero => exact h0
    | succ k ih =>
      have hk : F32.lt x t[k.succ] = false := Bool.eq_false_iff.mpr fun hlt => hnone k (inInterval_iff.mpr ⟨ih, hlt⟩)
      exact (F32.lt_false_iff_le hx (ht k.succ)).mp hk
  exact Bool.eq_false_iff.mp h16 (hall 16)

/-- On a strictly increasing table QUANT_REMAP finds a tone for every number, and that tone holds it (R211, R212). -/
theorem exists_toneOf_holdsClamped (ht : StrictlyIncreasing t) (hx : F32.isNaN x = false) :
    ∃ i, toneOf t x = some i ∧ HoldsClamped t x i := by
  unfold toneOf
  split_ifs with hbelow habove
  · exact ⟨0, rfl, .inl rfl, .inr (F32.lt_trans hbelow (ht.2 0))⟩
  · exact ⟨15, rfl, .inr (F32.le_of_lt_of_le (ht.2 15) habove), .inl rfl⟩
  · have h0 := (F32.lt_false_iff_le hx (ht.not_nan 0)).mp (Bool.eq_false_iff.mpr hbelow)
    obtain ⟨k, hk⟩ := exists_inInterval ht.not_nan hx h0 (Bool.eq_false_iff.mpr habove)
    obtain ⟨i, hi⟩ := Option.isSome_iff_exists.mp (List.find?_isSome.mpr ⟨k, List.mem_finRange k, hk⟩)
    exact ⟨i, hi, .of_inInterval (List.find?_some hi)⟩

/-- Of two tones that hold the same reading neither is the higher: T[i] <=f x <f T[k+1] puts `i` below `k + 1`. -/
theorem HoldsClamped.le (ht : StrictlyIncreasing t) {i k : Fin 16} (hi : HoldsClamped t x i) (hk : HoldsClamped t x k) :
    i ≤ k := by
  obtain hi0 | hlow := hi.1
  · exact Fin.le_def.mpr (hi0 ▸ Nat.zero_le _)
  obtain hk15 | hup := hk.2
  · exact Fin.le_def.mpr (hk15 ▸ Nat.le_of_lt_succ i.isLt)
  have hlt : F32.ival t[i.castSucc] < F32.ival t[k.succ] := (F32.le_iff.mp hlow).2.2.trans_lt (F32.lt_iff.mp hup).2.2
  exact Fin.castSucc_lt_succ_iff.mp (ht.strictMono_ival.lt_iff_lt.mp hlt)

/-- At most one tone holds a reading: the intervals do not overlap (R212). -/
theorem HoldsClamped.unique (ht : StrictlyIncreasing t) {i k : Fin 16} (hi : HoldsClamped t x i) (hk : HoldsClamped t x k) :
    k = i :=
  le_antisymm (hk.le ht hi) (hi.le ht hk)

end

/-- Settles O46: the scan finds a tone that holds the reading, and no second tone holds it. -/
theorem quantRemapPartitionsTheLine : Obligations.QuantRemapPartitionsTheLine := by
  intro f s hwf ht hx
  rw [wellFormed_quantRemap] at hwf
  obtain ⟨i, htone, hi⟩ := exists_toneOf_holdsClamped ht hx
  refine ⟨i, ?_, hi.1, hi.2, fun k hlow hup => hi.unique ht (.of_inInterval (inInterval_iff.mpr ⟨hlow, hup⟩))⟩
  rw [exec_quantRemap_match hwf htone, complete, statusAfter_ok]
  rfl

end Sys2Proof.Machine
end

section
/-! PROOFS. The encoder and the decoder are inverse to each other, and the unassigned opcodes (30_encoding.md). -/

namespace Sys2Proof

/-- A word whose OP selects a command decodes to that command with the word's fields (R110). -/
theorem decode_eq_ok_iff {c : Word} {i : Instr} :
    decode c = .ok i ↔ ∃ mk, commandOf (opField c) = some mk ∧ mk (fieldsOf c) = i := by
  cases h : commandOf (opField c) <;> simp [decode, h]

/-- The decoder refuses exactly the words whose OP the map does not list, and names that OP (R110). -/
theorem decode_eq_illegalOpcode_iff {c : Word} {op : BitVec 8} :
    decode c = .error (.illegalOpcode op) ↔ commandOf (opField c) = none ∧ opField c = op := by
  cases h : commandOf (opField c) <;> simp [decode, h]

theorem decode_encode (i : Instr) : decode (encode i) = .ok i := by
  rw [decode_eq_ok_iff, opField_encode, fieldsOf_encode]
  exact commandOf_opcode i

theorem encode_of_decode {c : Word} {i : Instr} (h : decode c = .ok i) : encode i = c := by
  obtain ⟨mk, hmk, rfl⟩ := decode_eq_ok_iff.mp h
  obtain ⟨hop, hfields⟩ := commandOf_some hmk (fieldsOf c)
  rw [encode, hop, hfields, word_eq_fields]

/-- Settles O1: OP and the fields of an encoded word come back whole, and a word is its fields put together. -/
theorem decodeAndEncodeAgree : Obligations.DecodeAndEncodeAgree :=
  ⟨decode_encode, fun _ _ => encode_of_decode⟩

/-- With the reserved bits 0, the fields side by side are the fields shifted to their places and joined (R111). -/
theorem append_zero_reserved (len : BitVec 6) (sub : BitVec 4) (op : BitVec 8) :
    (0 : BitVec 10) ++ len ++ (0 : BitVec 4) ++ sub ++ op =
      (len.setWidth 32 <<< 16) ||| (sub.setWidth 32 <<< 8) ||| op.setWidth 32 := by
  apply BitVec.eq_of_toNat_eq
  have hlen := len.isLt
  have hsub := sub.isLt
  have hop := op.isLt
  have hsub' : sub.toNat <<< 8 < 2 ^ 16 := by rw [Nat.shiftLeft_eq]; omega
  simp only [BitVec.toNat_append, BitVec.toNat_or, BitVec.toNat_shiftLeft, BitVec.toNat_setWidth]
  rw [Nat.mod_eq_of_lt (a := len.toNat) (by omega), Nat.mod_eq_of_lt (a := sub.toNat) (by omega),
    Nat.mod_eq_of_lt (a := op.toNat) (by omega), Nat.mod_eq_of_lt (by rw [Nat.shiftLeft_eq]; omega),
    Nat.mod_eq_of_lt (by omega)]
  simp [Nat.shiftLeft_or_distrib, ← Nat.shiftLeft_add]

/-- Settles O2: the reserved fields of a well-formed command are 0. -/
theorem encodedWordIsLenSubOp : Obligations.EncodedWordIsLenSubOp := by
  intro i hwf
  obtain ⟨hlow, hhigh, -⟩ := (Machine.wellFormed_iff i).mp hwf
  rw [encode, hlow, hhigh, append_zero_reserved]

/-- An OP is unassigned when it is the OP of no row of the map (R118). -/
theorem commandOf_eq_none_iff {op : BitVec 8} : commandOf op = none ↔ ∀ row ∈ opcodeMap, row.1 ≠ op := by
  simp [commandOf]

theorem opField_eq_ofNat (c : Word) : opField c = BitVec.ofNat 8 (c.toNat % 256) := by
  apply BitVec.eq_of_toNat_eq
  simp [opField]

/-- Settles O3: the listed ranges are what the seventeen rows of the map leave of the 256 values. -/
theorem unassignedOpcodesAreTheListedRanges : Obligations.UnassignedOpcodesAreTheListedRanges := by
  intro c op
  have hop : op < 256 := Nat.mod_lt _ (by decide)
  have hfield : opField c = BitVec.ofNat 8 op := opField_eq_ofNat c
  rw [decode_eq_illegalOpcode_iff, and_iff_left hfield, commandOf_eq_none_iff, hfield]
  simp only [opcodeMap, List.cons_append, List.nil_append, List.forall_mem_cons, List.not_mem_nil, false_implies,
    implies_true, and_true, ne_eq, ← BitVec.toNat_inj, BitVec.ofNat_eq_ofNat, BitVec.toNat_ofNat, Nat.reducePow,
    Nat.reduceMod, Nat.mod_eq_of_lt hop]
  omega

/-- Settles O4: each word is decoded by itself. -/
theorem exampleWordsDecode : Obligations.ExampleWordsDecode := by
  unfold Obligations.ExampleWordsDecode
  decide

end Sys2Proof
end

section
/-! PROOFS. The register map, region by region (20_memory.md, R74, R75, R88). -/

namespace Sys2Proof.Machine

section
variable {w : Nat}

theorem regAtWord_bufWin (h : 0x4000 ≤ w) (h' : w < 0x8000) : regAtWord w = .bufWin ⟨(w - 0x4000) / 4, by omega⟩ := by
  rw [regAtWord, if_pos h, dif_pos]

theorem regAtWord_outBlk (h : 0x0400 ≤ w) (h' : w < 0x4000) : regAtWord w =
    if h : (w - 0x0400) / 0x100 < 4 ∧ (w - 0x0400) % 0x100 / 4 < 48 then
      .outBlk ⟨(w - 0x0400) / 0x100, h.1⟩ ⟨(w - 0x0400) % 0x100 / 4, h.2⟩
    else .reserved := by
  rw [regAtWord, if_neg (by omega), if_pos h]

theorem regAtWord_snap (h : 0x0300 ≤ w) (h' : w < 0x0400) : regAtWord w =
    if h : (w - 0x0300) / 4 < 48 then .snap ⟨(w - 0x0300) / 4, h⟩ else .reserved := by
  rw [regAtWord, if_neg (by omega), if_neg (by omega), if_pos h]

theorem regAtWord_inBlk (h : 0x0200 ≤ w) (h' : w < 0x0300) : regAtWord w =
    if h : (w - 0x0200) / 4 < 48 then .inBlk ⟨(w - 0x0200) / 4, h⟩ else .reserved := by
  rw [regAtWord, if_neg (by omega), if_neg (by omega), if_neg (by omega), if_pos h]

theorem regAtWord_qremap (h : 0x0180 ≤ w) (h' : w < 0x0200) : regAtWord w =
    if h : (w - 0x0180) / 4 < 16 then .qremap ⟨(w - 0x0180) / 4, h⟩ else .reserved := by
  rw [regAtWord, if_neg (by omega), if_neg (by omega), if_neg (by omega), if_neg (by omega), if_pos h]

theorem regAtWord_qthr (h : 0x0100 ≤ w) (h' : w < 0x0180) : regAtWord w =
    if h : (w - 0x0100) / 4 < 17 then .qthr ⟨(w - 0x0100) / 4, h⟩ else .reserved := by
  rw [regAtWord, if_neg (by omega), if_neg (by omega), if_neg (by omega), if_neg (by omega), if_neg (by omega), if_pos h]

theorem regAtWord_oscPhase (h : 0x00C0 ≤ w) (h' : w < 0x0100) : regAtWord w =
    if h : (w - 0x00C0) / 4 < 4 then .oscPhase ⟨(w - 0x00C0) / 4, h⟩ else .reserved := by
  rw [regAtWord, if_neg (by omega), if_neg (by omega), if_neg (by omega), if_neg (by omega), if_neg (by omega),
    if_neg (by omega), if_pos h]

theorem regAtWord_oscInc (h : 0x00B0 ≤ w) (h' : w < 0x00C0) : regAtWord w = .oscInc ⟨(w - 0x00B0) / 4, by omega⟩ := by
  rw [regAtWord, if_neg (by omega), if_neg (by omega), if_neg (by omega), if_neg (by omega), if_neg (by omega),
    if_neg (by omega), if_neg (by omega), if_pos h, dif_pos]

theorem regAtWord_oscFreq (h : 0x00A0 ≤ w) (h' : w < 0x00B0) : regAtWord w = .oscFreq ⟨(w - 0x00A0) / 4, by omega⟩ := by
  rw [regAtWord, if_neg (by omega), if_neg (by omega), if_neg (by omega), if_neg (by omega), if_neg (by omega),
    if_neg (by omega), if_neg (by omega), if_neg (by omega), if_pos h, dif_pos]

end

/-- The table of single registers, read word by word: forty words below the first array of the map (R74). -/
theorem singleWords_agree :
    ∀ k < 40, regAtWord (4 * k) ≠ .reserved → (regAtWord (4 * k)).offset? = some (4 * k) := by decide

/-- The offset of an element is an aligned offset of the window at which the map has that element (R74). -/
theorem regAtWord_offset? {r : Reg} {a : Nat} (h : r.offset? = some a) : a < 2 ^ 15 ∧ a % 4 = 0 ∧ regAtWord a = r := by
  cases r with
  | reserved => cases h
  | oscFreq v =>
    obtain rfl := Option.some.inj h
    exact ⟨by omega, by omega, by rw [regAtWord_oscFreq (by omega) (by omega)]; congr; omega⟩
  | oscInc v =>
    obtain rfl := Option.some.inj h
    exact ⟨by omega, by omega, by rw [regAtWord_oscInc (by omega) (by omega)]; congr; omega⟩
  | oscPhase v =>
    obtain rfl := Option.some.inj h
    exact ⟨by omega, by omega, by rw [regAtWord_oscPhase (by omega) (by omega), dif_pos (by omega)]; congr; omega⟩
  | qthr i =>
    obtain rfl := Option.some.inj h
    exact ⟨by omega, by omega, by rw [regAtWord_qthr (by omega) (by omega), dif_pos (by omega)]; congr; omega⟩
  | qremap i =>
    obtain rfl := Option.some.inj h
    exact ⟨by omega, by omega, by rw [regAtWord_qremap (by omega) (by omega), dif_pos (by omega)]; congr; omega⟩
  | inBlk j =>
    obtain rfl := Option.some.inj h
    exact ⟨by omega, by omega, by rw [regAtWord_inBlk (by omega) (by omega), dif_pos (by omega)]; congr; omega⟩
  | snap j =>
    obtain rfl := Option.some.inj h
    exact ⟨by omega, by omega, by rw [regAtWord_snap (by omega) (by omega), dif_pos (by omega)]; congr; omega⟩
  | outBlk v j =>
    obtain rfl := Option.some.inj h
    exact ⟨by omega, by omega, by rw [regAtWord_outBlk (by omega) (by omega), dif_pos (by omega)]; congr <;> omega⟩
  | bufWin i =>
    obtain rfl := Option.some.inj h
    exact ⟨by omega, by omega, by rw [regAtWord_bufWin (by omega) (by omega)]; congr; omega⟩
  | _ => obtain rfl := Option.some.inj h; decide

/-- A listed word of the window has the offset of its element (R74). -/
theorem offset?_regAtWord {w : Nat} (hw : w < 2 ^ 15) (h4 : w % 4 = 0) (hr : regAtWord w ≠ .reserved) :
    (regAtWord w).offset? = some w := by
  have hregions : w < 0xA0 ∨ (0xA0 ≤ w ∧ w < 0xB0) ∨ (0xB0 ≤ w ∧ w < 0xC0) ∨ (0xC0 ≤ w ∧ w < 0x100) ∨
      (0x100 ≤ w ∧ w < 0x180) ∨ (0x180 ≤ w ∧ w < 0x200) ∨ (0x200 ≤ w ∧ w < 0x300) ∨ (0x300 ≤ w ∧ w < 0x400) ∨
      (0x400 ≤ w ∧ w < 0x4000) ∨ 0x4000 ≤ w := by omega
  obtain h | ⟨h, h'⟩ | ⟨h, h'⟩ | ⟨h, h'⟩ | ⟨h, h'⟩ | ⟨h, h'⟩ | ⟨h, h'⟩ | ⟨h, h'⟩ | ⟨h, h'⟩ | h := hregions
  · have := singleWords_agree (w / 4) (by omega)
    rw [Nat.mul_div_cancel' (Nat.dvd_of_mod_eq_zero h4)] at this
    exact this hr
  · rw [regAtWord_oscFreq h h']
    exact congrArg some (by dsimp only; omega)
  · rw [regAtWord_oscInc h h']
    exact congrArg some (by dsimp only; omega)
  · rw [regAtWord_oscPhase h h'] at hr ⊢
    split_ifs at hr ⊢ with hi
    · exact congrArg some (by dsimp only; omega)
    · exact absurd rfl hr
  · rw [regAtWord_qthr h h'] at hr ⊢
    split_ifs at hr ⊢ with hi
    · exact congrArg some (by dsimp only; omega)
    · exact absurd rfl hr
  · rw [regAtWord_qremap h h'] at hr ⊢
    split_ifs at hr ⊢ with hi
    · exact congrArg some (by dsimp only; omega)
    · exact absurd rfl hr
  · rw [regAtWord_inBlk h h'] at hr ⊢
    split_ifs at hr ⊢ with hi
    · exact congrArg some (by dsimp only; omega)
    · exact absurd rfl hr
  · rw [regAtWord_snap h h'] at hr ⊢
    split_ifs at hr ⊢ with hi
    · exact congrArg some (by dsimp only; omega)
    · exact absurd rfl hr
  · rw [regAtWord_outBlk h h'] at hr ⊢
    split_ifs at hr ⊢ with hi
    · exact congrArg some (by dsimp only; omega)
    · exact absurd rfl hr
  · rw [regAtWord_bufWin h hw]
    exact congrArg some (by dsimp only; omega)

/-- Settles O5, in both directions region by region of the map. -/
theorem registerMapAgreesBothWays : Obligations.RegisterMapAgreesBothWays := by
  refine ⟨fun r a h => ?_, fun off h4 hr => ?_⟩
  · obtain ⟨hlt, h4, hreg⟩ := regAtWord_offset? h
    exact ⟨hlt, h4, by rw [regAt_aligned] <;> simpa [BitVec.toNat_ofNatLT]⟩
  · rw [regAt_aligned h4] at hr ⊢
    exact offset?_regAtWord off.isLt h4 hr

/-- Two aligned offsets of the same listed element are the same offset (R74). -/
theorem eq_of_regAt_eq {a b : Offset} (ha : a.toNat % 4 = 0) (hb : b.toNat % 4 = 0) (hr : regAt a ≠ .reserved)
    (h : regAt a = regAt b) : a = b := by
  have h₁ := registerMapAgreesBothWays.2 a ha hr
  have h₂ := registerMapAgreesBothWays.2 b hb (h ▸ hr)
  rw [h, h₂] at h₁
  exact BitVec.eq_of_toNat_eq (Option.some.inj h₁).symm

/-- CMD is at one aligned offset only. -/
theorem eq_cmdOffset {off : Offset} (h4 : off.toNat % 4 = 0) (h : regAt off = .cmd) : off = cmdOffset :=
  eq_of_regAt_eq h4 (by decide) (by simp [h]) (h.trans regAt_cmdOffset.symm)

/-- STATUS is at one aligned offset only. -/
theorem eq_statusOffset {off : Offset} (h4 : off.toNat % 4 = 0) (h : regAt off = .status) : off = 0x0004 :=
  eq_of_regAt_eq h4 (by decide) (by simp [h]) (h.trans (by decide))

/-- Offsets in two different words of the window belong to different elements, unless the word is reserved (R72, R74). -/
theorem regAt_ne {a b : Offset} (h : a.toNat / 4 ≠ b.toNat / 4) (hr : regAt a ≠ .reserved) : regAt a ≠ regAt b := by
  intro he
  have h₁ := offset?_regAtWord (w := a.toNat / 4 * 4) (by omega) (by omega) hr
  have h₂ := offset?_regAtWord (w := b.toNat / 4 * 4) (by omega) (by omega) (fun hb => hr (he.trans hb))
  change (regAt a).offset? = _ at h₁
  change (regAt b).offset? = _ at h₂
  rw [he, h₂, Option.some.injEq] at h₁
  omega

/-- The offset of BUF_WIN[i] (R88). -/
theorem regAt_bufWin {i : Nat} (hi : i < 4096) : regAt (BitVec.ofNat 15 (0x4000 + 4 * i)) = .bufWin ⟨i, hi⟩ := by
  have hoff : (BitVec.ofNat 15 (0x4000 + 4 * i)).toNat = 0x4000 + 4 * i := by rw [BitVec.toNat_ofNat]; omega
  rw [regAt_aligned (by omega), hoff, regAtWord_bufWin (by omega) (by omega)]
  congr
  omega

/-- Settles O15: the element at the offset is BUF_WIN[i], which reads the window with default 0. -/
theorem bufferWindowReadsTheWindow : Obligations.BufferWindowReadsTheWindow := by
  intro s i hi
  rw [readReg, regAt_bufWin hi]
  change s.window.getD i 0 = _
  rw [List.getD_eq_getElem?_getD]
  split_ifs with h
  · rw [List.getElem?_eq_getElem h, Option.getD_some]
  · rw [List.getElem?_eq_none (Nat.le_of_not_lt h), Option.getD_none]
    rfl

/-- Byte lane `k` of a word is the byte at offset `4 * m + k` (R72). -/
theorem readByte_lane (s : State) {m k : Nat} (hm : m < 0x2000) (hk : k < 4) :
    readByte (BitVec.ofNat 15 (4 * m + k)) s = laneOf (readReg (BitVec.ofNat 15 (4 * m)) s) k := by
  have hoff : ∀ j < 4, (BitVec.ofNat 15 (4 * m + j)).toNat = 4 * m + j := by
    intro j hj
    rw [BitVec.toNat_ofNat]
    omega
  have hreg : regAt (BitVec.ofNat 15 (4 * m + k)) = regAt (BitVec.ofNat 15 (4 * m)) :=
    regAt_sameWord (by have := hoff 0 (by decide); simp only [Nat.add_zero] at this; rw [hoff k hk, this]; omega)
  rw [readByte, readReg, hreg, hoff k hk, show (4 * m + k) % 4 = k by omega, laneOf, readReg]

/-- Settles O11: the four bytes of a word are its lanes, and a word is its lanes put together. -/
theorem wordIsItsFourByteLanes : Obligations.WordIsItsFourByteLanes := by
  intro s m hm
  rw [readByte_lane s hm (k := 1) (by decide), readByte_lane s hm (k := 2) (by decide),
    readByte_lane s hm (k := 3) (by decide)]
  rw [show readByte (BitVec.ofNat 15 (4 * m)) s = _ from readByte_lane s hm (k := 0) (by decide)]
  exact wordOfLanes_laneOf _

end Sys2Proof.Machine
end

section
/-! PROOFS. What one step does with the input it serves (20_memory.md, 60_exceptions.md). -/

namespace Sys2Proof.Machine

/-- What a host reads does not depend on the inputs or the last response. -/
theorem readReg_env (off : Offset) (s : State) (g : Bool) (p : List Input) (q : Option Response) :
    readReg off { s with gateIn := g, pending := p, response := q } = readReg off s := readElem_env s _ g p q

/-! The rule of each input -/

section
variable {s : State} {rest : List Input}

theorem step_busRead {off : Offset} {size : Nat} (h : s.pending = .busRead off size :: rest) :
    step s = .next { s with pending := rest, response := some (busReadResponse off size s) } := by
  have henv : busReadResponse off size { s with pending := rest } = busReadResponse off size s := rfl
  rw [step_cons h, serve_busRead, henv]

theorem step_busWrite_illegal {off : Offset} {size : Nat} {data : Word} (h : s.pending = .busWrite off size data :: rest)
    (hl : accessLegal off size = false) :
    step s = .next { s with pending := rest, response := some .writeError } := by
  rw [step_cons h, serve_busWrite_illegal _ hl]

theorem step_busWrite_elem {off : Offset} {data : Word} (h : s.pending = .busWrite off 4 data :: rest)
    (h4 : off.toNat % 4 = 0) (hr : regAt off ≠ .cmd) :
    step s = .next { writeElem data s (regAt off) with pending := rest, response := some .writeOk } := by
  rw [step_cons h, serve_busWrite_elem _ h4 hr]
  cases regAt off <;> rfl

theorem step_command {c : Word} {i : Instr} (h : s.pending = commandWrite c :: rest) (hd : decode c = .ok i) :
    step s = exec i { s with pending := rest, response := some .writeOk, cmd := c } := by
  rw [step_cons h, serve_commandWrite]
  simp only [issue, issueWith, hd]

theorem step_illegalOpcode {c : Word} {r : Reject} (h : s.pending = commandWrite c :: rest) (hd : decode c = .error r) :
    step s = .next (complete .illegalOpcode { s with pending := rest, response := some .writeOk, cmd := c }) := by
  rw [step_cons h, serve_commandWrite]
  simp only [issue, issueWith, hd]

end

/-- Everything a step can do, one constructor for each kind of input it may serve (R91). -/
inductive StepTo (s : State) : State → Prop
  | idle (h : s.pending = []) : StepTo s s
  | busRead {off : Offset} {size : Nat} {rest : List Input} (h : s.pending = .busRead off size :: rest) :
      StepTo s { s with pending := rest, response := some (busReadResponse off size s) }
  | illegalWrite {off : Offset} {size : Nat} {data : Word} {rest : List Input}
      (h : s.pending = .busWrite off size data :: rest) :
      StepTo s { s with pending := rest, response := some .writeError }
  | elemWrite {off : Offset} {data : Word} {rest : List Input} (h : s.pending = .busWrite off 4 data :: rest)
      (h4 : off.toNat % 4 = 0) (hr : regAt off ≠ .cmd) :
      StepTo s { writeElem data s (regAt off) with pending := rest, response := some .writeOk }
  | gate {level : Bool} {rest : List Input} (h : s.pending = .gate level :: rest) :
      StepTo s { s with pending := rest, gateIn := level }
  | reset {rest : List Input} (h : s.pending = .reset :: rest) : StepTo s (applyReset { s with pending := rest })
  | command {c : Word} {i : Instr} {t : State} {rest : List Input} (h : s.pending = commandWrite c :: rest)
      (hd : decode c = .ok i) (he : exec i { s with pending := rest, response := some .writeOk, cmd := c } = .next t) :
      StepTo s t
  | illegalOpcode {c : Word} {r : Reject} {rest : List Input} (h : s.pending = commandWrite c :: rest)
      (hd : decode c = .error r) :
      StepTo s (complete .illegalOpcode { s with pending := rest, response := some .writeOk, cmd := c })

/-- Every step answers a next state, and that state is one `StepTo` lists: the block has no trap (R296, R297). -/
theorem exists_step (s : State) : ∃ t, step s = .next t ∧ StepTo s t := by
  match h : s.pending with
  | [] => exact ⟨s, step_nil h, .idle h⟩
  | .busRead off size :: rest => exact ⟨_, step_busRead h, .busRead h⟩
  | .gate level :: rest => exact ⟨_, (step_cons h).trans (serve_gate _ level), .gate h⟩
  | .reset :: rest => exact ⟨_, (step_cons h).trans (serve_reset _), .reset h⟩
  | .busWrite off size data :: rest =>
    cases hl : accessLegal off size with
    | false => exact ⟨_, step_busWrite_illegal h hl, .illegalWrite h⟩
    | true =>
      obtain ⟨rfl, h4⟩ := accessLegal_iff.mp hl
      by_cases hr : regAt off = .cmd
      · obtain rfl := eq_cmdOffset h4 hr
        cases hd : decode data with
        | ok i =>
          obtain ⟨t, ht, -⟩ := exec_env i { s with pending := rest, response := some .writeOk, cmd := data }
          exact ⟨t, (step_command h hd).trans ht, .command h hd ht⟩
        | error r => exact ⟨_, step_illegalOpcode h hd, .illegalOpcode h hd⟩
      · exact ⟨_, step_busWrite_elem h h4 hr, .elemWrite h h4 hr⟩

theorem stepTo_of_step {s t : State} (h : step s = .next t) : StepTo s t := by
  obtain ⟨u, hu, hto⟩ := exists_step s
  obtain rfl : u = t := Host.Outcome.next.inj (hu.symm.trans h)
  exact hto

theorem StepTo.pending_eq_tail {s t : State} (h : StepTo s t) : t.pending = s.pending.tail := by
  cases h with
  | idle h => rw [h, List.tail_nil]
  | busRead h | illegalWrite h | elemWrite h | gate h | reset h | illegalOpcode h => rw [h]; rfl
  | command h hd he =>
    obtain ⟨u, hu, hpending, -⟩ := exec_env _ _
    obtain rfl := Host.Outcome.next.inj (hu.symm.trans he)
    rw [hpending, h, List.tail_cons]

/-- Settles O8, by the list of everything a step can do. -/
theorem everyStepAnswersNext : Obligations.EveryStepAnswersNext := fun s =>
  let ⟨t, ht, hto⟩ := exists_step s
  ⟨t, ht, hto.pending_eq_tail⟩

/-- Settles O6: the write of a word to CMD issues it. -/
theorem stepRunsTheDecodedCommand : Obligations.StepRunsTheDecodedCommand := fun _ _ _ _ h hd => step_command h hd

/-- Settles O7: the word is not a command, and the step ends it with ILLEGAL_OPCODE. -/
theorem unassignedOpcodeEndsIllegal : Obligations.UnassignedOpcodeEndsIllegal := by
  intro s c rest op h hd
  rw [step_illegalOpcode h hd, complete, statusAfter_error (by decide)]

theorem accessLegal_false_iff {off : Offset} {size : Nat} :
    accessLegal off size = false ↔ size ≠ 4 ∨ off.toNat % 4 ≠ 0 := by
  rw [Bool.eq_false_iff, ne_eq, accessLegal_iff, not_and_or]

theorem busReadResponse_illegal {off : Offset} {size : Nat} (h : accessLegal off size = false) (s : State) :
    busReadResponse off size s = .readError 0 := by
  simp [busReadResponse, busReadResponseFor, h]

theorem busReadResponse_legal {off : Offset} (h : off.toNat % 4 = 0) (s : State) :
    busReadResponse off 4 s = .readOk (readReg off s) := by
  simp [busReadResponse, busReadResponseFor, accessLegal_iff.mpr ⟨rfl, h⟩, readReg, readRegFor, readElem]

/-- Settles O9: neither access is legal, so the read answers an error and the write is discarded. -/
theorem illegalAccessIsBusErrorOnly : Obligations.IllegalAccessIsBusErrorOnly := by
  intro s off size data rest hl
  have hl' := accessLegal_false_iff.mpr hl
  exact ⟨fun h => by rw [step_busRead h, busReadResponse_illegal hl'], fun h => step_busWrite_illegal h hl'⟩

/-- Settles O10: the only effect of a read is the response. -/
theorem legalReadHasNoSideEffect : Obligations.LegalReadHasNoSideEffect := by
  intro s off rest h h4
  rw [step_busRead h, busReadResponse_legal h4]

/-! Writes of elements -/

/-- A word of the window with no element is reserved, range by range of the map (R74, R75). -/
theorem regAtWord_eq_reserved {w : Nat} (h4 : w % 4 = 0)
    (h : (0x0018 ≤ w ∧ w < 0x0020) ∨ (0x002C ≤ w ∧ w < 0x0040) ∨ (0x0044 ≤ w ∧ w < 0x0050) ∨
      (0x0068 ≤ w ∧ w < 0x0070) ∨ (0x0078 ≤ w ∧ w < 0x0080) ∨ (0x0088 ≤ w ∧ w < 0x0090) ∨
      (0x0098 ≤ w ∧ w < 0x00A0) ∨ (0x00D0 ≤ w ∧ w < 0x0100) ∨ (0x0144 ≤ w ∧ w < 0x0180) ∨
      (0x01C0 ≤ w ∧ w < 0x0200) ∨ (0x02C0 ≤ w ∧ w < 0x0300) ∨ (0x03C0 ≤ w ∧ w < 0x0400) ∨
      (0x0400 ≤ w ∧ w < 0x0800 ∧ 0xC0 ≤ w % 0x100) ∨ (0x0800 ≤ w ∧ w < 0x4000)) :
    regAtWord w = .reserved := by
  by_cases hsingle : w < 0xA0
  · have hgaps : ∀ k < 40, (k = 6 ∨ k = 7 ∨ (11 ≤ k ∧ k < 16) ∨ (17 ≤ k ∧ k < 20) ∨ k = 26 ∨ k = 27 ∨ k = 30 ∨
        k = 31 ∨ k = 34 ∨ k = 35 ∨ k = 38 ∨ k = 39) → regAtWord (4 * k) = .reserved := by decide
    obtain ⟨k, rfl⟩ := Nat.dvd_of_mod_eq_zero h4
    exact hgaps k (by omega) (by omega)
  · rcases h with h | h | h | h | h | h | h | h | h | h | h | h | h | h
    iterate 7 omega
    · rw [regAtWord_oscPhase (by omega) (by omega), dif_neg (by omega)]
    · rw [regAtWord_qthr (by omega) (by omega), dif_neg (by omega)]
    · rw [regAtWord_qremap (by omega) (by omega), dif_neg (by omega)]
    · rw [regAtWord_inBlk (by omega) (by omega), dif_neg (by omega)]
    · rw [regAtWord_snap (by omega) (by omega), dif_neg (by omega)]
    · rw [regAtWord_outBlk (by omega) (by omega), dif_neg (by omega)]
    · rw [regAtWord_outBlk (by omega) (by omega), dif_neg (by omega)]

/-- Settles O12: no element is there to read or to write. -/
theorem reservedOffsetsReadZeroIgnoreWrites : Obligations.ReservedOffsetsReadZeroIgnoreWrites := by
  intro s off data rest h4 hrange
  have hreg : regAt off = .reserved := (regAt_aligned h4).trans (regAtWord_eq_reserved h4 hrange)
  refine ⟨fun h => ?_, fun h => ?_⟩
  · rw [step_busRead h, busReadResponse_legal h4, readReg, hreg]
    rfl
  · rw [step_busWrite_elem h h4 (by simp [hreg]), hreg]
    rfl

/-- An element the host writes reads as written (R76). -/
theorem readElem_writeElem_same {v : Word} {s : State} {r : Reg} (h : hostWritable r = true) :
    readElem (writeElem v s r) r = v := by
  cases r with
  | arg0 => rfl
  | qthr i | qremap i | inBlk i => simp [readElem, readElemFor, writeElem]
  | _ => cases h

/-- A write of an element that is neither STATUS nor host-writable changes nothing (R78). -/
theorem writeElem_readOnly {v : Word} {s : State} {r : Reg} (h : hostWritable r = false) (hr : r ≠ .status) :
    writeElem v s r = s := by
  cases r with
  | status => exact absurd rfl hr
  | arg0 | qthr | qremap | inBlk => cases h
  | _ => rfl

/-- A write of one element leaves every other element (R76). -/
theorem readElem_writeElem_ne {v : Word} {s : State} {r r' : Reg} (h : r ≠ r') :
    readElem (writeElem v s r) r' = readElem s r' := by
  obtain ⟨rfl, hw⟩ | ⟨rfl, hw⟩ | ⟨i, rfl, hw⟩ | ⟨i, rfl, hw⟩ | ⟨j, rfl, hw⟩ | hw := writeElem_cases s v r <;> rw [hw]
  · cases r' with
    | status => exact absurd rfl h
    | _ => rfl
  · cases r' with
    | arg0 => exact absurd rfl h
    | _ => rfl
  · cases r' with
    | qthr k => exact Vector.getElem_set_ne i.isLt k.isLt fun hk => h (congrArg _ (Fin.ext hk))
    | _ => rfl
  · cases r' with
    | qremap k => exact Vector.getElem_set_ne i.isLt k.isLt fun hk => h (congrArg _ (Fin.ext hk))
    | _ => rfl
  · cases r' with
    | inBlk k => exact Vector.getElem_set_ne j.isLt k.isLt fun hk => h (congrArg _ (Fin.ext hk))
    | _ => rfl

/-- Settles O13: the step writes one element, and offsets of other words belong to other elements. -/
theorem hostWriteChangesOnlyItsWord : Obligations.HostWriteChangesOnlyItsWord := by
  intro s off data rest h h4 hcmd
  refine ⟨_, step_busWrite_elem h h4 fun hr => hcmd (eq_cmdOffset h4 hr), rfl, rfl, (writeElem_env data s _).2.1, ?_⟩
  have hread : ∀ a, readReg a { writeElem data s (regAt off) with pending := rest, response := some .writeOk } =
      readElem (writeElem data s (regAt off)) (regAt a) := fun a => readElem_env _ _ _ _ _
  refine ⟨fun hw => ?_, fun hw hr => ?_, fun a ha => ?_⟩
  · rw [hread, readElem_writeElem_same hw]
  · rw [hread, writeElem_readOnly hw hr, readReg]
  · rw [readByte, hread, readByte, readReg]
    congr 1
    by_cases hres : regAt a = .reserved
    · rw [hres]; rfl
    · exact readElem_writeElem_ne (regAt_ne ha hres).symm

/-- Clearing ERR leaves the low byte of STATUS, where CODE stands (R35). -/
theorem statusWord_statusWrite (v : Word) (st : Status) :
    statusWord (statusWrite v st) = if v.getLsbD 8 then statusWord st &&& 0x000000FF#32 else statusWord st := by
  obtain ⟨code, err⟩ := st
  cases hv : v.getLsbD 8 with
  | false => simp only [statusWrite, hv, Bool.not_false, Bool.and_true, Bool.false_eq_true, if_false]
  | true =>
    simp only [statusWrite, hv, Bool.not_true, Bool.and_false, if_true]
    cases err <;> cases code <;> decide

/-- Settles O14: the write replaces STATUS by its write-1-to-clear value and nothing else. -/
theorem statusWriteClearsErrOnly : Obligations.StatusWriteClearsErrOnly := by
  intro s data rest h
  have hreg : regAt 0x0004 = .status := by decide
  have hstep := step_busWrite_elem h (by decide) (hreg ▸ nofun)
  rw [hreg] at hstep
  refine ⟨_, hstep, ?_, rfl⟩
  rw [readReg, readReg, hreg]
  exact statusWord_statusWrite data s.status

/-- Settles O16, from the definition of completion. -/
theorem completionSetsStatusOnly : Obligations.CompletionSetsStatusOnly := by
  refine fun x s => ⟨rfl, ?_, complete_frame x s⟩
  by_cases hx : x = .ok <;> simp [statusAfter, hx]

end Sys2Proof.Machine
end

section
/-! PROOFS. Everything a command can do, and what follows for its codes and its frame
(60_exceptions.md, 10_state.md section 7). -/

namespace Sys2Proof.Machine

/-- Everything a command can do, one constructor for each way it can end, under the conditions of that way (R293). -/
inductive ExecTo (s : State) : Instr → State → Prop
  | badField {i : Instr} (h : i.wellFormed = false) : ExecTo s i (complete .badField s)
  | nop {f : Fields} (h : noFields f = true) : ExecTo s (.nop f) (complete .ok s)
  | softReset {f : Fields} (h : noFields f = true) :
      ExecTo s (.softReset f) (complete .ok { applyReset s with cmd := softResetWord })
  | bufAppend {f : Fields} (h : blockFields f = true) {w : List Word}
      (hw : w = appendWindow Config.bufCap s.window (sampleBlock f s)) :
      ExecTo s (.bufAppend f) (complete .ok { s with window := w })
  | bufIsFull {f : Fields} (h : noFields f = true) :
      ExecTo s (.bufIsFull f) (complete .ok (setResult0 (flagWord (bufFill s == Config.bufCap)) s))
  | zcProcess {f : Fields} (h : blockFields f = true) {r : ZcState × Word}
      (hr : r = zcScan Config.sampleRate (s.zc, 0) (sampleBlock f s)) : ExecTo s (.zcProcess f)
      (complete .ok (setResults r.1.freq r.2 { s with zc := r.1, snap := snapCapture (sampleBlock f s) s.snap }))
  | zcReset {f : Fields} (h : noFields f = true) :
      ExecTo s (.zcReset f) (complete .ok { s with zc := ZcState.cleared })
  | snapStart {f : Fields} (h : noFields f = true) :
      ExecTo s (.snapStart f) (complete .ok { s with snap := { s.snap with armed := true } })
  | snapCheck {f : Fields} (h : noFields f = true) :
      ExecTo s (.snapCheck f) (complete .ok (setResults (flagWord s.snap.ready) (flagWord s.snap.armed) s))
  | snapComplete {f : Fields} (h : noFields f = true) :
      ExecTo s (.snapComplete f) (complete .ok { s with snap := { s.snap with ready := false } })
  | specShort {f : Fields} (h : spectralFields f = true) (hn : bufFill s < 2 ^ f.len.toNat) :
      ExecTo s (.specEstimate f) (complete .insufficientHistory s)
  | specBadArg {f : Fields} (h : spectralFields f = true) (hn : 2 ^ f.len.toNat ≤ bufFill s)
      (hx : (recentSamples (2 ^ f.len.toNat) s.window).all F32.finite = false) :
      ExecTo s (.specEstimate f) (complete .badArg s)
  | specEstimate {f : Fields} (h : spectralFields f = true) (hn : 2 ^ f.len.toNat ≤ bufFill s)
      (hx : (recentSamples (2 ^ f.len.toNat) s.window).all F32.finite = true) {n best : Nat} {freq : Word}
      (hN : n = 2 ^ f.len.toNat) (hb : best = peakBin (specMag n (recentSamples n s.window)) (n / 2))
      (hf : freq = binFreq Config.sampleRate n best) : ExecTo s (.specEstimate f)
      (complete .ok (setResults freq (u32 best) { s with spec := { freq := freq, bin := u32 best } }))
  | quantMatch {f : Fields} (h : noFields f = true) {i : Fin 16} (hi : toneOf s.qthr s.arg0 = some i) :
      ExecTo s (.quantRemap f) (complete .ok (setResults s.qremap[i.val] (u32 i) s))
  | quantNoMatch {f : Fields} (h : noFields f = true) (hi : toneOf s.qthr s.arg0 = none) :
      ExecTo s (.quantRemap f) (complete .noMatch (setResults s.qremap[0] 0 s))
  | quantCheck {f : Fields} (h : noFields f = true) : ExecTo s (.quantCheck f)
      (complete .ok (setResults (flagWord (firstUnordered s.qthr == 16)) (u32 (firstUnordered s.qthr)) s))
  | oscStartBadArg {f : Fields} (h : freqFields f = true)
      (ht : tune Config.ratio Config.sampleRate (selectFreq f s) = none) :
      ExecTo s (.oscStart f) (complete .badArg s)
  | oscStart {f : Fields} (h : freqFields f = true) {t : Tuning}
      (ht : tune Config.ratio Config.sampleRate (selectFreq f s) = some t) : ExecTo s (.oscStart f)
      (complete .ok { s with osc :=
        { started := true, fund := selectFreq f s, freq := t.freq, inc := t.inc, phase := Vector.replicate 4 0 } })
  | oscSetFreqNotStarted {f : Fields} (h : freqFields f = true) (hs : s.osc.started = false) :
      ExecTo s (.oscSetFreq f) (complete .notStarted s)
  | oscSetFreqBadArg {f : Fields} (h : freqFields f = true) (hs : s.osc.started = true)
      (ht : tune Config.ratio Config.sampleRate (selectFreq f s) = none) :
      ExecTo s (.oscSetFreq f) (complete .badArg s)
  | oscSetFreq {f : Fields} (h : freqFields f = true) (hs : s.osc.started = true) {t : Tuning}
      (ht : tune Config.ratio Config.sampleRate (selectFreq f s) = some t) : ExecTo s (.oscSetFreq f)
      (complete .ok { s with osc := { s.osc with fund := selectFreq f s, freq := t.freq, inc := t.inc } })
  | oscProcessNotStarted {f : Fields} (h : blockFields f = true) (hs : s.osc.started = false) :
      ExecTo s (.oscProcess f) (complete .notStarted s)
  | oscProcess {f : Fields} (h : blockFields f = true) (hs : s.osc.started = true) {b : BankOut}
      (hb : b = runBank voiceOut s.osc.inc f.len.toNat { phase := s.osc.phase, out := s.outBlk }) :
      ExecTo s (.oscProcess f) (complete .ok { s with osc := { s.osc with phase := b.phase }, outBlk := b.out })
  | edgeRising {f : Fields} (h : gateFields f = true) : ExecTo s (.edgeRising f)
      (complete .ok (storeReading (gateReading f s) (F32.lt s.edge.last (gateReading f s)) s))
  | edgeFalling {f : Fields} (h : gateFields f = true) : ExecTo s (.edgeFalling f)
      (complete .ok (storeReading (gateReading f s) (F32.lt (gateReading f s) s.edge.last) s))

section
variable {s t : State} {i : Instr}

/-- An ill-formed command ends with BAD_FIELD (R117). -/
theorem exec_badField (h : i.wellFormed = false) : exec i s = .next (complete .badField s) := by
  obtain ⟨-, he⟩ | ⟨hw, -⟩ := exec_cases i s
  · exact he
  · exact absurd hw (Bool.eq_false_iff.mp h)

theorem ExecTo.exec_eq (h : ExecTo s i t) : exec i s = .next t := by
  cases h with
  | badField h => exact exec_badField h
  | nop h => exact exec_nop h
  | softReset h => exact exec_softReset h
  | bufAppend h hw => rw [hw]; exact exec_bufAppend h
  | bufIsFull h => exact exec_bufIsFull h
  | zcProcess h hr => rw [hr]; exact exec_zcProcess h
  | zcReset h => exact exec_zcReset h
  | snapStart h => exact exec_snapStart h
  | snapCheck h => exact exec_snapCheck h
  | snapComplete h => exact exec_snapComplete h
  | specShort h hn => exact exec_specEstimate_short h hn
  | specBadArg h hn hx => exact exec_specEstimate_badArg h hn hx
  | specEstimate h hn hx hN hb hf => exact exec_specEstimate h hn hx hN hb hf
  | quantMatch h hi => exact exec_quantRemap_match h hi
  | quantNoMatch h hi => exact exec_quantRemap_noMatch h hi
  | quantCheck h => exact exec_quantCheck h
  | oscStartBadArg h ht => exact exec_oscStart_badArg h ht
  | oscStart h ht => exact exec_oscStart h ht
  | oscSetFreqNotStarted h hs => exact exec_oscSetFreq_notStarted h hs
  | oscSetFreqBadArg h hs ht => exact exec_oscSetFreq_badArg h hs ht
  | oscSetFreq h hs ht => exact exec_oscSetFreq h hs ht
  | oscProcessNotStarted h hs => exact exec_oscProcess_notStarted h hs
  | oscProcess h hs hb => exact exec_oscProcess h hs hb
  | edgeRising h => exact exec_edgeRising h
  | edgeFalling h => exact exec_edgeFalling h

/-- One of the ways of a command always applies (R293, R296). -/
theorem exists_execTo (i : Instr) (s : State) : ∃ t, ExecTo s i t := by
  cases hw : i.wellFormed with
  | false => exact ⟨_, .badField hw⟩
  | true =>
    cases i with
    | nop f => exact ⟨_, .nop (wellFormed_nop f ▸ hw)⟩
    | softReset f => exact ⟨_, .softReset (wellFormed_softReset f ▸ hw)⟩
    | bufAppend f => exact ⟨_, .bufAppend (wellFormed_bufAppend f ▸ hw) rfl⟩
    | bufIsFull f => exact ⟨_, .bufIsFull (wellFormed_bufIsFull f ▸ hw)⟩
    | zcProcess f => exact ⟨_, .zcProcess (wellFormed_zcProcess f ▸ hw) rfl⟩
    | zcReset f => exact ⟨_, .zcReset (wellFormed_zcReset f ▸ hw)⟩
    | snapStart f => exact ⟨_, .snapStart (wellFormed_snapStart f ▸ hw)⟩
    | snapCheck f => exact ⟨_, .snapCheck (wellFormed_snapCheck f ▸ hw)⟩
    | snapComplete f => exact ⟨_, .snapComplete (wellFormed_snapComplete f ▸ hw)⟩
    | specEstimate f =>
      rw [wellFormed_specEstimate] at hw
      obtain hn | hn := Nat.lt_or_ge (bufFill s) (2 ^ f.len.toNat)
      · exact ⟨_, .specShort hw hn⟩
      cases hx : (recentSamples (2 ^ f.len.toNat) s.window).all F32.finite with
      | false => exact ⟨_, .specBadArg hw hn hx⟩
      | true => exact ⟨_, .specEstimate hw hn hx rfl rfl rfl⟩
    | quantRemap f =>
      rw [wellFormed_quantRemap] at hw
      cases hi : toneOf s.qthr s.arg0 with
      | none => exact ⟨_, .quantNoMatch hw hi⟩
      | some i => exact ⟨_, .quantMatch hw hi⟩
    | quantCheck f => exact ⟨_, .quantCheck (wellFormed_quantCheck f ▸ hw)⟩
    | oscStart f =>
      rw [wellFormed_oscStart] at hw
      cases ht : tune Config.ratio Config.sampleRate (selectFreq f s) with
      | none => exact ⟨_, .oscStartBadArg hw ht⟩
      | some t => exact ⟨_, .oscStart hw ht⟩
    | oscSetFreq f =>
      rw [wellFormed_oscSetFreq] at hw
      cases hs : s.osc.started with
      | false => exact ⟨_, .oscSetFreqNotStarted hw hs⟩
      | true =>
        cases ht : tune Config.ratio Config.sampleRate (selectFreq f s) with
        | none => exact ⟨_, .oscSetFreqBadArg hw hs ht⟩
        | some t => exact ⟨_, .oscSetFreq hw hs ht⟩
    | oscProcess f =>
      rw [wellFormed_oscProcess] at hw
      cases hs : s.osc.started with
      | false => exact ⟨_, .oscProcessNotStarted hw hs⟩
      | true => exact ⟨_, .oscProcess hw hs rfl⟩
    | edgeRising f => exact ⟨_, .edgeRising (wellFormed_edgeRising f ▸ hw)⟩
    | edgeFalling f => exact ⟨_, .edgeFalling (wellFormed_edgeFalling f ▸ hw)⟩

/-- `ExecTo` is exactly what `exec` answers. -/
theorem exec_eq_next_iff : exec i s = .next t ↔ ExecTo s i t := by
  refine ⟨fun h => ?_, ExecTo.exec_eq⟩
  obtain ⟨u, hu⟩ := exists_execTo i s
  obtain rfl := Host.Outcome.next.inj (hu.exec_eq.symm.trans h)
  exact hu

/-- An ill-formed command and a command refused for its operands change STATUS only; no other end has a code of 1 to 5. -/
theorem ExecTo.status (h : ExecTo s i t) :
    (∃ x, x ≠ .ok ∧ t = complete x s) ∨ t.status.code = .ok ∨ t.status.code = .noMatch := by
  cases h with
  | badField | specShort | specBadArg | oscStartBadArg | oscSetFreqNotStarted | oscSetFreqBadArg
  | oscProcessNotStarted =>
    refine .inl ⟨_, ?_, rfl⟩
    decide
  | quantNoMatch => exact .inr (.inr rfl)
  | _ => exact .inr (.inl rfl)

/-- Every command but a well-formed SOFT_RESET ends by setting its code and keeping or setting ERR (R291). -/
theorem ExecTo.status_eq (h : ExecTo s i t) :
    (∃ x, t.status = statusAfter x s.status) ∨ ∃ f, i = .softReset f ∧ noFields f = true := by
  cases h with
  | softReset h => exact .inr ⟨_, rfl, h⟩
  | _ => exact .inl ⟨_, rfl⟩

end

/-- Settles O17: the ill-formed commands end BAD_FIELD, and of the ways a well-formed one can end none has that code. -/
theorem badFieldExactlyWhenIllFormed : Obligations.BadFieldExactlyWhenIllFormed := by
  refine fun i s => ⟨fun h => ?_, fun hw t ht => ?_⟩
  · rw [exec_badField h, complete, statusAfter_error (by decide)]
  · cases exec_eq_next_iff.mp ht with
    | badField h => exact absurd hw (Bool.eq_false_iff.mp h)
    | _ => exact nofun

/-- Settles O18: a code of 1 to 5 is neither OK nor NO_MATCH, so the command only completed. -/
theorem errorsChangeStatusOnly : Obligations.ErrorsChangeStatusOnly := by
  intro i s t h h1 h5
  obtain ⟨x, hx, rfl⟩ | hok | hno := (exec_eq_next_iff.mp h).status
  · exact ⟨by simp [statusAfter, hx], rfl⟩
  · rw [hok] at h1; exact absurd h1 (by decide)
  · rw [hno] at h5; exact absurd h5 (by decide)

/-- Completing a command never clears ERR (R291). -/
theorem statusAfter_err {st : Status} (h : st.err = true) (x : StatusCode) : (statusAfter x st).err = true := by
  simp [statusAfter, h]

/-- The only word of a well-formed SOFT_RESET is 0x00000001 (R281). -/
theorem eq_softResetWord {c : Word} {f : Fields} (hd : decode c = .ok (.softReset f)) (hf : noFields f = true) :
    c = softResetWord := by
  obtain ⟨hlow, hhigh, hsub, -, hlen⟩ := (fieldsLegal_iff _ _ _ _).mp hf
  obtain ⟨sub, len, rlow, rhigh⟩ := f
  obtain rfl : sub = 0 := BitVec.eq_of_toNat_eq (Nat.le_zero.mp hsub)
  obtain rfl : len = 0 := BitVec.eq_of_toNat_eq (Nat.le_zero.mp hlen)
  obtain rfl : rlow = 0 := hlow
  obtain rfl : rhigh = 0 := hhigh
  rw [← encode_of_decode hd]
  decide

/-- A step that serves a well-formed SOFT_RESET is a reset step (R281, R320). -/
theorem resetNext_of_softReset {s : State} {c : Word} {f : Fields} {rest : List Input}
    (h : s.pending = commandWrite c :: rest) (hd : decode c = .ok (.softReset f)) (hf : noFields f = true) :
    ResetNext s :=
  .inr (by rw [nextInput, h, List.head?_cons, eq_softResetWord hd hf])

/-- Settles O19: of everything a step can do, only the two resets and the write of STATUS touch ERR other than by
completing a command. -/
theorem errStaysUntilCleared : Obligations.ErrStaysUntilCleared := by
  intro s t hstep herr hreset hclear
  cases stepTo_of_step hstep with
  | idle | busRead | illegalWrite | gate => exact herr
  | illegalOpcode => exact statusAfter_err herr .illegalOpcode
  | reset h => exact absurd (.inl (by rw [nextInput, h, List.head?_cons])) hreset
  | command h hd he =>
    obtain ⟨x, hx⟩ | ⟨f, rfl, hf⟩ := (exec_eq_next_iff.mp he).status_eq
    · rw [hx]; exact statusAfter_err herr x
    · exact absurd (resetNext_of_softReset h hd hf) hreset
  | @elemWrite off data rest h h4 hr =>
    change (writeElem data s (regAt off)).status.err = true
    by_cases hst : regAt off = .status
    · obtain rfl := eq_statusOffset h4 hst
      have hbit : data.getLsbD 8 = false :=
        Bool.eq_false_iff.mpr fun hb => hclear data hb (by rw [nextInput, h, List.head?_cons])
      rw [hst]
      simp only [writeElem, statusWrite, herr, hbit, Bool.not_false, Bool.and_true]
    · obtain ⟨h, -⟩ | ⟨-, hw⟩ | ⟨i, -, hw⟩ | ⟨i, -, hw⟩ | ⟨j, -, hw⟩ | hw := writeElem_cases s data (regAt off)
      · exact absurd h hst
      all_goals rw [hw]; exact herr

/-- A command changes no element outside its row of the state table (R57). -/
theorem ExecTo.readElem_eq {s t : State} {i : Instr} (h : ExecTo s i t) {r : Reg} (hr : mayWrite i r = false) :
    readElem t r = readElem s r := by
  cases h with
  | badField | nop | specShort | specBadArg | oscStartBadArg | oscSetFreqNotStarted | oscSetFreqBadArg
  | oscProcessNotStarted =>
    cases r with
    | status => cases hr
    | _ => rfl
  | softReset => cases r <;> cases hr
  | bufAppend =>
    cases r with
    | status | bufFill | bufWin => cases hr
    | _ => rfl
  | bufIsFull =>
    cases r with
    | status | result0 => cases hr
    | _ => rfl
  | zcProcess =>
    cases r with
    | status | zcFreq | zcCount | zcLastPos | zcLast | zcFlags | snapFlags | snap | result0 | result1 => cases hr
    | _ => rfl
  | zcReset =>
    cases r with
    | status | zcFreq | zcCount | zcLastPos | zcLast | zcFlags => cases hr
    | _ => rfl
  | snapStart | snapComplete =>
    cases r with
    | status | snapFlags => cases hr
    | _ => rfl
  | snapCheck | quantMatch | quantNoMatch | quantCheck =>
    cases r with
    | status | result0 | result1 => cases hr
    | _ => rfl
  | specEstimate =>
    cases r with
    | status | specFreq | specBin | result0 | result1 => cases hr
    | _ => rfl
  | oscStart =>
    cases r with
    | status | oscFlags | oscFund | oscFreq | oscInc | oscPhase => cases hr
    | _ => rfl
  | oscSetFreq =>
    cases r with
    | status | oscFund | oscFreq | oscInc => cases hr
    | _ => rfl
  | oscProcess =>
    cases r with
    | status | oscPhase | outBlk => cases hr
    | _ => rfl
  | edgeRising | edgeFalling =>
    cases r with
    | status | edgeFlags | edgeLast | result0 => cases hr
    | _ => rfl

/-- Settles O20: the bytes of an element are read from the element, and every command leaves the rest alone. -/
theorem commandWritesOnlyItsElements : Obligations.CommandWritesOnlyItsElements := by
  intro i s t h
  obtain ⟨u, hu, hpending, hgate, hresponse⟩ := exec_env i s
  obtain rfl := Host.Outcome.next.inj (hu.symm.trans h)
  refine ⟨fun a ha => ?_, hgate, hpending, hresponse⟩
  rw [readByte, readByte, readReg, readReg, (exec_eq_next_iff.mp h).readElem_eq ha]

/-- With SUB other than 0 the reading of an edge command is ARG0's, whatever the level (R260, R261). -/
theorem gateReading_gateIn {f : Fields} (hf : f.sub ≠ 0) (s : State) (level : Bool) :
    gateReading f { s with gateIn := level } = gateReading f s := by
  simp only [gateReading, if_neg hf]

/-- The state with another level on the pin and another quantizer table: the elements few commands read (R216, R261). -/
def withPinAndTable (g : Bool) (thr : Vector Word 17) (tones : Vector Word 16) (s : State) : State :=
  { s with gateIn := g, qthr := thr, qremap := tones }

section
variable {s t : State} {i : Instr} (h : ExecTo s i t)
include h

/-- Only SOFT_RESET writes the quantizer table (R57). -/
theorem ExecTo.table_eq (hreset : ∀ f, i ≠ .softReset f) : t.qthr = s.qthr ∧ t.qremap = s.qremap := by
  cases h with
  | softReset => exact absurd rfl (hreset _)
  | _ => exact ⟨rfl, rfl⟩

/-- Each way a command can end is open at another level and with another table too, and ends the same, if the command
reads neither: only the edge commands read the level, only the quantizer commands read the table. -/
theorem ExecTo.atOtherPinAndTable (g : Bool) (thr : Vector Word 17) (tones : Vector Word 16)
    (hreset : ∀ f, i ≠ .softReset f)
    (hedge : ∀ f, i = .edgeRising f ∨ i = .edgeFalling f →
      gateReading f (withPinAndTable g thr tones s) = gateReading f s)
    (hquant : ∀ f, i = .quantRemap f ∨ i = .quantCheck f → thr = s.qthr ∧ tones = s.qremap) :
    ExecTo (withPinAndTable g thr tones s) i (withPinAndTable g thr tones t) := by
  cases h with
  | badField h => exact .badField (s := withPinAndTable g thr tones s) h
  | nop h => exact .nop (s := withPinAndTable g thr tones s) h
  | softReset => exact absurd rfl (hreset _)
  | bufAppend h hw => exact .bufAppend (s := withPinAndTable g thr tones s) h hw
  | bufIsFull h => exact .bufIsFull (s := withPinAndTable g thr tones s) h
  | zcProcess h hr => exact .zcProcess (s := withPinAndTable g thr tones s) h hr
  | zcReset h => exact .zcReset (s := withPinAndTable g thr tones s) h
  | snapStart h => exact .snapStart (s := withPinAndTable g thr tones s) h
  | snapCheck h => exact .snapCheck (s := withPinAndTable g thr tones s) h
  | snapComplete h => exact .snapComplete (s := withPinAndTable g thr tones s) h
  | specShort h hn => exact .specShort (s := withPinAndTable g thr tones s) h hn
  | specBadArg h hn hx => exact .specBadArg (s := withPinAndTable g thr tones s) h hn hx
  | specEstimate h hn hx hN hb hf =>
    exact .specEstimate (s := withPinAndTable g thr tones s) h hn hx hN hb hf
  | quantMatch h hi =>
    obtain ⟨rfl, rfl⟩ := hquant _ (.inl rfl)
    exact .quantMatch (s := withPinAndTable g s.qthr s.qremap s) h hi
  | quantNoMatch h hi =>
    obtain ⟨rfl, rfl⟩ := hquant _ (.inl rfl)
    exact .quantNoMatch (s := withPinAndTable g s.qthr s.qremap s) h hi
  | quantCheck h =>
    obtain ⟨rfl, rfl⟩ := hquant _ (.inr rfl)
    exact .quantCheck (s := withPinAndTable g s.qthr s.qremap s) h
  | oscStartBadArg h ht => exact .oscStartBadArg (s := withPinAndTable g thr tones s) h ht
  | oscStart h ht => exact .oscStart (s := withPinAndTable g thr tones s) h ht
  | oscSetFreqNotStarted h hs => exact .oscSetFreqNotStarted (s := withPinAndTable g thr tones s) h hs
  | oscSetFreqBadArg h hs ht => exact .oscSetFreqBadArg (s := withPinAndTable g thr tones s) h hs ht
  | oscSetFreq h hs ht => exact .oscSetFreq (s := withPinAndTable g thr tones s) h hs ht
  | oscProcessNotStarted h hs => exact .oscProcessNotStarted (s := withPinAndTable g thr tones s) h hs
  | oscProcess h hs hb => exact .oscProcess (s := withPinAndTable g thr tones s) h hs hb
  | edgeRising h =>
    rw [← hedge _ (.inl rfl)]
    exact .edgeRising (s := withPinAndTable g thr tones s) h
  | edgeFalling h =>
    rw [← hedge _ (.inr rfl)]
    exact .edgeFalling (s := withPinAndTable g thr tones s) h

end

/-- Settles O21: SOFT_RESET keeps the level, and every other command ends the same at either level. -/
theorem gateLevelUnseenByOtherCommands : Obligations.GateLevelUnseenByOtherCommands := by
  intro i s t level hexec hsub
  have h := exec_eq_next_iff.mp hexec
  rw [exec_eq_next_iff]
  by_cases hreset : ∃ f, i = .softReset f
  · obtain ⟨f, rfl⟩ := hreset
    cases h with
    | badField h => exact .badField (s := { s with gateIn := level }) h
    | softReset h => exact .softReset (s := { s with gateIn := level }) h
  · replace hreset : ∀ f, i ≠ .softReset f := not_exists.mp hreset
    obtain ⟨hthr, htones⟩ := h.table_eq hreset
    have hsame := h.atOtherPinAndTable level s.qthr s.qremap hreset (fun f hi => ?_) (fun _ _ => ⟨rfl, rfl⟩)
    · simpa only [withPinAndTable, ← hthr, ← htones] using hsame
    · exact gateReading_gateIn (fun h0 => hi.elim (hsub f h0).1 (hsub f h0).2) s level

/-- Settles O22: the commands left read no table, and none of them changes the level. -/
theorem quantizerTableUnseenByOtherCommands : Obligations.QuantizerTableUnseenByOtherCommands := by
  intro i s t thr tones hexec hquant
  have h := exec_eq_next_iff.mp hexec
  obtain ⟨u, hu, -, hgate, -⟩ := exec_env i s
  obtain rfl := Host.Outcome.next.inj (hu.symm.trans hexec)
  have hsame := h.atOtherPinAndTable s.gateIn thr tones (fun f => (hquant f).2.2) (fun _ _ => rfl)
    (fun f hi => absurd hi (not_or.mpr ⟨(hquant f).1, (hquant f).2.1⟩))
  rw [exec_eq_next_iff]
  simpa only [withPinAndTable, ← hgate] using hsame

end Sys2Proof.Machine
end

section
/-! PROOFS. Reset, NOP and the audio buffer (70_reset_and_hazards.md, 46_control.md, 40_buffer.md). -/

namespace Sys2Proof.Machine

/-! Reset -/

/-- What a reset block reads depends on no input (R320). -/
theorem readReg_applyReset (off : Offset) (s : State) : readReg off (applyReset s) = readReg off State.reset :=
  readReg_env off State.reset s.gateIn s.pending s.response

/-- The reset column of R57, element by element. -/
theorem readElem_reset (r : Reg) : readElem State.reset r =
    match r with
    | .id => 0x42570001#32
    | .cfgSampleRate => 0x473B8000#32
    | .cfgBufCap => 0x00001000#32
    | .cfgSnapLen => 0x00000030#32
    | .qthr i => Config.qthrReset[i]
    | .qremap i => Config.qremapReset[i]
    | _ => 0x00000000#32 := by
  cases r with
  | oscFreq v | oscInc v | oscPhase v => exact Vector.getElem_replicate v.isLt
  | inBlk j | snap j => exact Vector.getElem_replicate j.isLt
  | outBlk v j => simp [readElem, readElemFor, State.reset]
  | _ => rfl

/-- Settles O23: the reset state is read element by element. -/
theorem resetReadsTheResetColumn : Obligations.ResetReadsTheResetColumn := by
  intro s rest h
  refine ⟨_, (step_cons h).trans (serve_reset _), rfl, rfl, fun off => ?_⟩
  rw [readReg_applyReset, readReg, readElem_reset]
  exact ⟨rfl, rfl⟩

/-- SOFT_RESET leaves every element but CMD as a reset does (R281). -/
theorem readElem_softReset {s : State} {r : Reg} (hr : r ≠ .cmd) :
    readElem (complete .ok { applyReset s with cmd := softResetWord }) r = readElem State.reset r := by
  cases r with
  | cmd => exact absurd rfl hr
  | _ => rfl

/-- Settles O24: every element but CMD is that of the reset state. -/
theorem softResetResetsTheBlock : Obligations.SoftResetResetsTheBlock := by
  intro f s hwf
  rw [wellFormed_softReset] at hwf
  refine ⟨_, exec_softReset hwf, fun a ha => ?_, ?_, ?_, rfl, rfl, rfl⟩
  · rw [readByte, readByte, readReg, readReg, readElem_softReset ha]
  · rw [readReg, show regAt 0x0008 = .cmd by decide]
    rfl
  · rw [readReg, show regAt 0x0004 = .status by decide]
    exact (by decide : statusWord { code := .ok, err := false } = 0x00000000#32)

/-- Settles O28, from the command's own equation. -/
theorem nopOnlySetsCode : Obligations.NopOnlySetsCode := by
  intro f s hwf
  rw [exec_nop (wellFormed_nop f ▸ hwf), complete, statusAfter_ok]

/-! The fill of the window -/

/-- Settles O27: a step leaves the window, empties it at a reset, or appends to it. -/
theorem fillNeverDecreasesExceptAtReset : Obligations.FillNeverDecreasesExceptAtReset := by
  intro s t hs hreset hstep
  cases stepTo_of_step hstep with
  | idle | busRead | illegalWrite | gate | illegalOpcode => exact ⟨hs, le_rfl⟩
  | elemWrite => exact ⟨writeElem_memory_wf.mpr hs, by cases regAt _ <;> exact le_rfl⟩
  | reset h => exact absurd (.inl (by rw [nextInput, h, List.head?_cons])) hreset
  | command h hd he =>
    refine ⟨exec_memory_wf ?_ he, ?_⟩
    · exact hs
    obtain hw | ⟨-, f, rfl, hf⟩ | ⟨f, -, hw⟩ := exec_window he
    · rw [bufFill, bufFill, hw]
    · exact absurd (resetNext_of_softReset h hd hf) hreset
    · rw [bufFill, bufFill, hw, appendWindow_length]
      exact le_min hs (Nat.le_add_right _ _)

/-- What is appended to an empty window block by block is in the window as if appended at once (R142). -/
theorem runBlocks_bufAppend (blocks : List StagedBlock) (s : State)
    (hwf : ∀ b ∈ blocks, (Instr.bufAppend b.2).wellFormed = true) (hs : s.window.length ≤ Config.bufCap) :
    ∃ t, runBlocks .bufAppend blocks s = .next t ∧
      t.window = appendWindow Config.bufCap s.window (blocks.map StagedBlock.samples).flatten := by
  induction blocks generalizing s with
  | nil => exact ⟨s, rfl, (appendWindow_room (by simpa using hs)).trans (List.append_nil _) |>.symm⟩
  | cons b rest ih =>
    obtain ⟨hb, hrest⟩ := List.forall_mem_cons.mp hwf
    obtain ⟨w, hw⟩ : ∃ w, w = appendWindow Config.bufCap s.window b.samples := ⟨_, rfl⟩
    have hexec := (ExecTo.bufAppend (s := { s with inBlk := b.1 }) (wellFormed_bufAppend b.2 ▸ hb) hw).exec_eq
    have hlen : w.length ≤ Config.bufCap := hw ▸ appendWindow_memory_wf s.window b.samples
    obtain ⟨t, ht, hwindow⟩ := ih (complete .ok { s with inBlk := b.1, window := w }) hrest hlen
    refine ⟨t, ?_, ?_⟩
    · simp only [runBlocks, hexec, ht]
    · rw [hwindow, complete_window, hw, appendWindow_append, List.map_cons, List.flatten_cons]

/-- Settles O30: from an empty window the append of everything is the tail of it. -/
theorem windowIsTailOfAllAppends : Obligations.WindowIsTailOfAllAppends := by
  intro blocks s hempty hwf
  obtain ⟨t, ht, hwindow⟩ := runBlocks_bufAppend blocks s hwf (by simp [hempty])
  rw [hempty] at hwindow
  refine ⟨t, ht, ?_, ?_⟩
  · rw [hwindow, appendWindow_length, List.length_nil, Nat.zero_add, bufCap_eq]
  · rw [hwindow, appendWindow_nil_left]
    exact List.drop_suffix _ _

theorem flagWord_eq_one_iff (b : Bool) : flagWord b = 1 ↔ b = true := by cases b <;> decide

theorem flagWord_eq_zero_iff (b : Bool) : flagWord b = 0 ↔ b = false := by cases b <;> decide

/-- Settles O31: RESULT0 is the flag of the comparison of BUF_FILL with BUF_CAP. -/
theorem bufIsFullReportsFullness : Obligations.BufIsFullReportsFullness := by
  intro f s hwf
  refine ⟨_, exec_bufIsFull (wellFormed_bufIsFull f ▸ hwf), ?_, ?_, rfl, rfl⟩
  · rw [complete_result0, setResult0_result0, flagWord_eq_one_iff, beq_iff_eq, bufFill, bufCap_eq]
  · rw [complete_result0, setResult0_result0, flagWord_eq_zero_iff, beq_eq_false_iff_ne, bufFill, bufCap_eq]

/-! The ring (R42) -/

/-- An index below twice the capacity wraps at most once. -/
theorem mod_of_lt_two_mul {a cap : Nat} (h : a < 2 * cap) : a % cap = if a < cap then a else a - cap := by
  split_ifs with hlt
  · exact Nat.mod_eq_of_lt hlt
  · rw [Nat.mod_eq_sub_mod (by omega), Nat.mod_eq_of_lt (by omega)]

theorem vector_getD_setIfInBounds {n : Nat} (v : Vector Word n) (x d : Word) {j i : Nat} (hj : j < n) :
    (v.setIfInBounds j x).getD i d = if j = i then x else v.getD i d := by
  simp only [Vector.getD, Array.getD_eq_getD_getElem?, Vector.toArray_setIfInBounds, Array.getElem?_setIfInBounds,
    Vector.size_toArray, hj, if_true]
  split_ifs <;> rfl

section
variable {cap : Nat} {r : Ring cap}

theorem ringPush_wf (hr : Ring.wf r) (x : Word) : Ring.wf (ringPush r x) := by
  obtain ⟨hnext, hfill⟩ := hr
  refine ⟨Nat.mod_lt _ (by omega), ?_⟩
  change (if r.fill < cap then r.fill + 1 else cap) ≤ cap
  split_ifs <;> omega

theorem ringWindow_length (r : Ring cap) : (ringWindow r).length = r.fill := by simp [ringWindow]

/-- The cell of a ring that holds sample `i` of its window (R42). -/
def ringIndex (r : Ring cap) (i : Nat) : Nat := (r.next + cap - r.fill + i) % cap

theorem ringWindow_getElem {i : Nat} (h : i < (ringWindow r).length) :
    (ringWindow r)[i] = r.cells.getD (ringIndex r i) 0 := by
  simp [ringWindow, ringIndex]

variable (hr : Ring.wf r)
include hr

/-- The newest sample of a window is in the cell written last. -/
theorem ringIndex_push_last (x : Word) : ringIndex (ringPush r x) ((ringPush r x).fill - 1) = r.next := by
  obtain ⟨hnext, hfill⟩ := hr
  have hpush : (r.next + 1) % cap = if r.next + 1 < cap then r.next + 1 else r.next + 1 - cap :=
    mod_of_lt_two_mul (by omega)
  simp only [ringIndex, ringPush, hpush]
  split_ifs <;> rw [mod_of_lt_two_mul (by omega)] <;> split_ifs <;> omega

/-- An older sample of a window stays where it was: counted from the newest, its place is one less before the push. -/
theorem ringIndex_push_of_lt (x : Word) {i : Nat} (hi : i + 1 < (ringPush r x).fill) :
    ringIndex (ringPush r x) i = ringIndex r (i + (r.fill + 1 - (ringPush r x).fill)) ∧
      ringIndex (ringPush r x) i ≠ r.next := by
  obtain ⟨hnext, hfill⟩ := hr
  have hpush : (r.next + 1) % cap = if r.next + 1 < cap then r.next + 1 else r.next + 1 - cap :=
    mod_of_lt_two_mul (by omega)
  simp only [ringIndex, ringPush, hpush] at hi ⊢
  split_ifs at hi ⊢ <;> rw [mod_of_lt_two_mul (by omega), mod_of_lt_two_mul (by omega)] <;> split_ifs <;> omega

/-- One sample pushed into a ring is one sample appended to its window (R42). -/
theorem ringWindow_push (x : Word) : ringWindow (ringPush r x) = appendWindow cap (ringWindow r) [x] := by
  have hfill : (ringPush r x).fill = min cap (r.fill + 1) := by
    have := hr.2
    change (if r.fill < cap then r.fill + 1 else cap) = _
    split_ifs <;> omega
  have hlen : (appendWindow cap (ringWindow r) [x]).length = (ringPush r x).fill := by
    rw [appendWindow_length, ringWindow_length, hfill, List.length_singleton]
  refine List.ext_getElem (by rw [ringWindow_length, hlen]) fun i h₁ h₂ => ?_
  rw [hlen] at h₂
  have hcell : (ringPush r x).cells.getD (ringIndex (ringPush r x) i) 0 =
      if r.next = ringIndex (ringPush r x) i then x else r.cells.getD (ringIndex (ringPush r x) i) 0 :=
    vector_getD_setIfInBounds r.cells x 0 hr.1
  simp only [ringWindow_getElem, hcell, appendWindow, List.getElem_drop]
  obtain hold | hnew : i + 1 < (ringPush r x).fill ∨ i = (ringPush r x).fill - 1 := by omega
  · obtain ⟨hsame, hne⟩ := ringIndex_push_of_lt hr x hold
    rw [if_neg (Ne.symm hne), List.getElem_append_left, ringWindow_getElem, hsame]
    · congr 2
      simp [ringWindow_length]
      omega
    · simp [ringWindow_length]
      omega
  · rw [if_pos (by rw [hnew, ringIndex_push_last hr]), List.getElem_append_right]
    · simp
    · simp [ringWindow_length]
      omega

end

/-- Settles O32, sample by sample. -/
theorem ringRefinesTheWindow : Obligations.RingRefinesTheWindow := by
  intro cap r xs hr
  suffices h : Ring.wf (xs.foldl ringPush r) ∧ ringWindow (xs.foldl ringPush r) = appendWindow cap (ringWindow r) xs from
    ⟨h.1, by rw [← h.2, ringWindow_length], h.2⟩
  induction xs generalizing r with
  | nil => exact ⟨hr, (by rw [List.foldl_nil, appendWindow_room] <;> simp [ringWindow_length, hr.2])⟩
  | cons x xs ih =>
    obtain ⟨hwf, hwindow⟩ := ih (ringPush r x) (ringPush_wf hr x)
    refine ⟨hwf, ?_⟩
    rw [List.foldl_cons, hwindow, ringWindow_push hr, appendWindow_append, List.singleton_append]

end Sys2Proof.Machine
end

section
/-! PROOFS. Rounding to binary32: the nearest number, ties to even, overflow at 2^128 - 2^103 (00_scope.md, R17, R18). -/

namespace Sys2Proof.Machine.F32

/-! The fields of a word, as digits of its number -/

section
variable (x : Word)

theorem expField_eq : expField x = x.toNat / 2 ^ 23 % 256 := by
  simp [expField, Nat.shiftRight_eq_div_pow]

theorem fracField_eq : fracField x = x.toNat % 2 ^ 23 := by simp [fracField]

theorem sign_eq : sign x = decide (2 ^ 31 ≤ x.toNat) := by
  rw [sign, ← BitVec.msb_eq_getLsbD_last, BitVec.msb_eq_decide]

theorem expField_lt : expField x < 256 := by rw [expField_eq]; omega

theorem fracField_lt : fracField x < 2 ^ 23 := by rw [fracField_eq]; omega

end

section
variable {s : Bool} {b : Nat}

/-- Sign and magnitude bits do not overlap. -/
theorem toNat_withSign (h : b < 2 ^ 31) : (withSign s b).toNat = (if s then 2 ^ 31 else 0) + b := by
  have hb : (u32 b).toNat = b := by rw [u32, BitVec.toNat_ofNat, Nat.mod_eq_of_lt (by omega)]
  rw [withSign, BitVec.toNat_or, hb]
  cases s with
  | false => simp
  | true => exact (Nat.two_pow_add_eq_or_of_lt h 1).symm

theorem sign_withSign (h : b < 2 ^ 31) : sign (withSign s b) = s := by
  rw [sign_eq, toNat_withSign h]
  cases s with
  | false => exact decide_eq_false (by simpa using h)
  | true => exact decide_eq_true (Nat.le_add_right _ _)

theorem expField_withSign (h : b < 2 ^ 31) : expField (withSign s b) = b / 2 ^ 23 := by
  rw [expField_eq, toNat_withSign h]
  split_ifs <;> omega

theorem fracField_withSign (h : b < 2 ^ 31) : fracField (withSign s b) = b % 2 ^ 23 := by
  rw [fracField_eq, toNat_withSign h]
  split_ifs <;> omega

theorem finite_withSign (h : b < 0x7F800000) : finite (withSign s b) = true := by
  simp [finite, expField_withSign (s := s) (b := b) (by omega)]
  omega

theorem isInf_withSign_iff (h : b ≤ 0x7F800000) : isInf (withSign s b) = true ↔ b = 0x7F800000 := by
  simp only [isInf, expField_withSign (s := s) (b := b) (by omega), fracField_withSign (s := s) (b := b) (by omega),
    Bool.and_eq_true, beq_iff_eq]
  omega

theorem isNaN_withSign (h : b ≤ 0x7F800000) : isNaN (withSign s b) = false := by
  simp only [isNaN, expField_withSign (s := s) (b := b) (by omega), fracField_withSign (s := s) (b := b) (by omega),
    Bool.and_eq_false_iff, beq_eq_false_iff_ne, bne_eq_false_iff_eq]
  omega

theorem rne32_eq_withSign (n d : Nat) : rne32 n d = withSign false (roundMag n d) := by
  simp [rne32, withSign]

/-- The number with scale `k` and significand `q`: a significand of 2^24 carries into the exponent, and one below
2^23 is a subnormal number (R17). -/
theorem mag_withSign {k q : Nat} (hb : k * 2 ^ 23 + q < 0x7F800000) (hq : q ≤ 2 ^ 24) (hk : k = 0 ∨ 2 ^ 23 ≤ q) :
    mag (withSign s (k * 2 ^ 23 + q)) = q * 2 ^ k := by
  rw [mag, expField_withSign (by omega), fracField_withSign (by omega)]
  obtain hsub | ⟨hlow, hhigh⟩ | hcarry : q < 2 ^ 23 ∨ (2 ^ 23 ≤ q ∧ q < 2 ^ 24) ∨ q = 2 ^ 24 := by omega
  · obtain rfl : k = 0 := by omega
    rw [if_pos (by omega)]
    omega
  · rw [if_neg (by omega), show (k * 2 ^ 23 + q) / 2 ^ 23 - 1 = k by omega,
      show 2 ^ 23 + (k * 2 ^ 23 + q) % 2 ^ 23 = q by omega]
  · rw [if_neg (by omega), show (k * 2 ^ 23 + q) / 2 ^ 23 - 1 = k + 1 by omega,
      show 2 ^ 23 + (k * 2 ^ 23 + q) % 2 ^ 23 = 2 ^ 23 by omega, hcarry]
    ring

end

/-- A magnitude has 24 significant bits: it is a multiple of 2^k, or less than 2^(k + 23). -/
theorem mag_dvd_or_lt (y : Word) (k : Nat) : 2 ^ k ∣ mag y ∨ mag y < 2 ^ (k + 23) := by
  have hfrac := fracField_lt y
  rw [mag]
  split_ifs with he
  · right
    calc fracField y < 2 ^ 23 := hfrac
      _ ≤ 2 ^ (k + 23) := Nat.pow_le_pow_right (by decide) (by omega)
  · obtain hlt | hle := Nat.lt_or_ge (expField y - 1) k
    · right
      calc (2 ^ 23 + fracField y) * 2 ^ (expField y - 1)
          < 2 ^ 24 * 2 ^ (expField y - 1) := Nat.mul_lt_mul_of_pos_right (by omega) (by positivity)
        _ = 2 ^ (24 + (expField y - 1)) := (Nat.pow_add ..).symm
        _ ≤ 2 ^ (k + 23) := Nat.pow_le_pow_right (by decide) (by omega)
    · exact .inl (Dvd.dvd.mul_left (Nat.pow_dvd_pow 2 hle) _)

/-! Rounding to an integer -/

section
variable {n d : Nat}

theorem div_le_roundDiv : n / d ≤ roundDiv n d := by
  simp only [roundDiv]
  split_ifs <;> omega

theorem roundDiv_le : roundDiv n d ≤ n / d + 1 := by
  simp only [roundDiv]
  split_ifs <;> omega

/-- A quotient rounds down or up, towards the nearer integer (R18). -/
theorem roundDiv_cases :
    (roundDiv n d = n / d ∧ 2 * (n % d) ≤ d) ∨ (roundDiv n d = n / d + 1 ∧ d ≤ 2 * (n % d)) := by
  simp only [roundDiv]
  split_ifs <;> omega

/-- A tie rounds to the even one of the two integers (R18). -/
theorem roundDiv_even_of_tie (h : 2 * (n % d) = d) : roundDiv n d % 2 = 0 := by
  simp only [roundDiv]
  split_ifs <;> omega

theorem abs_div_mul_sub : |((n / d : ℕ) * d - n : ℤ)| = (n % d : ℕ) := by
  have hn : (n : ℤ) = d * (n / d : ℕ) + (n % d : ℕ) := by exact_mod_cast (Nat.div_add_mod n d).symm
  rw [show ((n / d : ℕ) * d - n : ℤ) = -(n % d : ℕ) by linarith, abs_neg, Nat.abs_cast]

theorem abs_succ_div_mul_sub (hd : 0 < d) : |((n / d + 1 : ℕ) * d - n : ℤ)| = (d - n % d : ℕ) := by
  have hn : (n : ℤ) = d * (n / d : ℕ) + (n % d : ℕ) := by exact_mod_cast (Nat.div_add_mod n d).symm
  have hr := (Nat.mod_lt n hd).le
  rw [show ((n / d + 1 : ℕ) * d - n : ℤ) = (d - n % d : ℕ) by rw [hn]; push_cast [hr]; ring, Nat.abs_cast]

/-- A rounded quotient is off by at most one half. -/
theorem roundDiv_error (hd : 0 < d) : 2 * |(roundDiv n d * d - n : ℤ)| ≤ d := by
  obtain ⟨hq, h⟩ | ⟨hq, h⟩ := roundDiv_cases (n := n) (d := d)
  · rw [hq, abs_div_mul_sub]
    omega
  · rw [hq, abs_succ_div_mul_sub hd]
    omega

theorem roundDiv_error_rat (hd : 0 < d) : 2 * |(roundDiv n d : ℚ) * d - n| ≤ d := by
  exact_mod_cast roundDiv_error (n := n) hd

/-- Two distinct integers are a whole unit apart, so the second is off by at least one half. -/
theorem roundDiv_other {b : Nat} (hb : b ≠ roundDiv n d) :
    (d : ℤ) ≤ |(b * d - n : ℤ)| + |(roundDiv n d * d - n : ℤ)| := by
  have hgap : (1 : ℤ) ≤ |(b : ℤ) - roundDiv n d| := Int.one_le_abs (sub_ne_zero.mpr (by exact_mod_cast hb))
  calc (d : ℤ) ≤ |(b : ℤ) - roundDiv n d| * d := by nlinarith
    _ = |((b : ℤ) * d - n) - (roundDiv n d * d - n)| := by
      rw [show ((b : ℤ) * d - n) - (roundDiv n d * d - n) = ((b : ℤ) - roundDiv n d) * d by ring, abs_mul, Nat.abs_cast]
    _ ≤ |(b * d - n : ℤ)| + |(roundDiv n d * d - n : ℤ)| := abs_sub _ _

/-- No integer is nearer to the quotient than the rounded one. -/
theorem roundDiv_nearest (hd : 0 < d) (b : Nat) : |(roundDiv n d * d - n : ℤ)| ≤ |(b * d - n : ℤ)| := by
  by_cases hb : b = roundDiv n d
  · rw [hb]
  · have hother := roundDiv_other hb
    have herror := roundDiv_error (n := n) hd
    omega

/-- Where another integer is as near, the rounded one is even (R18). -/
theorem roundDiv_tie (hd : 0 < d) {b : Nat} (h : |(b * d - n : ℤ)| = |(roundDiv n d * d - n : ℤ)|) :
    b = roundDiv n d ∨ roundDiv n d % 2 = 0 := by
  refine or_iff_not_imp_left.mpr fun hb => roundDiv_even_of_tie ?_
  have hother := roundDiv_other hb
  obtain ⟨hq, hr⟩ | ⟨hq, hr⟩ := roundDiv_cases (n := n) (d := d)
  · rw [h, hq, abs_div_mul_sub] at hother
    omega
  · rw [h, hq, abs_succ_div_mul_sub hd] at hother
    omega

end

/-! Scale and significand of a rounded ratio -/

section
variable (n d : Nat)

/-- The scale of a rounded ratio: the weight of its last bit, in units of 2^-149. -/
def scale : Nat := Nat.log2 (n * 2 ^ 149 / d) - 23

/-- The significand of a rounded ratio. -/
def significand : Nat := roundDiv (n * 2 ^ 149) (d * 2 ^ scale n d)

theorem roundMag_eq : roundMag n d = min (scale n d * 2 ^ 23 + significand n d) 0x7F800000 := rfl

variable {n d} (hd : 0 < d)
include hd

theorem lt_scale : n * 2 ^ 149 < 2 ^ (scale n d + 24) * d := by
  rw [← Nat.div_lt_iff_lt_mul hd]
  calc n * 2 ^ 149 / d < 2 ^ (Nat.log2 (n * 2 ^ 149 / d) + 1) := Nat.lt_log2_self
    _ ≤ 2 ^ (scale n d + 24) := Nat.pow_le_pow_right (by decide) (by rw [scale]; omega)

theorem scale_le (h : scale n d ≠ 0) : 2 ^ (scale n d + 23) * d ≤ n * 2 ^ 149 := by
  rw [← Nat.le_div_iff_mul_le hd]
  have hlog : scale n d + 23 = Nat.log2 (n * 2 ^ 149 / d) := by
    rw [scale] at h ⊢
    omega
  rw [hlog]
  refine Nat.log2_self_le fun h0 => h ?_
  rw [scale, h0, Nat.log2_zero]

theorem quotient_lt : n * 2 ^ 149 / (d * 2 ^ scale n d) < 2 ^ 24 := by
  rw [Nat.div_lt_iff_lt_mul (by positivity)]
  calc n * 2 ^ 149 < 2 ^ (scale n d + 24) * d := lt_scale hd
    _ = 2 ^ 24 * (d * 2 ^ scale n d) := by ring

theorem significand_le : significand n d ≤ 2 ^ 24 := roundDiv_le.trans (quotient_lt hd)

theorem le_significand (h : scale n d ≠ 0) : 2 ^ 23 ≤ significand n d := by
  refine le_trans ?_ div_le_roundDiv
  rw [Nat.le_div_iff_mul_le (by positivity)]
  calc 2 ^ 23 * (d * 2 ^ scale n d) = 2 ^ (scale n d + 23) * d := by ring
    _ ≤ n * 2 ^ 149 := scale_le hd h

/-- A ratio rounds to infinity exactly from 2^128 - 2^103 on, halfway from the largest finite number to 2^128 (R18). -/
theorem overflow_iff : 0x7F800000 ≤ scale n d * 2 ^ 23 + significand n d ↔ (2 ^ 128 - 2 ^ 103) * d ≤ n := by
  have hle := significand_le (n := n) hd
  have hlt := lt_scale (n := n) hd
  obtain hk | hk | hk := Nat.lt_trichotomy (scale n d) 253
  · have hpow : 2 ^ (scale n d + 24) * d ≤ 2 ^ 127 * 2 ^ 149 * d :=
      Nat.mul_le_mul_right d ((Nat.pow_le_pow_right (by decide) (by omega)).trans_eq (Nat.pow_add 2 127 149))
    exact iff_of_false (by omega) (by omega)
  · have hcases := roundDiv_cases (n := n * 2 ^ 149) (d := d * 2 ^ 253)
    have heven := roundDiv_even_of_tie (n := n * 2 ^ 149) (d := d * 2 ^ 253)
    have hdiv := Nat.div_add_mod (n * 2 ^ 149) (d * 2 ^ 253)
    have hmod := Nat.mod_lt (n * 2 ^ 149) (show d * 2 ^ 253 > 0 by positivity)
    have hq := quotient_lt (n := n) hd
    rw [significand]
    rw [hk] at hq ⊢
    generalize n * 2 ^ 149 / (d * 2 ^ 253) = q at hdiv hcases hq
    generalize n * 2 ^ 149 % (d * 2 ^ 253) = r at hdiv hcases hmod heven
    obtain rfl | hsmall : q = 2 ^ 24 - 1 ∨ q ≤ 2 ^ 24 - 2 := by omega
    · omega
    · have hprod := Nat.mul_le_mul_left (d * 2 ^ 253) hsmall
      omega
  · have hge := scale_le hd (n := n) (by omega)
    rw [show scale n d + 23 = scale n d - 126 + 149 by omega, Nat.pow_add] at hge
    have hpow : 2 ^ 128 * 2 ^ 149 * d ≤ 2 ^ (scale n d - 126) * 2 ^ 149 * d :=
      Nat.mul_le_mul_right d (Nat.mul_le_mul_right _ (Nat.pow_le_pow_right (by decide) (by omega)))
    have hsig := le_significand hd (n := n) (by omega)
    exact iff_of_true (by omega) (by omega)

end

/-! The rounded ratio among the finite numbers -/

/-- The sign of a ratio and of the word that stands for it. -/
def signed (s : Bool) (v : ℚ) : ℚ := if s then -v else v

theorem abs_signed (s : Bool) (v : ℚ) : |signed s v| = |v| := by cases s <;> simp [signed]

theorem signed_not (s : Bool) (v : ℚ) : signed (!s) v = signed s (-v) := by cases s <;> simp [signed]

theorem signed_mul (s t : Bool) (v w : ℚ) : signed s v * signed t w = signed (s != t) (v * w) := by
  cases s <;> cases t <;> simp [signed]

/-- Two numbers of the same sign are as far apart as their magnitudes. -/
theorem abs_signed_sub (s : Bool) (v w : ℚ) : |signed s v - signed s w| = |v - w| := by
  cases s
  · rfl
  · rw [signed, signed, if_pos rfl, if_pos rfl, neg_sub_neg, abs_sub_comm]

/-- A number as near to `v` as the one of opposite sign is 0, if it is as near to `v` as 0 is. -/
theorem eq_zero_of_opposite {r v : ℚ} (hr : 0 ≤ r) (hv : 0 ≤ v) (h : |-r - v| = |r - v|) (h0 : |r - v| ≤ v) : r = 0 := by
  rw [← h, show -r - v = -(r + v) by ring, abs_neg, abs_of_nonneg (add_nonneg hr hv)] at h0
  linarith

theorem mag_posZero : mag posZero = 0 := by decide

theorem val_eq_signed (x : Word) : val x = signed (sign x) (mag x / 2 ^ 149) := by
  rw [val, ival, signed]
  split_ifs <;> push_cast <;> ring

section
variable {n d : Nat} (hd : 0 < d)
include hd

theorem roundMag_lt_inf (h : n < (2 ^ 128 - 2 ^ 103) * d) : scale n d * 2 ^ 23 + significand n d < 0x7F800000 :=
  Nat.lt_of_not_le fun hle => Nat.not_le.mpr h ((overflow_iff hd).mp hle)

theorem roundMag_of_lt (h : n < (2 ^ 128 - 2 ^ 103) * d) : roundMag n d = scale n d * 2 ^ 23 + significand n d :=
  (roundMag_eq n d).trans (Nat.min_eq_left (roundMag_lt_inf hd h).le)

/-- The rounded ratio is the significand at its scale. -/
theorem mag_withSign_roundMag (s : Bool) (h : n < (2 ^ 128 - 2 ^ 103) * d) :
    mag (withSign s (roundMag n d)) = significand n d * 2 ^ scale n d := by
  rw [roundMag_of_lt hd h]
  exact mag_withSign (roundMag_lt_inf hd h) (significand_le hd) (Decidable.or_iff_not_imp_left.mpr (le_significand hd))

/-- No multiple of the weight of the last bit is nearer to the ratio than the significand, and where one is as near the
significand is even. Units of 2^-149 / d, here and in the next two lemmas. -/
theorem significand_nearest (b : Nat) :
    |(significand n d * (d * 2 ^ scale n d) - n * 2 ^ 149 : ℤ)| ≤ |(b * (d * 2 ^ scale n d) - n * 2 ^ 149 : ℤ)| ∧
      (|(b * (d * 2 ^ scale n d) - n * 2 ^ 149 : ℤ)| = |(significand n d * (d * 2 ^ scale n d) - n * 2 ^ 149 : ℤ)| →
        b = significand n d ∨ significand n d % 2 = 0) := by
  have hD : 0 < d * 2 ^ scale n d := by positivity
  have hnear := roundDiv_nearest (n := n * 2 ^ 149) hD b
  have htie := roundDiv_tie (n := n * 2 ^ 149) hD (b := b)
  rw [← significand] at hnear htie
  push_cast at hnear htie
  exact ⟨hnear, htie⟩

/-- A magnitude below the scale of the ratio is farther off than the significand: the least number at that scale lies
between it and the ratio. -/
theorem significand_nearer {y : Word} (hy : ¬2 ^ scale n d ∣ mag y) :
    |(significand n d * (d * 2 ^ scale n d) - n * 2 ^ 149 : ℤ)| < |(mag y * d - n * 2 ^ 149 : ℤ)| := by
  have hk : scale n d ≠ 0 := fun h0 => hy (by rw [h0]; exact one_dvd _)
  have hge : ((2 ^ 23 : ℕ) * (d * 2 ^ scale n d) : ℤ) ≤ n * 2 ^ 149 := by
    have := scale_le hd hk
    rw [Nat.pow_add] at this
    exact_mod_cast (by linarith : 2 ^ 23 * (d * 2 ^ scale n d) ≤ n * 2 ^ 149)
  have hbelow : (mag y * d : ℤ) < (2 ^ 23 : ℕ) * (d * 2 ^ scale n d) := by
    have := Nat.mul_lt_mul_of_pos_right ((mag_dvd_or_lt y (scale n d)).resolve_left hy) hd
    rw [Nat.pow_add] at this
    exact_mod_cast (by linarith : mag y * d < 2 ^ 23 * (d * 2 ^ scale n d))
  refine (significand_nearest hd (2 ^ 23)).1.trans_lt ?_
  rw [abs_of_nonpos (by linarith), abs_of_nonpos (by linarith)]
  linarith

/-- No magnitude is nearer to the ratio than the rounded one, and where one is as near the rounded significand is even. -/
theorem mag_nearest (y : Word) :
    |((significand n d * 2 ^ scale n d * d - n * 2 ^ 149 : ℤ))| ≤ |(mag y * d - n * 2 ^ 149 : ℤ)| ∧
      (|(mag y * d - n * 2 ^ 149 : ℤ)| = |((significand n d * 2 ^ scale n d * d - n * 2 ^ 149 : ℤ))| →
        mag y = significand n d * 2 ^ scale n d ∨ significand n d % 2 = 0) := by
  rw [show (significand n d * 2 ^ scale n d * d : ℤ) = significand n d * (d * 2 ^ scale n d) by ring]
  by_cases hdvd : 2 ^ scale n d ∣ mag y
  · obtain ⟨b, hb⟩ := hdvd
    obtain ⟨hnear, htie⟩ := significand_nearest (n := n) hd b
    rw [show (mag y * d : ℤ) = b * (d * 2 ^ scale n d) by rw [hb]; push_cast; ring]
    refine ⟨hnear, fun h => (htie h).imp_left fun hq => ?_⟩
    rw [hb, hq, Nat.mul_comm]
  · have hlt := significand_nearer hd hdvd
    exact ⟨hlt.le, fun h => absurd h hlt.ne'⟩

/-- The error of a magnitude, in the units of `mag_nearest`. -/
theorem abs_mag_sub_ratio (m : ℕ) :
    |(m : ℚ) / 2 ^ 149 - n / d| = ((|(m * d - n * 2 ^ 149 : ℤ)| : ℤ) : ℚ) / (2 ^ 149 * d) := by
  have hd' : (0 : ℚ) < d := by exact_mod_cast hd
  rw [show (m : ℚ) / 2 ^ 149 - n / d = (m * d - n * 2 ^ 149) / (2 ^ 149 * d) by field_simp, abs_div,
    abs_of_pos (by positivity : (0 : ℚ) < 2 ^ 149 * d)]
  push_cast
  rfl

/-- The rounded magnitude is the nearest of all magnitudes, ties to an even fraction (R18). -/
theorem roundMag_nearest (s : Bool) (h : n < (2 ^ 128 - 2 ^ 103) * d) (y : Word) :
    |(mag (withSign s (roundMag n d)) : ℚ) / 2 ^ 149 - n / d| ≤ |(mag y : ℚ) / 2 ^ 149 - n / d| ∧
      (|(mag y : ℚ) / 2 ^ 149 - n / d| = |(mag (withSign s (roundMag n d)) : ℚ) / 2 ^ 149 - n / d| →
        mag y = mag (withSign s (roundMag n d)) ∨ fracField (withSign s (roundMag n d)) % 2 = 0) := by
  have hd' : (0 : ℚ) < d := by exact_mod_cast hd
  obtain ⟨hnear, htie⟩ := mag_nearest (n := n) hd y
  have hfrac : fracField (withSign s (roundMag n d)) % 2 = significand n d % 2 := by
    rw [roundMag_of_lt hd h, fracField_withSign (by have := roundMag_lt_inf hd h; omega)]
    omega
  rw [mag_withSign_roundMag hd s h, hfrac, abs_mag_sub_ratio hd, abs_mag_sub_ratio hd]
  push_cast
  refine ⟨div_le_div_of_nonneg_right (by exact_mod_cast hnear) (by positivity), fun he => htie ?_⟩
  rw [div_left_inj' (by positivity)] at he
  exact_mod_cast he

/-- The error of a rounded ratio is at most half the weight of its last bit. -/
theorem roundMag_error (s : Bool) (h : n < (2 ^ 128 - 2 ^ 103) * d) :
    |(mag (withSign s (roundMag n d)) : ℚ) / 2 ^ 149 - n / d| ≤ 2 ^ scale n d / 2 ^ 150 := by
  have hd' : (0 : ℚ) < d := by exact_mod_cast hd
  have herr := roundDiv_error (n := n * 2 ^ 149) (d := d * 2 ^ scale n d) (by positivity)
  rw [← significand] at herr
  rw [mag_withSign_roundMag hd s h, abs_mag_sub_ratio hd, div_le_div_iff₀ (by positivity) (by positivity)]
  have hscale : ((significand n d * 2 ^ scale n d : ℕ) * d - n * 2 ^ 149 : ℤ) =
      significand n d * (d * 2 ^ scale n d : ℕ) - (n * 2 ^ 149 : ℕ) := by
    push_cast
    ring
  rw [hscale]
  have herr' : (2 * |(significand n d * (d * 2 ^ scale n d : ℕ) - (n * 2 ^ 149 : ℕ) : ℤ)| : ℤ) ≤
      ((d * 2 ^ scale n d : ℕ) : ℚ) := by exact_mod_cast herr
  push_cast at herr' ⊢
  linarith

/-- The rounded ratio with a sign is the nearest finite number to the ratio with that sign, ties to an even fraction. -/
theorem withSign_roundMag_nearest (s : Bool) (h : n < (2 ^ 128 - 2 ^ 103) * d) (y : Word) :
    |val (withSign s (roundMag n d)) - signed s (n / d)| ≤ |val y - signed s (n / d)| ∧
      (|val y - signed s (n / d)| = |val (withSign s (roundMag n d)) - signed s (n / d)| →
        val y = val (withSign s (roundMag n d)) ∨ fracField (withSign s (roundMag n d)) % 2 = 0) := by
  obtain ⟨hnear, htie⟩ := roundMag_nearest hd s h y
  have hsign : sign (withSign s (roundMag n d)) = s := sign_withSign (by have := roundMag_le_inf n d; omega)
  have hratio : (0 : ℚ) ≤ n / d := by positivity
  have hr : val (withSign s (roundMag n d)) = signed s (mag (withSign s (roundMag n d)) / 2 ^ 149) := by
    rw [val_eq_signed, hsign]
  have hmag : |(mag y : ℚ) / 2 ^ 149 - n / d| ≤ |val y - signed s (n / d)| := by
    have := abs_abs_sub_abs_le (val y) (signed s (n / d))
    rwa [abs_signed, abs_of_nonneg hratio, abs_val] at this
  rw [hr, abs_signed_sub]
  refine ⟨hnear.trans hmag, fun he => ?_⟩
  obtain hy | heven := htie (le_antisymm (hmag.trans he.le) hnear)
  swap
  · exact .inr heven
  left
  obtain hsame | hopposite : sign y = s ∨ sign y = !s := by cases sign y <;> cases s <;> simp
  · rw [val_eq_signed, hsame, hy]
  · have hatZero := (roundMag_nearest hd s h posZero).1
    rw [mag_posZero, Nat.cast_zero, zero_div, zero_sub, abs_neg, abs_of_nonneg hratio] at hatZero
    rw [val_eq_signed, hopposite, hy, signed_not, abs_signed_sub] at he
    have hzero := eq_zero_of_opposite (by positivity) hratio he hatZero
    rw [val_eq_signed, hy, hzero]
    simp [signed]

end

end Sys2Proof.Machine.F32
end

section
/-! PROOFS. `rne32` and `fmul32` are the IEEE roundings (00_scope.md, R18), and what the block's values need of them. -/

namespace Sys2Proof.Machine.F32

section
variable {n d : Nat} (hd : 0 < d)
include hd

theorem roundMag_eq_inf_iff : roundMag n d = 0x7F800000 ↔ (2 ^ 128 - 2 ^ 103) * d ≤ n := by
  rw [← overflow_iff hd, roundMag_eq, min_eq_right_iff]

theorem isInf_withSign_roundMag_iff (s : Bool) :
    isInf (withSign s (roundMag n d)) = true ↔ (2 ^ 128 - 2 ^ 103) * d ≤ n :=
  (isInf_withSign_iff (roundMag_le_inf n d)).trans (roundMag_eq_inf_iff hd)

theorem finite_withSign_roundMag (s : Bool) (h : n < (2 ^ 128 - 2 ^ 103) * d) :
    finite (withSign s (roundMag n d)) = true := by
  refine finite_withSign (lt_of_le_of_ne (roundMag_le_inf n d) fun he => ?_)
  exact Nat.not_le.mpr h ((roundMag_eq_inf_iff hd).mp he)

end

theorem sign_withSign_roundMag (s : Bool) (n d : Nat) : sign (withSign s (roundMag n d)) = s :=
  sign_withSign (by have := roundMag_le_inf n d; omega)

/-- Settles O59: the ratio with a plus sign. -/
theorem roundingIsNearestEven : Obligations.RoundingIsNearestEven := by
  intro n d hd
  rw [rne32_eq_withSign]
  exact ⟨isInf_withSign_roundMag_iff hd false, fun h =>
    ⟨finite_withSign_roundMag hd false h, sign_withSign_roundMag false n d,
      fun y _ => withSign_roundMag_nearest hd false h y⟩⟩

/-! Products -/

theorem finite_iff {x : Word} : finite x = true ↔ isNaN x = false ∧ isInf x = false := by
  simp only [finite, isNaN, isInf, bne_iff_ne, ne_eq, Bool.and_eq_false_iff, beq_eq_false_iff_ne, bne_eq_false_iff_eq]
  omega

/-- The magnitude of an infinity, above every finite one (R17). -/
theorem mag_of_isInf {x : Word} (h : isInf x = true) : mag x = 2 ^ 23 * 2 ^ 254 := by
  simp only [isInf, Bool.and_eq_true, beq_iff_eq] at h
  simp only [mag, h, OfNat.ofNat_ne_zero, if_false, add_zero]

theorem mag_lt_of_finite {x : Word} (h : finite x = true) : mag x < 2 ^ 23 * 2 ^ 254 := by
  have hfrac := fracField_lt x
  have hexp : expField x - 1 ≤ 253 := by
    have := expField_lt x
    simp only [finite, bne_iff_ne] at h
    omega
  rw [mag]
  split_ifs
  · omega
  · calc (2 ^ 23 + fracField x) * 2 ^ (expField x - 1) ≤ (2 ^ 23 + fracField x) * 2 ^ 253 :=
          Nat.mul_le_mul_left _ (Nat.pow_le_pow_right (by decide) hexp)
      _ < 2 ^ 24 * 2 ^ 253 := Nat.mul_lt_mul_of_pos_right (by omega) (by decide)
      _ = 2 ^ 23 * 2 ^ 254 := by decide

theorem mag_ne_zero_of_isInf {x : Word} (h : isInf x = true) : mag x ≠ 0 := by
  rw [mag_of_isInf h]
  decide

theorem ival_eq_zero_iff {x : Word} : ival x = 0 ↔ mag x = 0 := by
  rw [ival]
  split_ifs <;> simp

/-- Exactly the two zeros equal +0.0 (R19). -/
theorem eq_posZero_iff {x : Word} : eq x posZero = true ↔ isNaN x = false ∧ mag x = 0 := by
  rw [eq_iff, ival_posZero, ival_eq_zero_iff]
  simp

theorem ival_le_mag (x : Word) : ival x ≤ mag x := by
  rw [ival]
  split_ifs <;> omega

/-- A number that is not a NaN is infinite or finite. -/
theorem isInf_or_finite {x : Word} (h : isNaN x = false) : isInf x = true ∨ finite x = true := by
  cases hi : isInf x with
  | true => exact .inl rfl
  | false => exact .inr (finite_iff.mpr ⟨h, hi⟩)

/-- A number that equals +0.0 is finite. -/
theorem finite_of_eq_posZero {x : Word} (h : eq x posZero = true) : finite x = true := by
  obtain ⟨hnan, hmag⟩ := eq_posZero_iff.mp h
  exact (isInf_or_finite hnan).resolve_left fun hi => mag_ne_zero_of_isInf hi hmag

section
variable {a b : Word}

/-- The order of numbers is that of their values (R19). -/
theorem ival_lt_of_val_lt (h : val a < val b) : ival a < ival b := by
  rw [val, val, div_lt_div_iff_of_pos_right (by positivity)] at h
  exact_mod_cast h

/-- +infinity is above every finite number (R19). -/
theorem ival_lt_of_posInf (ha : finite a = true) (hb : isInf b = true) (hsign : sign b = false) : ival a < ival b := by
  have hivalb : ival b = mag b := by rw [ival, hsign, if_neg Bool.false_ne_true]
  have hmag := mag_lt_of_finite ha
  have hle := ival_le_mag a
  rw [hivalb, mag_of_isInf hb]
  omega

theorem mul_of_nan (h : isNaN a = true ∨ isNaN b = true) : mul a b = quietNaN := by
  simp only [mul, Bool.or_eq_true, h, if_true]

theorem mul_of_inf (ha : isNaN a = false) (hb : isNaN b = false) (h : isInf a = true ∨ isInf b = true) :
    mul a b = if mag a = 0 ∨ mag b = 0 then quietNaN else withSign (sign a != sign b) 0x7F800000 := by
  simp only [mul, ha, hb, Bool.or_self, Bool.false_eq_true, if_false, Bool.or_eq_true, h, if_true]

/-- The product of two finite numbers is the product of the magnitudes, rounded once, with its sign (R18). -/
theorem mul_of_finite (ha : finite a = true) (hb : finite b = true) :
    mul a b = withSign (sign a != sign b) (roundMag (mag a * mag b) (2 ^ 149 * 2 ^ 149)) := by
  obtain ⟨hna, hia⟩ := finite_iff.mp ha
  obtain ⟨hnb, hib⟩ := finite_iff.mp hb
  simp only [mul, hna, hnb, hia, hib, Bool.or_self, Bool.false_eq_true, if_false]

/-- An infinity times a zero is a NaN, any other product of an infinity an infinity with its sign (R18). -/
theorem mul_inf_cases (ha : isNaN a = false) (hb : isNaN b = false) (h : isInf a = true ∨ isInf b = true) :
    (((isInf a = true ∧ eq b posZero = true) ∨ (eq a posZero = true ∧ isInf b = true)) ∧ mul a b = quietNaN) ∨
      (¬((isInf a = true ∧ eq b posZero = true) ∨ (eq a posZero = true ∧ isInf b = true)) ∧
        mul a b = withSign (sign a != sign b) 0x7F800000) := by
  have hzero : mag a = 0 ∨ mag b = 0 ↔
      (isInf a = true ∧ eq b posZero = true) ∨ (eq a posZero = true ∧ isInf b = true) := by
    rw [eq_posZero_iff, eq_posZero_iff]
    constructor
    · rintro (h0 | h0)
      · exact .inr ⟨⟨ha, h0⟩, h.resolve_left fun hi => mag_ne_zero_of_isInf hi h0⟩
      · exact .inl ⟨h.resolve_right fun hi => mag_ne_zero_of_isInf hi h0, hb, h0⟩
    · rintro (⟨-, -, h0⟩ | ⟨⟨-, h0⟩, -⟩)
      · exact .inr h0
      · exact .inl h0
  rw [mul_of_inf ha hb h, ← hzero]
  split_ifs with h0
  · exact .inl ⟨h0, rfl⟩
  · exact .inr ⟨h0, rfl⟩

/-- The exact product, with its sign, is the ratio that `fmul32` rounds. -/
theorem val_mul_val (a b : Word) :
    val a * val b = signed (sign a != sign b) (((mag a * mag b : ℕ) : ℚ) / ((2 ^ 149 * 2 ^ 149 : ℕ) : ℚ)) := by
  rw [val_eq_signed, val_eq_signed, signed_mul, div_mul_div_comm, Nat.cast_mul, Nat.cast_mul, Nat.cast_pow, Nat.cast_two]

/-- The size of the exact product against the overflow bound, in whole numbers. -/
theorem product_lt_iff (a b : Word) :
    mag a * mag b < (2 ^ 128 - 2 ^ 103) * (2 ^ 149 * 2 ^ 149) ↔ |val a * val b| < 2 ^ 128 - 2 ^ 103 := by
  rw [val_mul_val, abs_signed, abs_of_nonneg (by positivity), div_lt_iff₀ (by positivity), ← Nat.cast_lt (α := ℚ)]
  norm_num

end

theorem isNaN_quietNaN : isNaN quietNaN = true := by decide

/-- When a product is a NaN, its sign when it is none, and that an infinity makes it infinite when it is none (R18). -/
theorem mul_special (a b : Word) :
    (isNaN (mul a b) = true ↔ isNaN a = true ∨ isNaN b = true ∨
      (isInf a = true ∧ eq b posZero = true) ∨ (eq a posZero = true ∧ isInf b = true)) ∧
    (isNaN (mul a b) = false → sign (mul a b) = (sign a != sign b)) ∧
    (isNaN (mul a b) = false → isInf a = true ∨ isInf b = true → isInf (mul a b) = true) := by
  by_cases hn : isNaN a = true ∨ isNaN b = true
  · rw [mul_of_nan hn, isNaN_quietNaN]
    exact ⟨iff_of_true rfl (or_assoc.mp (.inl hn)), nofun, nofun⟩
  obtain ⟨ha, hb⟩ := not_or.mp hn
  rw [Bool.not_eq_true] at ha hb
  by_cases hi : isInf a = true ∨ isInf b = true
  · obtain ⟨hz, hr⟩ | ⟨hz, hr⟩ := mul_inf_cases ha hb hi
    · rw [hr, isNaN_quietNaN]
      exact ⟨iff_of_true rfl (.inr (.inr hz)), nofun, nofun⟩
    · rw [hr, isNaN_withSign le_rfl]
      refine ⟨iff_of_false (by decide) ?_, fun _ => sign_withSign (by decide),
        fun _ _ => (isInf_withSign_iff le_rfl).mpr rfl⟩
      rw [← or_assoc]
      exact not_or.mpr ⟨hn, hz⟩
  · obtain ⟨hia, hib⟩ := not_or.mp hi
    have hfa := (isInf_or_finite ha).resolve_left hia
    have hfb := (isInf_or_finite hb).resolve_left hib
    rw [mul_of_finite hfa hfb, isNaN_withSign (roundMag_le_inf _ _)]
    refine ⟨iff_of_false (by decide) ?_, fun _ => sign_withSign_roundMag _ _ _, fun _ h => absurd h hi⟩
    rw [← or_assoc]
    exact not_or.mpr ⟨hn, fun h => hi (h.imp And.left And.right)⟩

/-- Settles O60: a NaN, an infinity, or the exact product rounded once. -/
theorem productIsNearestEven : Obligations.ProductIsNearestEven := by
  intro a b r e
  obtain ⟨hnan, hsign, hinf⟩ := mul_special a b
  refine ⟨hnan, hsign, hinf, fun ha hb => ?_⟩
  have hpos : 0 < 2 ^ 149 * 2 ^ 149 := by decide
  have hr : r = _ := mul_of_finite ha hb
  have he : e = _ := val_mul_val a b
  rw [hr]
  refine ⟨?_, fun h => ?_⟩
  · rw [isInf_withSign_roundMag_iff hpos, ← Nat.not_lt, product_lt_iff, not_lt]
  · have hlt := (product_lt_iff a b).mpr h
    rw [he]
    exact ⟨finite_withSign_roundMag hpos _ hlt, fun y _ => withSign_roundMag_nearest hpos _ hlt y⟩

end Sys2Proof.Machine.F32
end

section
/-! PROOFS. The rounded values the block stores: estimates, bin frequencies, phase increments and output samples
(41_zero_crossing.md section 5, 42_spectral.md section 2, 44_oscillator.md). -/

namespace Sys2Proof.Machine.F32

/-- A quotient without a remainder is not rounded. -/
theorem roundDiv_mul_of_dvd {n d : Nat} (hd : 0 < d) (h : d ∣ n) : roundDiv n d * d = n := by
  have hr := Nat.mod_eq_zero_of_dvd h
  obtain ⟨hq, -⟩ | ⟨-, hlt⟩ := roundDiv_cases (n := n) (d := d)
  · rw [hq, Nat.div_mul_cancel h]
  · omega

theorem val_rne32 (n d : Nat) : val (rne32 n d) = mag (rne32 n d) / 2 ^ 149 := by
  rw [val_eq_signed, rne32_eq_withSign, sign_withSign_roundMag, signed, if_neg Bool.false_ne_true]

section
variable {n d : Nat} (hd : 0 < d)
include hd

theorem mag_rne32 (h : n < (2 ^ 128 - 2 ^ 103) * d) : mag (rne32 n d) = significand n d * 2 ^ scale n d := by
  rw [rne32_eq_withSign, mag_withSign_roundMag hd false h]

theorem finite_rne32 (h : n < (2 ^ 128 - 2 ^ 103) * d) : finite (rne32 n d) = true := by
  rw [rne32_eq_withSign]
  exact finite_withSign_roundMag hd false h

/-- A ratio of at least 2^-149 does not round to 0. -/
theorem significand_pos (h : d ≤ n * 2 ^ 149) : 0 < significand n d := by
  by_cases hk : scale n d = 0
  · refine lt_of_lt_of_le ?_ div_le_roundDiv
    rw [hk]
    exact Nat.div_pos (by omega) (by omega)
  · exact lt_of_lt_of_le (by decide) (le_significand hd hk)

/-- A ratio that is a multiple of the weight of its last bit is exact. -/
theorem val_rne32_of_dvd (h : n < (2 ^ 128 - 2 ^ 103) * d) (hdvd : d * 2 ^ scale n d ∣ n * 2 ^ 149) :
    val (rne32 n d) = n / d := by
  have hexact : significand n d * (d * 2 ^ scale n d) = n * 2 ^ 149 := roundDiv_mul_of_dvd (by positivity) hdvd
  have hd' : (0 : ℚ) < d := by exact_mod_cast hd
  rw [val_rne32, mag_rne32 hd h, div_eq_div_iff (by positivity) hd'.ne']
  exact_mod_cast (by linarith : significand n d * 2 ^ scale n d * d = n * 2 ^ 149)

end

theorem lt_posZero_iff {x : Word} : lt posZero x = true ↔ isNaN x = false ∧ 0 < ival x := by simp [lt_iff]

end Sys2Proof.Machine.F32

namespace Sys2Proof.Machine

/-! Zero-crossing estimates (R161, R171) -/

theorem zcEstimate_pos {interval : Nat} (h1 : 1 ≤ interval) (h2 : interval ≤ 2 ^ 32) :
    F32.finite (zcEstimate Config.sampleRate interval) = true ∧
      F32.lt posZero (zcEstimate Config.sampleRate interval) = true := by
  rw [zcEstimate_eq]
  have hbound : 48000 < (2 ^ 128 - 2 ^ 103) * interval := by omega
  have hfinite := F32.finite_rne32 h1 hbound
  refine ⟨hfinite, F32.lt_posZero_iff.mpr ⟨F32.isNaN_of_finite hfinite, ?_⟩⟩
  have hmag : 0 < F32.mag (F32.rne32 48000 interval) := by
    have := F32.significand_pos (n := 48000) h1 (by omega)
    rw [F32.mag_rne32 h1 hbound]
    positivity
  rw [F32.ival, F32.rne32_eq_withSign, F32.sign_withSign_roundMag, if_neg Bool.false_ne_true,
    ← F32.rne32_eq_withSign]
  exact_mod_cast hmag

/-- Settles O37: an interval is 1 to 2^32 samples, so the ratio is far above the least positive number. -/
theorem zcEstimateIsPositive : Obligations.ZcEstimateIsPositive := by
  intro count lastPos
  obtain ⟨h1, h2⟩ := zcInterval_range count lastPos
  exact zcEstimate_pos h1 h2

/-! Bin frequencies (R194) -/

/-- Settles O44: 48000 is 375 * 2^7, and 375 times a bin has at most 20 bits, so no bit of the ratio is lost. -/
theorem binFrequencyIsExact : Obligations.BinFrequencyIsExact := by
  intro l best hl hl' hbest
  have hpos : 0 < 2 ^ l := by positivity
  have hpow : 2 ^ l ≤ 2 ^ 12 := Nat.pow_le_pow_right (by decide) hl'
  have hbound : best * 48000 < (2 ^ 128 - 2 ^ 103) * 2 ^ l := by omega
  rw [binFreq_eq]
  refine ⟨F32.finite_rne32 hpos hbound, ?_⟩
  have hscale : l + F32.scale (best * 48000) (2 ^ l) ≤ 156 := by
    by_cases hk : F32.scale (best * 48000) (2 ^ l) = 0
    · omega
    have hle := F32.scale_le hpos hk
    by_contra! hlt
    have hge : 2 ^ 156 * 2 ^ 23 ≤ 2 ^ (F32.scale (best * 48000) (2 ^ l) + 23) * 2 ^ l := by
      rw [← Nat.pow_add, ← Nat.pow_add]
      exact Nat.pow_le_pow_right (by decide) (by omega)
    omega
  rw [F32.val_rne32_of_dvd hpos hbound]
  · push_cast
    rfl
  · rw [← Nat.pow_add, show best * 48000 * 2 ^ 149 = 375 * best * 2 ^ 156 by ring]
    exact Dvd.dvd.mul_left (Nat.pow_dvd_pow 2 hscale) _

/-! Phase increments (R233, R243) -/

/-- A number below 24000.0 is at most the next number below, 24000 - 2^-9. -/
theorem mag_le_of_lt_24000 {fv : Word} (h : F32.mag fv < 24000 * 2 ^ 149) : F32.mag fv + 2 ^ 140 ≤ 24000 * 2 ^ 149 := by
  obtain ⟨b, hb⟩ | hlt := F32.mag_dvd_or_lt fv 140
  · omega
  · omega

/-- The rounded quotient of R233 before it is taken modulo 2^32. -/
def phaseSteps (fv : Word) : Nat := F32.roundDiv (F32.mag fv * 2 ^ 32) (48000 * 2 ^ 149)

theorem phaseInc_eq (fv : Word) : phaseInc Config.sampleRate fv =
    if F32.sign fv then -u32 (phaseSteps fv) else u32 (phaseSteps fv) := by
  rw [phaseInc, F32.mag_sampleRate]
  rfl

/-- Below half the sample rate the increment does not reach 2^31, so its sign is that of the frequency. -/
theorem phaseSteps_lt {fv : Word} (h : F32.mag fv < 24000 * 2 ^ 149) : phaseSteps fv < 2 ^ 31 := by
  have hmag := mag_le_of_lt_24000 h
  have hle := F32.roundDiv_le (n := F32.mag fv * 2 ^ 32) (d := 48000 * 2 ^ 149)
  have hdiv : F32.mag fv * 2 ^ 32 / (48000 * 2 ^ 149) < 2 ^ 31 - 1 := by
    rw [Nat.div_lt_iff_lt_mul (by decide)]
    omega
  rw [phaseSteps]
  omega

theorem toInt_phaseInc {fv : Word} (h : F32.mag fv < 24000 * 2 ^ 149) :
    (phaseInc Config.sampleRate fv).toInt = if F32.sign fv then -(phaseSteps fv : ℤ) else phaseSteps fv := by
  have hlt := phaseSteps_lt h
  have hnat : (u32 (phaseSteps fv)).toNat = phaseSteps fv := by
    rw [u32, BitVec.toNat_ofNat, Nat.mod_eq_of_lt (by omega)]
  have hint : (u32 (phaseSteps fv)).toInt = phaseSteps fv := by
    rw [BitVec.toInt_eq_toNat_of_lt (by omega), hnat]
  rw [phaseInc_eq]
  split_ifs
  · rw [BitVec.toInt_neg, hint, Int.bmod_eq_of_le (by omega) (by omega)]
  · exact hint

/-- Settles O54: the rounded quotient is off by at most half a step, and it keeps the sign of the frequency. -/
theorem incrementRepresentsFrequency : Obligations.IncrementRepresentsFrequency := by
  intro fv _ hlt
  have hmag : F32.mag fv < 24000 * 2 ^ 149 := by
    rw [F32.abs_val, div_lt_iff₀ (by positivity)] at hlt
    exact_mod_cast hlt
  have herr := F32.roundDiv_error_rat (n := F32.mag fv * 2 ^ 32) (d := 48000 * 2 ^ 149) (by decide)
  rw [← phaseSteps] at herr
  simp only [Nat.cast_mul, Nat.cast_pow, Nat.cast_ofNat] at herr
  have hsigned : ((phaseInc Config.sampleRate fv).toInt : ℚ) * 48000 / 2 ^ 32 =
      F32.signed (F32.sign fv) (phaseSteps fv * 48000 / 2 ^ 32) := by
    rw [toInt_phaseInc hmag, F32.signed]
    split_ifs <;> push_cast <;> ring
  rw [hsigned, F32.val_eq_signed, F32.abs_signed_sub]
  have hscaled : (phaseSteps fv : ℚ) * 48000 / 2 ^ 32 - F32.mag fv / 2 ^ 149 =
      (phaseSteps fv * (48000 * 2 ^ 149) - F32.mag fv * 2 ^ 32) / 2 ^ 181 := by ring
  rw [hscaled, abs_div, abs_of_pos (by positivity : (0 : ℚ) < 2 ^ 181), div_le_iff₀ (by positivity),
    show (48000 : ℚ) / 2 ^ 33 * 2 ^ 181 = 48000 * 2 ^ 149 / 2 by norm_num, le_div_iff₀' two_pos]
  exact herr

/-! Output samples (R232) -/

theorem mag_amp : F32.mag Config.amp = 11744051 * 2 ^ 125 := by decide

/-- A sine is finite and at most 1.0 in size (R231 (b)). -/
theorem sinCfg_bounds (p : Word) : F32.finite (sinCfg p) = true ∧ F32.mag (sinCfg p) ≤ 2 ^ 149 := by
  have h := sineLegal_sinCfg p
  rw [sineLegal, Bool.and_eq_true, decide_eq_true_eq, F32.mag_one32] at h
  exact h

/-- An output sample is the magnitude of the product, rounded once. -/
theorem voiceOut_eq_withSign (p : Word) : voiceOut p = F32.withSign (F32.sign Config.amp != F32.sign (sinCfg p))
    (F32.roundMag (F32.mag Config.amp * F32.mag (sinCfg p)) (2 ^ 149 * 2 ^ 149)) :=
  F32.mul_of_finite (by decide) (sinCfg_bounds p).1

theorem sampleProduct_le (p : Word) : F32.mag Config.amp * F32.mag (sinCfg p) ≤ F32.mag Config.amp * 2 ^ 149 :=
  Nat.mul_le_mul_left _ (sinCfg_bounds p).2

theorem sampleProduct_lt (p : Word) :
    F32.mag Config.amp * F32.mag (sinCfg p) < (2 ^ 128 - 2 ^ 103) * (2 ^ 149 * 2 ^ 149) :=
  (sampleProduct_le p).trans_lt (by decide)

/-- Every output sample is finite and no larger than the amplitude: rounding does not pass a number (R231, R232). -/
theorem voiceOut_bounded (p : Word) :
    F32.finite (voiceOut p) = true ∧ F32.mag (voiceOut p) ≤ F32.mag Config.amp := by
  have hpos : 0 < 2 ^ 149 * 2 ^ 149 := by decide
  rw [voiceOut_eq_withSign]
  refine ⟨F32.finite_withSign_roundMag hpos _ (sampleProduct_lt p), ?_⟩
  have hnear := (F32.roundMag_nearest hpos (F32.sign Config.amp != F32.sign (sinCfg p)) (sampleProduct_lt p) Config.amp).1
  have hle : ((F32.mag Config.amp * F32.mag (sinCfg p) : ℕ) : ℚ) / ((2 ^ 149 * 2 ^ 149 : ℕ) : ℚ) ≤
      F32.mag Config.amp / 2 ^ 149 := by
    rw [div_le_div_iff₀ (by positivity) (by positivity)]
    exact_mod_cast Nat.mul_le_mul_right (2 ^ 149) (sampleProduct_le p) |>.trans_eq (by ring)
  rw [abs_of_nonneg (sub_nonneg.mpr hle)] at hnear
  have hcast := (le_abs_self _).trans hnear
  rw [sub_le_sub_iff_right, div_le_div_iff_of_pos_right (by positivity)] at hcast
  exact_mod_cast hcast

/-- The rounding error of an output sample: the product is below 1, so its last bit weighs at most 2^-24. -/
theorem voiceOut_error (p : Word) :
    |F32.val (voiceOut p) - F32.val Config.amp * F32.val (sinCfg p)| ≤ 1 / 2 ^ 25 := by
  have hpos : 0 < 2 ^ 149 * 2 ^ 149 := by decide
  rw [F32.val_mul_val, voiceOut_eq_withSign, F32.val_eq_signed, F32.sign_withSign_roundMag, F32.abs_signed_sub]
  refine (F32.roundMag_error hpos _ (sampleProduct_lt p)).trans ?_
  have hscale : F32.scale (F32.mag Config.amp * F32.mag (sinCfg p)) (2 ^ 149 * 2 ^ 149) ≤ 125 := by
    by_contra! hlt
    have hle := F32.scale_le (n := F32.mag Config.amp * F32.mag (sinCfg p)) hpos (by omega)
    have hge : 2 ^ 149 ≤ 2 ^ (F32.scale (F32.mag Config.amp * F32.mag (sinCfg p)) (2 ^ 149 * 2 ^ 149) + 23) :=
      Nat.pow_le_pow_right (by decide) (by omega)
    have hprod : F32.mag Config.amp * F32.mag (sinCfg p) < 2 ^ 149 * 2 ^ 149 :=
      (sampleProduct_le p).trans_lt (by decide)
    omega
  rw [div_le_div_iff₀ (by positivity) (by positivity)]
  have : (2 : ℚ) ^ F32.scale (F32.mag Config.amp * F32.mag (sinCfg p)) (2 ^ 149 * 2 ^ 149) ≤ 2 ^ 125 :=
    pow_le_pow_right₀ (by norm_num) hscale
  linarith

/-- The stored amplitude is 0.7 within 1.2e-8 (R22). -/
theorem val_amp : F32.val Config.amp = 11744051 / 2 ^ 24 := by
  rw [F32.val_eq_signed, mag_amp, show F32.sign Config.amp = false by decide, F32.signed, if_neg Bool.false_ne_true]
  norm_num

theorem abs_val_sinCfg_le (p : Word) : |F32.val (sinCfg p)| ≤ 1 := by
  rw [F32.abs_val, div_le_one (by positivity)]
  exact_mod_cast (sinCfg_bounds p).2

/-- Settles O55: the error is that of the rounding, that of the stored amplitude on a sine of at most 1, and
0.7 times that of the sine. -/
theorem outputSampleIsAmplitudeTimesSine : Obligations.OutputSampleIsAmplitudeTimesSine := by
  refine ⟨by decide, by decide, by decide, by decide, fun _ => rfl, fun eps p hsine => ?_⟩
  have hround := (Rat.cast_le (K := ℝ)).mpr (voiceOut_error p)
  have hone : |((F32.val (sinCfg p) : ℚ) : ℝ)| ≤ 1 := by exact_mod_cast abs_val_sinCfg_le p
  have heps := hsine p
  push_cast [val_amp] at hround
  generalize ((F32.val (voiceOut p) : ℚ) : ℝ) = out at hround ⊢
  generalize ((F32.val (sinCfg p) : ℚ) : ℝ) = y at hround hone heps
  generalize Real.sin (2 * Real.pi * p.toNat / 2 ^ 32) = sine at heps ⊢
  have hamp : |(11744051 / 2 ^ 24 - 0.7) * y| ≤ 1.2 / 10 ^ 8 := by
    rw [abs_mul]
    calc |(11744051 / 2 ^ 24 - 0.7 : ℝ)| * |y| ≤ 1.2 / 10 ^ 8 * 1 := by
          gcongr
          rw [abs_le]
          norm_num
      _ = 1.2 / 10 ^ 8 := mul_one _
  have hsin : |0.7 * (y - sine)| ≤ 0.7 * eps := by
    rw [abs_mul, abs_of_pos (by norm_num : (0 : ℝ) < 0.7)]
    gcongr
  calc |out - 0.7 * sine|
      = |(out - 11744051 / 2 ^ 24 * y) + (11744051 / 2 ^ 24 - 0.7) * y + 0.7 * (y - sine)| := by ring_nf
    _ ≤ |out - 11744051 / 2 ^ 24 * y| + |(11744051 / 2 ^ 24 - 0.7) * y| + |0.7 * (y - sine)| := abs_add_three _ _ _
    _ ≤ 1 / 2 ^ 25 + 1.2 / 10 ^ 8 + 0.7 * eps := by gcongr
    _ ≤ 0.7 * eps + 1 / 2 ^ 24 + 1.2 / 10 ^ 8 := by linarith

end Sys2Proof.Machine
end

section
/-! PROOFS. The oscillator bank (44_oscillator.md). -/

namespace Sys2Proof.Machine

/-! The selected frequency and its tuning (R233) -/

/-- The frequency a legal selector selects (R233). -/
theorem selectFreq_eq {f : Fields} {s : State} {x : Word} (hf : freqFields f = true) (h0 : f.sub = 0 → x = s.arg0)
    (h1 : f.sub = 1 → x = s.zc.freq) (h2 : f.sub = 2 → x = s.spec.freq) : selectFreq f s = x := by
  obtain h | h | h := sub_of_freqFields hf
  · rw [selectFreq, if_pos h, h0 h]
  · rw [selectFreq, if_neg (h ▸ by decide), if_pos h, h1 h]
  · rw [selectFreq, if_neg (h ▸ by decide), if_neg (h ▸ by decide), h2 h]

theorem tune_eq_some {ratio : Vector Word 4} {sr x : Word} (hx : F32.finite x = true)
    (hv : ∀ v : Fin 4, F32.finite (F32.mul x ratio[v]) = true) :
    tune ratio sr x = some { freq := voiceFreqs ratio x, inc := (voiceFreqs ratio x).map (phaseInc sr) } :=
  (tune_eq_some_iff ..).mpr ⟨hx, fun v => voiceFreqs_getElem ratio x v ▸ hv v, rfl⟩

/-- `Tune` raises BAD_ARG for a frequency that is not finite, or not finite in a voice (R233). -/
theorem tune_eq_none {ratio : Vector Word 4} {sr x : Word}
    (h : F32.finite x = false ∨ ∃ v : Fin 4, F32.finite (F32.mul x ratio[v]) = false) : tune ratio sr x = none := by
  refine Option.eq_none_iff_forall_ne_some.mpr fun t ht => ?_
  obtain ⟨hx, hv, -⟩ := (tune_eq_some_iff ..).mp ht
  obtain h | ⟨v, h⟩ := h
  · exact absurd hx (Bool.eq_false_iff.mp h)
  · exact absurd (voiceFreqs_getElem ratio x v ▸ hv v) (Bool.eq_false_iff.mp h)

/-- The increment of each voice is that of its frequency (R233). -/
theorem voiceIncs_getElem (ratio : Vector Word 4) (sr x : Word) (v : Fin 4) :
    ((voiceFreqs ratio x).map (phaseInc sr))[v] = phaseInc sr (F32.mul x ratio[v]) := by
  rw [← voiceFreqs_getElem, Fin.getElem_fin, Vector.getElem_map]
  rfl

/-- Settles O50: the selected frequency has a tuning, and the bank starts with it. -/
theorem oscStartTunesAndZeroesPhases : Obligations.OscStartTunesAndZeroesPhases := by
  intro f s x hwf h0 h1 h2 hx hv
  rw [wellFormed_oscStart] at hwf
  obtain rfl := selectFreq_eq hwf h0 h1 h2
  refine ⟨_, exec_oscStart hwf (tune_eq_some hx hv), rfl, rfl, fun v => ⟨?_, ?_, ?_⟩, rfl, rfl⟩
  · exact voiceFreqs_getElem Config.ratio _ v
  · exact voiceIncs_getElem Config.ratio Config.sampleRate _ v
  · exact Vector.getElem_replicate v.isLt

/-- Settles O51: the selected frequency has a tuning, and nothing else of the bank changes. -/
theorem oscSetFreqKeepsPhases : Obligations.OscSetFreqKeepsPhases := by
  intro f s x hwf hs h0 h1 h2 hx hv
  rw [wellFormed_oscSetFreq] at hwf
  obtain rfl := selectFreq_eq hwf h0 h1 h2
  refine ⟨_, exec_oscSetFreq hwf hs (tune_eq_some hx hv), hs, rfl, rfl, fun v => ⟨?_, ?_⟩, rfl, rfl⟩
  · exact voiceFreqs_getElem Config.ratio _ v
  · exact voiceIncs_getElem Config.ratio Config.sampleRate _ v

/-- Ending a command with a code other than OK, as a next state (R291). -/
theorem complete_error {x : StatusCode} (h : x ≠ .ok) (s : State) :
    complete x s = { s with status := { code := x, err := true } } := by
  rw [complete, statusAfter_error h]

/-- Settles O52: each refusal is a case of the command's own equations. -/
theorem oscErrorsInOrder : Obligations.OscErrorsInOrder := by
  intro f s x h0 h1 h2
  refine ⟨fun hwf hs => ?_, fun hwf hs => ?_, fun hbad => ⟨fun hwf => ?_, fun hwf hs => ?_⟩⟩
  · rw [exec_oscSetFreq_notStarted (wellFormed_oscSetFreq f ▸ hwf) hs, complete_error (by decide)]
  · rw [exec_oscProcess_notStarted (wellFormed_oscProcess f ▸ hwf) hs, complete_error (by decide)]
  · rw [wellFormed_oscStart] at hwf
    rw [exec_oscStart_badArg hwf ((selectFreq_eq hwf h0 h1 h2).symm ▸ tune_eq_none hbad), complete_error (by decide)]
  · rw [wellFormed_oscSetFreq] at hwf
    rw [exec_oscSetFreq_badArg hwf hs ((selectFreq_eq hwf h0 h1 h2).symm ▸ tune_eq_none hbad), complete_error (by decide)]

/-! The loop of OSC_PROCESS in closed form (R242) -/

theorem u32_succ (n : Nat) : u32 (n + 1) = u32 n + 1 := BitVec.ofNat_add n 1

section
variable (smp : Word → Word) (inc : Vector Word 4) (b : BankOut) (n : Nat) (v : Fin 4)

/-- After n positions each phase has advanced n times. -/
theorem runBank_phase : (runBank smp inc n b).phase[v] = b.phase[v] + u32 n * inc[v] := by
  induction n with
  | zero => simp [u32]
  | succ n ih =>
    rw [runBank_succ, stepBank_phase, ih, u32_succ]
    ring

/-- After n positions the first n samples of a voice are those of its phase advanced step by step; the rest are old. -/
theorem runBank_out (j : Fin 48) : (runBank smp inc n b).out[v][j] =
    if j.val < n then smp (b.phase[v] + u32 j * inc[v]) else b.out[v][j] := by
  induction n with
  | zero => rfl
  | succ n ih =>
    rw [runBank_succ, stepBank_out, runBank_phase, Fin.getElem_fin, Vector.getElem_setIfInBounds j.isLt]
    obtain hlt | heq | hgt := Nat.lt_trichotomy j.val n
    · rw [if_neg hlt.ne', if_pos (by omega)]
      exact ih.trans (if_pos hlt)
    · rw [if_pos heq.symm, if_pos (by omega), heq]
    · rw [if_neg hgt.ne, if_neg (by omega)]
      exact ih.trans (if_neg (by omega))

end

/-- Settles O53, by the closed form of the loop. -/
theorem oscProcessClosedForm : Obligations.OscProcessClosedForm := by
  intro f s hwf hs
  rw [wellFormed_oscProcess] at hwf
  exact ⟨_, exec_oscProcess hwf hs rfl, fun v => runBank_phase .., fun v j => runBank_out .., rfl, rfl, rfl⟩

end Sys2Proof.Machine
end

section
/-! PROOFS. The spectral peak detector (42_spectral.md). -/

namespace Sys2Proof.Machine

/-! The bin search (R192, R193) -/

section
variable {mag : Nat → Word}

theorem peakBin_le (mag : Nat → Word) (kMax : Nat) : peakBin mag kMax ≤ kMax := by
  induction kMax with
  | zero => exact le_rfl
  | succ k ih =>
    simp only [peakBin]
    split_ifs
    · exact le_rfl
    · exact ih.trans (Nat.le_succ k)

/-- Among magnitudes without a NaN the search finds the lowest bin of the largest. -/
theorem peakBin_spec (hn : ∀ k, F32.isNaN (mag k) = false) (kMax : Nat) :
    (∀ k ≤ kMax, F32.ival (mag k) ≤ F32.ival (mag (peakBin mag kMax))) ∧
      ∀ k < peakBin mag kMax, F32.ival (mag k) < F32.ival (mag (peakBin mag kMax)) := by
  induction kMax with
  | zero => exact ⟨fun k hk => by rw [Nat.le_zero.mp hk, peakBin], fun k hk => absurd hk (Nat.not_lt_zero k)⟩
  | succ kMax ih =>
    obtain ⟨hmax, hfirst⟩ := ih
    simp only [peakBin]
    split_ifs with hlt
    · have hgt := (F32.lt_iff.mp hlt).2.2
      have hall : ∀ k ≤ kMax, F32.ival (mag k) < F32.ival (mag (kMax + 1)) := fun k hk => (hmax k hk).trans_lt hgt
      refine ⟨fun k hk => ?_, fun k hk => hall k (Nat.le_of_lt_succ hk)⟩
      obtain hk | rfl := Nat.le_succ_iff.mp hk
      · exact (hall k hk).le
      · exact le_rfl
    · refine ⟨fun k hk => ?_, hfirst⟩
      obtain hk | rfl := Nat.le_succ_iff.mp hk
      · exact hmax k hk
      · exact (F32.le_iff.mp ((F32.lt_false_iff_le (hn _) (hn _)).mp (Bool.eq_false_iff.mpr hlt))).2.2

/-- Where no bin exceeds bin 0 the search stays there. -/
theorem peakBin_eq_zero (h : ∀ k, F32.lt (mag 0) (mag k) = false) (kMax : Nat) : peakBin mag kMax = 0 := by
  induction kMax with
  | zero => rfl
  | succ k ih => simp [peakBin, ih, h]

end

/-! Magnitudes (R191) -/

/-- Whatever the free choice, a magnitude is neither a NaN nor negative (R191 (b)). -/
theorem specMagFor_legal (free : Nat → List Word → Nat → Word) (n : Nat) (x : List Word) (k : Nat) :
    F32.isNaN (specMagFor free n x k) = false ∧ F32.sign (specMagFor free n x k) = false := by
  unfold specMagFor
  split_ifs with _ hlegal
  · decide
  · simp only [magnitudeLegal, Bool.and_eq_true, Bool.not_eq_true'] at hlegal
    exact hlegal.1
  · decide

theorem isNaN_specMag (n : Nat) (x : List Word) (k : Nat) : F32.isNaN (specMag n x k) = false :=
  (specMagFor_legal Config.specMagFree n x k).1

/-- An all-zero input has magnitudes +0.0 (R191 (d)). -/
theorem specMag_silence {x : List Word} (hx : ∀ w ∈ x, F32.eq w posZero = true) (n k : Nat) :
    specMag n x k = posZero := by
  rw [specMag, specMagFor, if_pos (List.all_eq_true.mpr hx)]

theorem binFreq_zero (sr : Word) (n : Nat) : binFreq sr n 0 = posZero := by
  have hround : F32.roundMag (0 * F32.mag sr) (2 ^ 149 * n) = 0 := by simp [F32.roundMag, F32.roundDiv]
  rw [binFreq, F32.rne32, hround]
  rfl

/-! SPEC_ESTIMATE on this hardware -/

/-- Settles O42, by the order of the checks in the command's equations. -/
theorem specEstimateErrorsInOrder : Obligations.SpecEstimateErrorsInOrder := by
  intro f s hwf
  rw [wellFormed_specEstimate] at hwf
  refine ⟨fun hn => ?_, fun hn hx => ?_⟩
  · rw [exec_specEstimate_short hwf hn, complete_error (by decide)]
  · have hall : (recentSamples (2 ^ f.len.toNat) s.window).all F32.finite = false := by
      rw [List.all_eq_false]
      obtain ⟨w, hw, hfin⟩ := hx
      exact ⟨w, hw, Bool.eq_false_iff.mp hfin⟩
    rw [exec_specEstimate_badArg hwf hn hall, complete_error (by decide)]

/-- Settles O41: the search of the command's equation finds the lowest bin of largest magnitude. -/
theorem specEstimateFindsLowestPeak : Obligations.SpecEstimateFindsLowestPeak := by
  intro f s hwf hn x hx
  rw [wellFormed_specEstimate] at hwf
  have hnan := isNaN_specMag (2 ^ f.len.toNat) x
  obtain ⟨best, hb⟩ : ∃ b, b = peakBin (specMag (2 ^ f.len.toNat) x) (2 ^ f.len.toNat / 2) := ⟨_, rfl⟩
  obtain ⟨hmax, hfirst⟩ := peakBin_spec hnan (2 ^ f.len.toNat / 2)
  rw [← hb] at hmax hfirst
  obtain ⟨freq, hf⟩ : ∃ q, q = binFreq Config.sampleRate (2 ^ f.len.toNat) best := ⟨_, rfl⟩
  refine ⟨_, best, exec_specEstimate hwf hn (List.all_eq_true.mpr hx) rfl hb hf, hb ▸ peakBin_le _ _,
    fun k hk => F32.le_iff.mpr ⟨hnan _, hnan _, hmax k hk⟩, fun k hk => F32.lt_iff.mpr ⟨hnan _, hnan _, hfirst k hk⟩,
    rfl, hf.trans (binFreq_eq _ _), rfl, rfl, rfl, rfl⟩

/-- Settles O43: no magnitude exceeds another, so the search stays at bin 0, whose frequency is +0.0. -/
theorem silenceGivesBinZero : Obligations.SilenceGivesBinZero := by
  intro f s hwf hn hx
  rw [wellFormed_specEstimate] at hwf
  have hfinite : (recentSamples (2 ^ f.len.toNat) s.window).all F32.finite = true :=
    List.all_eq_true.mpr fun w hw => F32.finite_of_eq_posZero (hx w hw)
  have hb : 0 = peakBin (specMag (2 ^ f.len.toNat) (recentSamples (2 ^ f.len.toNat) s.window)) (2 ^ f.len.toNat / 2) := by
    refine (peakBin_eq_zero (fun k => ?_) _).symm
    rw [recentSamples, specMag_silence hx, specMag_silence hx, F32.lt_irrefl]
  rw [exec_specEstimate hwf hn hfinite rfl hb (binFreq_zero _ _).symm]
  rfl

/-! The peak of the reference spectrum (R191 (c)) -/

section
variable {mag : ℕ → List Word → ℕ → Word} {eps : ℝ} {n : ℕ} {x : List Word} {ref : ℕ → ℝ}

/-- Accurate magnitudes are ordered as the reference ones where those are further apart than twice the accuracy. -/
theorem ival_lt_of_margin (hacc : SpectrumAccurate mag eps n x) {j k : ℕ}
    (hlegal : F32.isNaN (mag n x k) = false ∧ F32.sign (mag n x k) = false) (hj : j ≤ n / 2) (hk : k ≤ n / 2)
    (hrj : IsRefMagnitude n x j (ref j)) (hrk : IsRefMagnitude n x k (ref k))
    (hfin : ref j ≤ ((maxFinite : ℚ) : ℝ)) (hmargin : ref j + 2 * (eps * ((absSum x : ℚ) : ℝ)) < ref k) :
    F32.ival (mag n x j) < F32.ival (mag n x k) := by
  obtain ⟨haccj, hinfj⟩ := hacc j (ref j) hj hrj
  obtain ⟨hacck, -⟩ := hacc k (ref k) hk hrk
  have hfinj : F32.finite (mag n x j) = true := by
    by_contra hne
    exact absurd (hinfj (Bool.eq_false_iff.mpr hne)) (not_lt.mpr hfin)
  cases hfink : F32.finite (mag n x k) with
  | false =>
    have hinf := (F32.isInf_or_finite hlegal.1).resolve_right (Bool.eq_false_iff.mp hfink)
    exact F32.ival_lt_of_posInf hfinj hinf hlegal.2
  | true =>
    have h₁ := (abs_le.mp (haccj hfinj)).2
    have h₂ := (abs_le.mp (hacck hfink)).1
    refine F32.ival_lt_of_val_lt ?_
    have : ((F32.val (mag n x j) : ℚ) : ℝ) < ((F32.val (mag n x k) : ℚ) : ℝ) := by linarith
    exact_mod_cast this

end

/-- Settles O45: the bin found has the largest magnitude, and no other bin than the reference peak can have it. -/
theorem peakIsDeterminateWithMargin : Obligations.PeakIsDeterminateWithMargin := by
  intro P f s best ref eps n x margin hwf hn hx hacc hbest href hpeak
  rw [wellFormedFor_specEstimate] at hwf
  have hlegal := specMagFor_legal P.specMagFree n x
  have hfound : best = peakBin (specMagFor P.specMagFree n x) (n / 2) := by
    by_contra hne
    have hle := peakBin_le (specMagFor P.specMagFree n x) (n / 2)
    obtain ⟨hfin, hmargin⟩ := hpeak _ hle (Ne.symm hne)
    have hlt := ival_lt_of_margin hacc (hlegal best) hle hbest (href _ hle) (href _ hbest) hfin hmargin
    exact absurd ((peakBin_spec (fun k => (hlegal k).1) (n / 2)).1 best hbest) (not_le.mpr hlt)
  obtain ⟨freq, hf⟩ : ∃ q, q = binFreq P.sampleRate n best := ⟨_, rfl⟩
  have hexec : execFor P (.specEstimate f) s = _ :=
    execSpecEstimateFor_ok hwf hn (List.all_eq_true.mpr hx) rfl hfound hf
  refine ⟨_, hexec, rfl, hf, rfl, rfl, rfl, rfl, ?_⟩
  rintro rfl
  rw [← execFor_params]
  exact hexec

end Sys2Proof.Machine
end

section
/-! PROOFS. The quantizer on any table (43_quantizer.md, R211, R213). -/

namespace Sys2Proof.Machine

/-- The first index with a property, in a scan of all indices in order. -/
theorem find?_finRange_eq_some {n : Nat} {p : Fin n → Bool} {k : Fin n} (hk : p k = true)
    (hfirst : ∀ m < k, p m = false) : (List.finRange n).find? p = some k := by
  rw [List.find?_eq_some_iff_getElem]
  refine ⟨hk, k, by simp, by simp, fun j hj => ?_⟩
  rw [List.getElem_finRange, Bool.not_eq_true']
  exact hfirst _ hj

theorem find?_finRange_eq_none {n : Nat} {p : Fin n → Bool} (h : ∀ k, p k = false) : (List.finRange n).find? p = none :=
  List.find?_eq_none.mpr fun k _ => Bool.eq_false_iff.mp (h k)

section
variable {t : Vector Word 17} {x : Word}

/-! The tone of a reading, in the order of R211 -/

theorem toneOf_below (h : F32.lt x t[0] = true) : toneOf t x = some 0 := if_pos h

theorem toneOf_above (hlow : F32.lt x t[0] = false) (h : F32.le t[16] x = true) : toneOf t x = some 15 := by
  rw [toneOf, if_neg (Bool.eq_false_iff.mp hlow), if_pos h]

theorem toneOf_between (hlow : F32.lt x t[0] = false) (hhigh : F32.le t[16] x = false) :
    toneOf t x = (List.finRange 16).find? (inInterval t x) := by
  rw [toneOf, if_neg (Bool.eq_false_iff.mp hlow), if_neg (Bool.eq_false_iff.mp hhigh)]

/-- A NaN lies below, above and in nothing (R19, R211). -/
theorem toneOf_nan (hx : F32.isNaN x = true) : toneOf t x = none := by
  have hlt : ∀ a, F32.lt x a = false := fun a => by simp [F32.lt, hx]
  have hle : ∀ a, F32.le a x = false := fun a => by simp [F32.le, hx]
  rw [toneOf_between (hlt _) (hle _)]
  exact find?_finRange_eq_none fun k => by simp [inInterval, hlt]

/-- With no NaN anywhere every reading has a tone, on any table (R211). -/
theorem exists_toneOf (ht : ∀ i : Fin 17, F32.isNaN t[i] = false) (hx : F32.isNaN x = false) :
    ∃ i, toneOf t x = some i := by
  cases hlow : F32.lt x t[0] with
  | true => exact ⟨0, toneOf_below hlow⟩
  | false =>
    cases hhigh : F32.le t[16] x with
    | true => exact ⟨15, toneOf_above hlow hhigh⟩
    | false =>
      obtain ⟨k, hk⟩ := exists_inInterval ht hx ((F32.lt_false_iff_le hx (ht 0)).mp hlow) hhigh
      rw [toneOf_between hlow hhigh]
      exact Option.isSome_iff_exists.mp (List.find?_isSome.mpr ⟨k, List.mem_finRange k, hk⟩)

end

/-- The tone index and the code QUANT_REMAP ends with (R211). -/
def quantAnswer (tone : Option (Fin 16)) : Fin 16 × StatusCode :=
  match tone with
  | some i => (i, .ok)
  | none => (0, .noMatch)

/-- QUANT_REMAP as one next state, with or without a match (R211). -/
theorem exec_quantRemap {f : Fields} {s : State} {tone : Option (Fin 16)} (h : noFields f = true)
    (ht : toneOf s.qthr s.arg0 = tone) :
    exec (.quantRemap f) s = .next { s with
      result0 := s.qremap[(quantAnswer tone).1]
      result1 := u32 (quantAnswer tone).1
      status := { code := (quantAnswer tone).2, err := s.status.err || decide ((quantAnswer tone).2 ≠ .ok) } } := by
  cases tone with
  | some i =>
    rw [exec_quantRemap_match h ht, complete, statusAfter_ok]
    simp [quantAnswer, setResults]
  | none =>
    rw [exec_quantRemap_noMatch h ht, complete_error (by decide)]
    simp [quantAnswer, setResults, u32]

/-- Settles O47: the answer to the tone of R211, case by case of its order. -/
theorem quantRemapFirstMatchOnAnyTable : Obligations.QuantRemapFirstMatchOnAnyTable := by
  intro f s hwf
  refine ⟨_, _, exec_quantRemap (wellFormed_quantRemap f ▸ hwf) rfl, fun hlow => ?_, fun hlow hhigh => ?_,
    fun hlow hhigh => ⟨fun k hk hfirst => ?_, fun hnone => ?_⟩⟩
  · rw [toneOf_below hlow]; exact ⟨rfl, rfl⟩
  · rw [toneOf_above hlow hhigh]; exact ⟨rfl, rfl⟩
  · rw [toneOf_between hlow hhigh, find?_finRange_eq_some hk hfirst]; exact ⟨rfl, rfl⟩
  · rw [toneOf_between hlow hhigh, find?_finRange_eq_none hnone]; exact ⟨rfl, rfl⟩

/-- Settles O48: a NaN has no tone, and without a NaN there is one. -/
theorem noMatchNeedsNaN : Obligations.NoMatchNeedsNaN := by
  intro f s t hwf hexec
  rw [exec_quantRemap (wellFormed_quantRemap f ▸ hwf) rfl] at hexec
  obtain rfl := Host.Outcome.next.inj hexec
  refine ⟨fun hx => ?_, fun hx hthr => ?_⟩
  · simp only [toneOf_nan hx]
    exact ⟨rfl, rfl, rfl⟩
  · obtain ⟨i, hi⟩ := exists_toneOf hthr hx
    simp only [hi]
    rfl

/-! The order of the thresholds (R213) -/

theorem firstUnordered_of_ordered {t : Vector Word 17} (h : ∀ i : Fin 16, F32.lt t[i.val] t[i.val + 1] = true) :
    firstUnordered t = 16 := by
  rw [firstUnordered, find?_finRange_eq_none fun i => by rw [h i]; rfl]
  rfl

theorem firstUnordered_of_first {t : Vector Word 17} {i : Fin 16} (hi : F32.lt t[i.val] t[i.val + 1] = false)
    (hfirst : ∀ m : Fin 16, m < i → F32.lt t[m.val] t[m.val + 1] = true) : firstUnordered t = i := by
  rw [firstUnordered, find?_finRange_eq_some (k := i) (by rw [hi]; rfl) fun m hm => by rw [hfirst m hm]; rfl]
  rfl

/-- Settles O49: the first index out of order is 16 exactly when there is none. -/
theorem quantCheckFindsFirstUnordered : Obligations.QuantCheckFindsFirstUnordered := by
  intro f s hwf
  refine ⟨_, exec_quantCheck (wellFormed_quantCheck f ▸ hwf), fun h => ?_, fun i hi hfirst => ?_, rfl, rfl⟩
  · rw [firstUnordered_of_ordered h]
    exact ⟨rfl, rfl⟩
  · have hne : (i.val == 16) = false := beq_eq_false_iff_ne.mpr i.isLt.ne
    rw [firstUnordered_of_first hi hfirst, hne]
    exact ⟨rfl, rfl⟩

end Sys2Proof.Machine
end

section
/-! PROOFS. The edge detector (45_edge.md). -/

namespace Sys2Proof.Machine

/-- The normalized reading of a level (R260). -/
def levelWord (high : Bool) : Word := if high then one32 else posZero

/-- A reading is the level of the pin or of ARG0, normalized (R260). -/
theorem gateReading_eq {f : Fields} {s : State} {high : Bool} (hf : gateFields f = true)
    (h0 : f.sub = 0 → high = s.gateIn) (h1 : f.sub = 1 → high = !F32.eq s.arg0 posZero) : gateReading f s = levelWord high := by
  obtain h | h := sub_of_gateFields hf
  · rw [gateReading, if_pos h, h0 h, levelWord]
  · rw [gateReading, if_neg (h ▸ by decide), h1 h, levelWord]
    cases F32.eq s.arg0 posZero <;> rfl

theorem exists_gateReading (f : Fields) (s : State) : ∃ high, gateReading f s = levelWord high := by
  rw [gateReading]
  split_ifs
  · exact ⟨true, rfl⟩
  · exact ⟨false, rfl⟩
  · exact ⟨false, rfl⟩
  · exact ⟨true, rfl⟩

/-- Of two normalized readings the low one is below the high one, and no other pair is ordered strictly (R260). -/
theorem lt_levelWord (a b : Bool) : F32.lt (levelWord a) (levelWord b) = (!a && b) := by cases a <;> cases b <;> decide

theorem levelWord_eq_posZero_iff (b : Bool) : levelWord b = posZero ↔ b = false := by cases b <;> decide

theorem levelWord_eq_one32_iff (b : Bool) : levelWord b = one32 ↔ b = true := by cases b <;> decide

/-- Settles O56: both readings are normalized levels, and a rise or a fall is a strict order of the two. -/
theorem edgeCommandsCompareAndStore : Obligations.EdgeCommandsCompareAndStore := by
  intro f s high h0 h1 hlast
  obtain ⟨before, hbefore⟩ : ∃ before, s.edge.last = levelWord before :=
    hlast.elim (fun h => ⟨false, h⟩) (fun h => ⟨true, h⟩)
  refine ⟨fun hwf => ?_, fun hwf => ?_⟩
  · rw [wellFormed_edgeRising] at hwf
    rw [exec_edgeRising hwf, gateReading_eq hwf h0 h1, hbefore, lt_levelWord, complete, storeReading, setResult0]
    simp only [levelWord_eq_posZero_iff]
    cases s.edge.hasLast <;> cases high <;> cases before <;> rfl
  · rw [wellFormed_edgeFalling] at hwf
    rw [exec_edgeFalling hwf, gateReading_eq hwf h0 h1, hbefore, lt_levelWord, complete, storeReading, setResult0]
    simp only [levelWord_eq_one32_iff]
    cases s.edge.hasLast <;> cases high <;> cases before <;> rfl

/-- An edge command leaves its reading in the detector (R262, R263). -/
theorem edge_after {i : Instr} {f : Fields} {s t : State} (hi : i = .edgeRising f ∨ i = .edgeFalling f)
    (hwf : i.wellFormed = true) (h : exec i s = .next t) : t.edge = { hasLast := true, last := gateReading f s } := by
  obtain rfl | rfl := hi
  · rw [exec_edgeRising (wellFormed_edgeRising f ▸ hwf)] at h
    obtain rfl := Host.Outcome.next.inj h
    rfl
  · rw [exec_edgeFalling (wellFormed_edgeFalling f ▸ hwf)] at h
    obtain rfl := Host.Outcome.next.inj h
    rfl

/-- An edge command whose reading is the stored one reports no edge (R264). -/
theorem edge_noEdge {j : Instr} {g : Fields} {t : State} (hj : j = .edgeRising g ∨ j = .edgeFalling g)
    (hwf : j.wellFormed = true) (h : t.edge.last = gateReading g t) : ∃ u, exec j t = .next u ∧ u.result0 = 0 := by
  have hflag : ∀ b, flagWord (b && F32.lt (gateReading g t) (gateReading g t)) = 0 := by
    intro b
    rw [F32.lt_irrefl, Bool.and_false]
    rfl
  obtain rfl | rfl := hj
  · refine ⟨_, exec_edgeRising (wellFormed_edgeRising g ▸ hwf), ?_⟩
    rw [h]
    exact hflag t.edge.hasLast
  · refine ⟨_, exec_edgeFalling (wellFormed_edgeFalling g ▸ hwf), ?_⟩
    rw [h]
    exact hflag t.edge.hasLast

/-- Settles O57: the second command compares the reading with itself. -/
theorem secondEdgeCommandSeesNoEdge : Obligations.SecondEdgeCommandSeesNoEdge := by
  intro i j f g s t hi hj hwfi hwfj hexec hreading
  exact edge_noEdge hj hwfj (by rw [edge_after hi hwfi hexec, hreading])

/-! Sequences of readings in ARG0 (R265) -/

/-- One of the two edge commands: EDGE_RISING or EDGE_FALLING. -/
def edgeCommand (rising : Bool) (f : Fields) : Instr := if rising then .edgeRising f else .edgeFalling f

/-- Is a pair of levels the edge that command reports (R262, R263)? -/
def isEdge (rising before now : Bool) : Bool := decide (before = (!rising) ∧ now = rising)

/-- Is a word of ARG0 a high level (R260)? -/
def isHigh (g : Word) : Bool := !F32.eq g posZero

/-- One edge command on a reading in ARG0, whatever the detector holds; what it reports where that is a level. -/
theorem exec_edgeCommand (rising : Bool) {f : Fields} (hf : gateFields f = true) (hsub : f.sub = 1) (g : Word)
    (s : State) :
    ∃ b, exec (edgeCommand rising f) { s with arg0 := g } =
        .next (complete .ok (storeReading (levelWord (isHigh g)) b { s with arg0 := g })) ∧
      ∀ before, s.edge.last = levelWord before → b = isEdge rising before (isHigh g) := by
  have hread : gateReading f { s with arg0 := g } = levelWord (isHigh g) :=
    gateReading_eq hf (fun h => absurd (h.symm.trans hsub) (by decide)) (fun _ => rfl)
  cases rising with
  | true =>
    refine ⟨_, (exec_edgeRising hf).trans (by rw [hread]), fun before h => ?_⟩
    change F32.lt s.edge.last _ = _
    rw [h, lt_levelWord]
    cases before <;> cases isHigh g <;> rfl
  | false =>
    refine ⟨_, (exec_edgeFalling hf).trans (by rw [hread]), fun before h => ?_⟩
    change F32.lt _ s.edge.last = _
    rw [h, lt_levelWord]
    cases before <;> cases isHigh g <;> rfl

section
variable (rising : Bool) {f : Fields} (hf : gateFields f = true) (hsub : f.sub = 1)
include hf hsub

/-- The results over readings from a detector that holds a level: each reading is compared with the one before it. -/
theorem edgeResults_of_level (readings : List Word) (s : State) (before : Bool) (hhas : s.edge.hasLast = true)
    (hlast : s.edge.last = levelWord before) :
    edgeResults (edgeCommand rising f) readings s = (List.range readings.length).map fun k =>
      if (before :: readings.map isHigh).getD k rising = (!rising) ∧
          (readings.map isHigh).getD k (!rising) = rising then 1
      else 0 := by
  induction readings generalizing s before with
  | nil => rfl
  | cons g rest ih =>
    obtain ⟨b, hexec, hb⟩ := exec_edgeCommand rising hf hsub g s
    obtain rfl := hb before hlast
    have htail := ih (complete .ok (storeReading (levelWord (isHigh g)) (isEdge rising before (isHigh g))
      { s with arg0 := g })) (isHigh g) rfl rfl
    have hresult : flagWord (s.edge.hasLast && isEdge rising before (isHigh g)) =
        if before = (!rising) ∧ isHigh g = rising then 1 else 0 := by
      simp [hhas, isEdge, flagWord]
    simp only [edgeResults, hexec, htail, List.length_cons, List.range_succ_eq_map, List.map_cons, List.map_map,
      List.cons.injEq]
    exact ⟨hresult, rfl⟩

/-- The results over readings from a detector with no history: the first is 0. -/
theorem edgeResults_of_fresh (readings : List Word) (s : State) (hhas : s.edge.hasLast = false) :
    edgeResults (edgeCommand rising f) readings s = (List.range readings.length).map fun k =>
      if 0 < k ∧ (readings.map isHigh).getD (k - 1) rising = (!rising) ∧
          (readings.map isHigh).getD k (!rising) = rising then 1
      else 0 := by
  cases readings with
  | nil => rfl
  | cons g rest =>
    obtain ⟨b, hexec, -⟩ := exec_edgeCommand rising hf hsub g s
    have htail := edgeResults_of_level rising hf hsub rest
      (complete .ok (storeReading (levelWord (isHigh g)) b { s with arg0 := g })) (isHigh g) rfl rfl
    have hresult : flagWord (s.edge.hasLast && b) = 0 := by rw [hhas]; rfl
    simp only [edgeResults, hexec, htail, List.length_cons, List.range_succ_eq_map, List.map_cons, List.map_map,
      List.cons.injEq, Nat.lt_irrefl, false_and, if_false]
    refine ⟨hresult, List.map_congr_left fun k _ => ?_⟩
    simp only [Function.comp_apply, Nat.succ_eq_add_one, Nat.succ_pos, true_and, Nat.add_sub_cancel, List.getD_cons_succ]

end

/-- Settles O58, for the two commands at once. -/
theorem edgeSequencesReportTransitions : Obligations.EdgeSequencesReportTransitions := by
  intro f readings s hhas hsub hwf
  have hf : gateFields f = true := wellFormed_edgeRising f ▸ hwf
  exact ⟨edgeResults_of_fresh true hf hsub readings s hhas, edgeResults_of_fresh false hf hsub readings s hhas⟩

end Sys2Proof.Machine
end

section
/-! PROOFS. What a scan of ZC_PROCESS leaves, from the positions of its crossings (41_zero_crossing.md, R160 to R163). -/

namespace Sys2Proof.Machine

/-! Positions of crossings -/

/-- Whether a sample crosses depends on the samples up to it only. -/
theorem crossesAt_append {z : ZcState} {xs ys : List Word} {j : Nat} (hj : j < xs.length) :
    crossesAt z (xs ++ ys) j = crossesAt z xs j := by
  have hget : ∀ i < xs.length, (xs ++ ys).getD i 0 = xs.getD i 0 := fun i hi => List.getD_append xs ys 0 i hi
  rw [crossesAt, crossesAt, hget j hj, hget 0 (by omega), hget (j - 1) (by omega)]

/-- The positions of a longer block: those of the shorter one, and its own where its last sample crosses. -/
theorem crossingPositions_concat (z : ZcState) (xs : List Word) (x : Word) :
    crossingPositions z (xs ++ [x]) =
      crossingPositions z xs ++ if crossesAt z (xs ++ [x]) xs.length then [xs.length] else [] := by
  have hold : (List.range xs.length).filter (crossesAt z (xs ++ [x])) = crossingPositions z xs :=
    List.filter_congr fun j hj => crossesAt_append (List.mem_range.mp hj)
  rw [crossingPositions, List.length_append, List.length_singleton, List.range_succ, List.filter_append, hold,
    List.filter_cons, List.filter_nil]

/-- Positions increase along a block. -/
theorem crossingPositions_pairwise (z : ZcState) (xs : List Word) : (crossingPositions z xs).Pairwise (· < ·) :=
  List.pairwise_lt_range.filter _

theorem lt_of_mem_crossingPositions {z : ZcState} {xs : List Word} {j : Nat} (h : j ∈ crossingPositions z xs) :
    j < xs.length :=
  List.mem_range.mp (List.mem_filter.mp h).1

/-! The detector after a scan -/

/-- The latched position after crossings at the given positions, latest first (R162). -/
def latchedPos (z : ZcState) : List Nat → Word
  | [] => z.lastPos
  | j :: _ => z.count + u32 j

/-- The estimate after crossings at the given positions, latest first: the last one and the one before it, which may
be the one the detector held (R161, R162). -/
def estimateAfter (sr : Word) (z : ZcState) : List Nat → Word
  | [] => z.freq
  | j :: earlier =>
    if z.hasCross || !earlier.isEmpty then zcEstimate sr (zcInterval (z.count + u32 j) (latchedPos z earlier)) else z.freq

/-- What a scan of `xs` from the detector `z` leaves, in terms of the positions of the crossings in `xs` (R162). -/
structure Scanned (sr : Word) (z : ZcState) (xs : List Word) (r : ZcState × Word) : Prop where
  count : r.1.count = z.count + u32 xs.length
  hasPrev : r.1.hasPrev = (z.hasPrev || !xs.isEmpty)
  last : r.1.last = xs.getLastD z.last
  hasCross : r.1.hasCross = (z.hasCross || !(crossingPositions z xs).reverse.isEmpty)
  lastPos : r.1.lastPos = latchedPos z (crossingPositions z xs).reverse
  freq : r.1.freq = estimateAfter sr z (crossingPositions z xs).reverse
  crossings : r.2 = u32 (crossingPositions z xs).length

section
variable {sr : Word} {z : ZcState} {xs : List Word} {r : ZcState × Word}

/-- The next sample crosses with the last one scanned, or with the one the detector held. -/
theorem Scanned.zcCrosses_eq (h : Scanned sr z xs r) (x : Word) :
    zcCrosses r.1 x = crossesAt z (xs ++ [x]) xs.length := by
  rw [zcCrosses, h.hasPrev, h.last]
  obtain rfl | ⟨ys, y, rfl⟩ := List.eq_nil_or_concat xs
  · simp [crossesAt]
  · simp [crossesAt]

/-- One sample more (R162). -/
theorem Scanned.concat (h : Scanned sr z xs r) (x : Word) :
    Scanned sr z (xs ++ [x]) (zcSample sr r.1 x, if zcCrosses r.1 x then r.2 + 1 else r.2) := by
  have hcross := h.zcCrosses_eq x
  have hlength : u32 (xs ++ [x]).length = u32 xs.length + 1 := by rw [List.length_append, List.length_singleton, u32_succ]
  cases hc : zcCrosses r.1 x with
  | false =>
    have hpos : crossingPositions z (xs ++ [x]) = crossingPositions z xs := by
      rw [crossingPositions_concat, ← hcross, hc, if_neg Bool.false_ne_true, List.append_nil]
    rw [zcSample_noCross sr hc, if_neg Bool.false_ne_true]
    exact {
      count := by rw [hlength, h.count, BitVec.add_assoc]
      hasPrev := by simp
      last := by simp
      hasCross := hpos ▸ h.hasCross
      lastPos := hpos ▸ h.lastPos
      freq := hpos ▸ h.freq
      crossings := hpos ▸ h.crossings }
  | true =>
    have hpos : crossingPositions z (xs ++ [x]) = crossingPositions z xs ++ [xs.length] := by
      rw [crossingPositions_concat, ← hcross, hc, if_pos rfl]
    have hrev : (crossingPositions z (xs ++ [x])).reverse = xs.length :: (crossingPositions z xs).reverse := by
      rw [hpos, List.reverse_concat]
    have hcount : u32 (crossingPositions z (xs ++ [x])).length = r.2 + 1 := by
      rw [hpos, List.length_append, List.length_singleton, u32_succ, h.crossings]
    rw [if_pos rfl]
    cases hhas : r.1.hasCross with
    | false =>
      have hnone := h.hasCross
      rw [hhas] at hnone
      rw [zcSample_firstCross sr hc hhas]
      exact {
        count := by rw [hlength, h.count, BitVec.add_assoc]
        hasPrev := by simp
        last := by simp
        hasCross := by simp [hrev]
        lastPos := by rw [hrev]; exact h.count
        freq := by
          have hempty : (crossingPositions z xs).reverse = [] := by simpa using (Bool.or_eq_false_iff.mp hnone.symm).2
          rw [hrev, estimateAfter, ← hnone, if_neg Bool.false_ne_true]
          exact h.freq.trans (by rw [hempty]; rfl)
        crossings := hcount.symm }
    | true =>
      have hsome := h.hasCross
      rw [hhas] at hsome
      rw [zcSample_laterCross sr hc hhas]
      exact {
        count := by rw [hlength, h.count, BitVec.add_assoc]
        hasPrev := by simp
        last := by simp
        hasCross := by simp [hrev, hhas]
        lastPos := by rw [hrev]; exact h.count
        freq := by rw [hrev, estimateAfter, ← hsome, if_pos rfl, ← h.lastPos, ← h.count]
        crossings := hcount.symm }

end

theorem scanned_zcScan (sr : Word) (z : ZcState) (xs : List Word) : Scanned sr z xs (zcScan sr (z, 0) xs) := by
  induction xs using List.reverseRecOn with
  | nil =>
    exact {
      count := by simp [u32]
      hasPrev := by simp
      last := rfl
      hasCross := by simp [crossingPositions]
      lastPos := rfl
      freq := rfl
      crossings := rfl }
  | append_singleton xs x ih =>
    rw [zcScan_append]
    exact ih.concat x

/-- The interval between two positions is their distance, also where the counter has wrapped (R161). -/
theorem zcInterval_positions (c : Word) {j k : Nat} (hlt : k < j) (hle : j - k ≤ 2 ^ 32) :
    zcInterval (c + u32 j) (c + u32 k) = j - k := by
  have hdiff : c + u32 j - (c + u32 k) = u32 (j - k) := by
    have hj : u32 j = u32 k + u32 (j - k) := by rw [u32, u32, u32, ← BitVec.ofNat_add, Nat.add_sub_cancel' hlt.le]
    rw [hj]
    ring
  have hnat : (u32 (j - k)).toNat = (j - k) % 2 ^ 32 := BitVec.toNat_ofNat ..
  simp only [zcInterval, hdiff]
  obtain heq | hsmall := hle.eq_or_lt
  · rw [if_pos (BitVec.eq_of_toNat_eq (by rw [hnat, heq]; rfl)), heq]
  · rw [if_neg fun h0 => ?_, hnat, Nat.mod_eq_of_lt hsmall]
    have := congrArg BitVec.toNat h0
    rw [hnat, Nat.mod_eq_of_lt hsmall] at this
    exact absurd this (by change j - k ≠ 0; omega)

/-- Two crossings or more in the block: the estimate is the rate over the distance of the last two (R161). -/
theorem estimateAfter_two (sr : Word) (z : ZcState) {j k : Nat} (rest : List Nat) (hlt : k < j) (hle : j - k ≤ 2 ^ 32) :
    estimateAfter sr z (j :: k :: rest) = zcEstimate sr (j - k) := by
  rw [estimateAfter, List.isEmpty_cons, Bool.not_false, Bool.or_true, if_pos rfl, latchedPos,
    zcInterval_positions z.count hlt hle]

/-! ZC_PROCESS -/

/-- The words of a captured snapshot: the block, and beyond its end the old words (R162, D51). -/
theorem captured_words {f : Fields} (hf : f.len.toNat ≤ 48) (s : State) (old : Vector Word 48) (j : Fin 48) :
    (writeFrom old 0 (sampleBlock f s))[j] = if j.val < f.len.toNat then s.inBlk[j] else old[j] := by
  rw [Fin.getElem_fin, writeFrom_getElem, ← sampleBlock_length hf s]
  simp only [Nat.zero_le, Nat.zero_add, true_and, Nat.sub_zero]
  split_ifs with h
  · exact sampleBlock_getElem h
  · rfl

theorem head_two_of_take {ps : List Nat} {j k : Nat} (h : ps.reverse.take 2 = [j, k]) :
    ∃ rest, ps.reverse = j :: k :: rest := by
  match hps : ps.reverse, h with
  | a :: b :: rest, h =>
    obtain ⟨rfl, rfl⟩ : a = j ∧ b = k := by simpa using h
    exact ⟨rest, rfl⟩

/-- Settles O34: the scan of the block from the positions of its crossings, and the capture. -/
theorem zcProcessResult : Obligations.ZcProcessResult := by
  intro f s hwf xs at'
  rw [wellFormed_zcProcess] at hwf
  obtain ⟨hlen1, hlen48⟩ := len_of_blockFields hwf
  have hlen : xs.length = f.len.toNat := sampleBlock_length hlen48 s
  have hne : xs ≠ [] := fun h => by rw [h] at hlen; simp at hlen; omega
  obtain ⟨r, hr⟩ : ∃ r, r = zcScan Config.sampleRate (s.zc, 0) (sampleBlock f s) := ⟨_, rfl⟩
  obtain ⟨hcount, hhasPrev, hlast, hhasCross, hlastPos, hfreq, hcrossings⟩ : Scanned Config.sampleRate s.zc xs r :=
    hr ▸ scanned_zcScan ..
  change _ = (s.zc.hasCross || !at'.reverse.isEmpty) at hhasCross
  change _ = latchedPos s.zc at'.reverse at hlastPos
  change _ = estimateAfter Config.sampleRate s.zc at'.reverse at hfreq
  rw [List.isEmpty_reverse] at hhasCross
  refine ⟨_, (ExecTo.zcProcess hwf hr).exec_eq, hlen ▸ hcount, hhasPrev.trans (by simp [hne]), ?_, hhasCross,
    fun j hj => ?_, fun j k hjk => ?_, fun j hj => ?_, fun hnone => ⟨?_, ?_⟩, rfl, hcrossings,
    snapCapture_idle, fun harmed => ⟨?_, ?_, fun j => ?_⟩, rfl, rfl⟩
  · rw [List.getLastD_eq_getLast?] at hlast
    change r.1.last = xs.getLast?.getD s.zc.last at hlast
    rw [List.getLast?_eq_some_getLast hne] at hlast ⊢
    exact congrArg some hlast
  · obtain ⟨rest, hrest⟩ := List.head?_eq_some_iff.mp (List.head?_reverse.trans hj)
    rw [hrest] at hlastPos
    exact hlastPos
  · obtain ⟨rest, hrest⟩ := head_two_of_take hjk
    have hlt : k < j := by
      have hdecreasing := List.pairwise_reverse.mpr (crossingPositions_pairwise s.zc xs)
      change at'.reverse.Pairwise _ at hdecreasing
      rw [hrest] at hdecreasing
      exact List.rel_of_pairwise_cons hdecreasing List.mem_cons_self
    have hj : j < xs.length := lt_of_mem_crossingPositions (List.mem_reverse.mp (hrest ▸ List.mem_cons_self))
    rw [hrest, estimateAfter_two _ _ _ hlt (by omega)] at hfreq
    exact hfreq
  · rw [hj, List.reverse_singleton, estimateAfter, List.isEmpty_nil, Bool.not_true, Bool.or_false] at hfreq
    exact hfreq
  · rw [hnone] at hfreq
    exact hfreq
  · rw [hnone] at hlastPos
    exact hlastPos
  · exact congrArg SnapState.armed (snapCapture_armed harmed)
  · exact congrArg SnapState.ready (snapCapture_armed harmed)
  · exact (congrArg (fun p : SnapState => p.words[j]) (snapCapture_armed harmed)).trans (captured_words hlen48 s _ j)

end Sys2Proof.Machine
end

section
/-! PROOFS. Sequences of blocks, the pure tone, and the snapshot commands (41_zero_crossing.md, R163 to R172). -/

namespace Sys2Proof.Machine

/-! Blocks in a row (R163) -/

/-- The count of crossings goes on from any start; the detector does not depend on it. -/
theorem zcScan_from (sr : Word) (z : ZcState) (n : Word) (xs : List Word) :
    zcScan sr (z, n) xs = ((zcScan sr (z, 0) xs).1, n + (zcScan sr (z, 0) xs).2) := by
  induction xs generalizing z n with
  | nil => simp
  | cons x xs ih =>
    rw [zcScan_cons, zcScan_cons, ih _ (if zcCrosses z x then n + 1 else n), ih _ (if zcCrosses z x then 0 + 1 else 0)]
    split_ifs
    · rw [zero_add, add_assoc]
    · rw [zero_add]

/-- Legal blocks of ZC_PROCESS, one after another, scan all their samples as one sequence; the last one reports the
estimate, and RESULT1 over all of them adds up to the crossings of the whole. -/
theorem runBlocks_zcProcess (blocks : List StagedBlock) (s : State)
    (hwf : ∀ b ∈ blocks, (Instr.zcProcess b.2).wellFormed = true) :
    ∃ t, runBlocks .zcProcess blocks s = .next t ∧
      t.zc = (zcScan Config.sampleRate (s.zc, 0) (blocks.map StagedBlock.samples).flatten).1 ∧
      crossingsReported blocks s = (zcScan Config.sampleRate (s.zc, 0) (blocks.map StagedBlock.samples).flatten).2 ∧
      (blocks ≠ [] → t.result0 = t.zc.freq) ∧ (s.snap.armed = false → t.snap = s.snap) := by
  induction blocks generalizing s with
  | nil => exact ⟨s, rfl, rfl, rfl, absurd rfl, fun _ => rfl⟩
  | cons b rest ih =>
    obtain ⟨hb, hrest⟩ := List.forall_mem_cons.mp hwf
    obtain ⟨r, hr⟩ : ∃ r, r = zcScan Config.sampleRate (s.zc, 0) b.samples := ⟨_, rfl⟩
    have hexec := (ExecTo.zcProcess (s := { s with inBlk := b.1 }) (wellFormed_zcProcess b.2 ▸ hb) hr).exec_eq
    obtain ⟨t, ht, hzc, hcrossings, hresult, hsnap⟩ := ih (complete .ok (setResults r.1.freq r.2
      { s with inBlk := b.1, zc := r.1, snap := snapCapture b.samples s.snap })) hrest
    have hscan : zcScan Config.sampleRate (s.zc, 0) ((b :: rest).map StagedBlock.samples).flatten =
        ((zcScan Config.sampleRate (r.1, 0) (rest.map StagedBlock.samples).flatten).1,
          r.2 + (zcScan Config.sampleRate (r.1, 0) (rest.map StagedBlock.samples).flatten).2) := by
      rw [List.map_cons, List.flatten_cons, zcScan_append, ← hr, ← zcScan_from]
    refine ⟨t, ?_, ?_, ?_, fun _ => ?_, fun hidle => ?_⟩
    · simp only [runBlocks, hexec]
      exact ht
    · rw [hscan]
      exact hzc
    · rw [hscan]
      simp only [crossingsReported, hexec]
      exact congrArg (r.2 + ·) hcrossings
    · cases rest with
      | nil =>
        obtain rfl := Host.Outcome.next.inj ht
        rfl
      | cons => exact hresult nofun
    · exact (hsnap (by rw [complete_snap, setResults_snap, snapCapture_idle hidle]; exact hidle)).trans
        (snapCapture_idle hidle)

/-- Settles O35: both splittings scan the same sequence. -/
theorem zcIndependentOfBlockSplit : Obligations.ZcIndependentOfBlockSplit := by
  intro blocks blocks' s hwf hwf' hsame
  obtain ⟨t, ht, hzc, -⟩ := runBlocks_zcProcess blocks s hwf
  obtain ⟨t', ht', hzc', -⟩ := runBlocks_zcProcess blocks' s hwf'
  refine ⟨t, t', ht, ht', by rw [hzc, hzc', hsame], fun hcleared k hk => ?_⟩
  obtain ⟨rest, hrest⟩ := List.head?_eq_some_iff.mp (List.head?_reverse.trans hk)
  have hlast := (scanned_zcScan Config.sampleRate s.zc (blocks.map StagedBlock.samples).flatten).lastPos
  rw [← hzc, hrest, latchedPos, hcleared] at hlast
  exact hlast.trans (BitVec.zero_add _)

/-! A signal that changes sign every h samples (R172) -/

/-- Position of sign change `i` of a signal that changes sign every `h` samples, begun `p` samples into a half period. -/
def signChange (h p i : Nat) : Nat := (i + 1) * h - p

section
variable {xs : List Word} {h p : Nat} {first second : SampleClass}
  (horder : (first, second) = (.pos, .neg) ∨ (first, second) = (.neg, .pos))
  (hclass : ∀ j, j < xs.length → classOf (xs.getD j 0) = if (j + p) / h % 2 = 0 then first else second)
include horder hclass

/-- Such a signal crosses where a half period begins, and nowhere else. -/
theorem crossesAt_tone {j : Nat} (hj : j + 1 < xs.length) :
    crossesAt ZcState.cleared xs (j + 1) = decide (h ∣ j + p + 1) := by
  have hstep : (j + 1 + p) / h = (j + p) / h + if h ∣ j + p + 1 then 1 else 0 := by
    rw [show j + 1 + p = j + p + 1 by omega, Nat.succ_div]
  obtain ⟨hfirst, hsecond, hne⟩ : first ≠ .unord ∧ second ≠ .unord ∧ first ≠ second := by
    obtain h | h := horder <;> obtain ⟨rfl, rfl⟩ := Prod.mk.inj h <;> decide
  have hordered : ∀ n : Nat, (if n % 2 = 0 then first else second) ≠ .unord := by
    intro n
    split_ifs
    · exact hfirst
    · exact hsecond
  have hdiffer : ∀ n : Nat, (if n % 2 = 0 then first else second) ≠ (if (n + 1) % 2 = 0 then first else second) := by
    intro n
    obtain heven | hodd := Nat.mod_two_eq_zero_or_one n
    · rw [if_pos heven, if_neg (by omega)]
      exact hne
    · rw [if_neg (by omega), if_pos (by omega)]
      exact hne.symm
  rw [crossesAt, if_neg (Nat.succ_ne_zero j), Nat.add_sub_cancel, Bool.eq_iff_iff, crossing_iff, hclass j (by omega),
    hclass (j + 1) hj, hstep, decide_eq_true_eq]
  by_cases hdvd : h ∣ j + p + 1
  · rw [if_pos hdvd]
    exact iff_of_true ⟨hordered _, hordered _, hdiffer _⟩ hdvd
  · rw [if_neg hdvd, Nat.add_zero]
    exact iff_of_false (fun hc => hc.2.2 rfl) hdvd

/-- The crossings of such a signal are its sign changes, in order. -/
theorem crossingPositions_tone (hp : p < h) :
    crossingPositions ZcState.cleared xs = (List.range ((xs.length - 1 + p) / h)).map (signChange h p) := by
  suffices hprefix : ∀ n ≤ xs.length, (List.range n).filter (crossesAt ZcState.cleared xs) =
      (List.range ((n - 1 + p) / h)).map (signChange h p) from hprefix _ le_rfl
  have hbegin : (List.range ((0 + p) / h)).map (signChange h p) = [] := by
    rw [Nat.zero_add, Nat.div_eq_of_lt hp]
    rfl
  intro n hn
  induction n with
  | zero => exact hbegin.symm
  | succ n ih =>
    rw [List.range_succ, List.filter_append, ih (by omega), List.filter_cons, List.filter_nil]
    cases n with
    | zero => exact (List.append_nil _).trans rfl
    | succ j =>
      rw [crossesAt_tone horder hclass hn, Nat.add_sub_cancel, Nat.add_sub_cancel, show j + 1 + p = j + p + 1 by omega,
        Nat.succ_div]
      by_cases hdvd : h ∣ j + p + 1
      · have hpos : signChange h p ((j + p) / h) = j + 1 := by
          have hmul := Nat.div_mul_cancel hdvd
          rw [Nat.succ_div, if_pos hdvd] at hmul
          rw [signChange, hmul]
          omega
        rw [if_pos hdvd, decide_eq_true hdvd, if_pos rfl, List.range_succ, List.map_append, List.map_singleton, hpos]
      · rw [if_neg hdvd, decide_eq_false hdvd, if_neg Bool.false_ne_true, List.append_nil, Nat.add_zero]

end

/-- Settles O36: the crossings are the sign changes, of which the last two are h samples apart. -/
theorem pureToneReportsRateOverHalfPeriod : Obligations.PureToneReportsRateOverHalfPeriod := by
  refine ⟨?_, by decide⟩
  intro blocks s h p first second hwf hcleared hh hle hp horder xs hlong hclass
  obtain ⟨t, ht, hzc, hreported, hresult, -⟩ := runBlocks_zcProcess blocks s hwf
  rw [hcleared] at hzc hreported
  obtain ⟨hcount, -, -, -, hlastPos, hfreq, hcrossings⟩ := scanned_zcScan Config.sampleRate ZcState.cleared xs
  have hpositions := crossingPositions_tone horder hclass hp
  obtain ⟨q, hq⟩ : ∃ q, (xs.length - 1 + p) / h = q + 2 := by
    have : 2 ≤ (xs.length - 1 + p) / h := by
      rw [Nat.le_div_iff_mul_le hh]
      omega
    exact ⟨_, (Nat.sub_add_cancel this).symm⟩
  have hrev : (crossingPositions ZcState.cleared xs).reverse =
      signChange h p (q + 1) :: signChange h p q :: ((List.range q).map (signChange h p)).reverse := by
    rw [hpositions, hq, List.range_succ, List.range_succ]
    simp
  have hgap : signChange h p (q + 1) - signChange h p q = h ∧ signChange h p q < signChange h p (q + 1) := by
    have hnext : (q + 1 + 1) * h = (q + 1) * h + h := Nat.succ_mul _ _
    have hfar : h ≤ (q + 1) * h := Nat.le_mul_of_pos_left h (Nat.succ_pos q)
    rw [signChange, signChange]
    omega
  rw [← hzc, hrev, estimateAfter_two _ _ _ hgap.2 (by omega), hgap.1, zcEstimate_eq] at hfreq
  rw [← hzc, hrev] at hlastPos
  rw [← hzc] at hcount
  have hne : blocks ≠ [] := by
    rintro rfl
    exact absurd hlong (Nat.not_lt_zero _)
  refine ⟨t, ht, hfreq, (hresult hne).trans hfreq, ?_, hcount.trans (BitVec.zero_add _), ?_⟩
  · rw [hlastPos, latchedPos, hq]
    exact BitVec.zero_add _
  · rw [hreported, hcrossings, hpositions, List.length_map, List.length_range]

/-! The snapshot and the detector's reset -/

/-- Settles O38, from the command's own equation. -/
theorem zcResetClearsDetectorOnly : Obligations.ZcResetClearsDetectorOnly := by
  intro f s hwf
  rw [exec_zcReset (wellFormed_zcReset f ▸ hwf), complete, statusAfter_ok]
  rfl

/-- Settles O39, from the three commands' own equations. -/
theorem snapshotCommandsTouchTheirFlag : Obligations.SnapshotCommandsTouchTheirFlag := by
  refine fun f s => ⟨fun hwf => ?_, fun hwf => ?_, fun hwf => ?_⟩
  · rw [exec_snapStart (wellFormed_snapStart f ▸ hwf), complete, statusAfter_ok]
  · rw [exec_snapCheck (wellFormed_snapCheck f ▸ hwf), complete, statusAfter_ok]
    rfl
  · rw [exec_snapComplete (wellFormed_snapComplete f ▸ hwf), complete, statusAfter_ok]

/-- Settles O40: the first block disarms the snapshot, and blocks after it leave an idle one alone. -/
theorem oneArmingOneCapture : Obligations.OneArmingOneCapture := by
  intro f b more s hwf hblocks
  obtain ⟨hb, hmore⟩ := List.forall_mem_cons.mp hblocks
  rw [wellFormed_zcProcess] at hb
  have hstart := exec_snapStart (s := s) (wellFormed_snapStart f ▸ hwf)
  obtain ⟨armed, harmed⟩ : ∃ armed, armed = complete .ok { s with snap := { s.snap with armed := true } } := ⟨_, rfl⟩
  rw [← harmed] at hstart
  obtain ⟨xs, hxs⟩ : ∃ xs, xs = sampleBlock b.2 { armed with inBlk := b.1 } := ⟨_, rfl⟩
  obtain ⟨r, hr⟩ : ∃ r, r = zcScan Config.sampleRate (armed.zc, 0) xs := ⟨_, rfl⟩
  have hfirst := (ExecTo.zcProcess (s := { armed with inBlk := b.1 }) hb (hxs ▸ hr)).exec_eq
  rw [← hxs] at hfirst
  have hcapture : snapCapture xs armed.snap =
      { armed := false, ready := true, words := writeFrom s.snap.words 0 xs } := by
    rw [snapCapture_armed (by rw [harmed]; rfl), harmed]
    rfl
  obtain ⟨t, ht, -, -, -, hidle⟩ := runBlocks_zcProcess more (complete .ok (setResults r.1.freq r.2
    { armed with inBlk := b.1, zc := r.1, snap := snapCapture xs armed.snap })) hmore
  have hsnap : t.snap = _ := (hidle (congrArg SnapState.armed hcapture)).trans hcapture
  refine ⟨armed, t, hstart, ?_, by rw [hsnap], by rw [hsnap], fun j => ?_⟩
  · simp only [runBlocks, hfirst]
    exact ht
  · rw [hsnap, hxs]
    exact captured_words (len_of_blockFields hb).2 { armed with inBlk := b.1 } s.snap.words j

end Sys2Proof.Machine
end

section
/-! PROOFS. The invariant, component by component, at reset and over every step (10_state.md). -/

namespace Sys2Proof.Machine

/-! The components of the invariant -/

/-- The clauses of the invariant about the zero-crossing detector. -/
structure ZcInv (z : ZcState) : Prop where
  fresh : z.hasPrev = false → z = ZcState.cleared
  noCross : z.hasCross = false → z.lastPos = 0 ∧ z.freq = posZero
  estimate : z.freq = posZero ∨
    ∃ interval, 1 ≤ interval ∧ interval ≤ 2 ^ 32 ∧ z.freq = zcEstimate Config.sampleRate interval

/-- The clause of the invariant about the spectral detector. -/
def SpecInv (p : SpecState) : Prop :=
  ∃ l k, 1 ≤ l ∧ l ≤ 12 ∧ k ≤ 2 ^ l / 2 ∧ p.bin = u32 k ∧ p.freq = binFreq Config.sampleRate (2 ^ l) k

/-- The clause of the invariant about the edge detector. -/
def EdgeInv (e : EdgeState) : Prop := e.last = posZero ∨ (e.hasLast = true ∧ e.last = one32)

/-- The clauses of the invariant about the oscillator bank. -/
structure OscInv (o : OscState) : Prop where
  off : o.started = false → o = State.reset.osc
  tuned : o.started = true → tune Config.ratio Config.sampleRate o.fund = some { freq := o.freq, inc := o.inc }

/-- The clause of the invariant about the output block. -/
def OutInv (out : Vector (Vector Word 48) 4) : Prop :=
  ∀ (v : Fin 4) (j : Fin 48), F32.finite out[v][j] = true ∧ F32.mag out[v][j] ≤ F32.mag Config.amp

theorem inv_iff {s : State} :
    Inv s ↔ Memory.wf s ∧ ZcInv s.zc ∧ SpecInv s.spec ∧ EdgeInv s.edge ∧ OscInv s.osc ∧ OutInv s.outBlk := by
  constructor
  · rintro ⟨hmem, hfresh, hnoCross, hestimate, hspec, hedge, hoff, htuned, hout⟩
    exact ⟨hmem, ⟨hfresh, hnoCross, hestimate⟩, hspec, hedge, ⟨hoff, htuned⟩, hout⟩
  · rintro ⟨hmem, ⟨hfresh, hnoCross, hestimate⟩, hspec, hedge, ⟨hoff, htuned⟩, hout⟩
    exact ⟨hmem, hfresh, hnoCross, hestimate, hspec, hedge, hoff, htuned, hout⟩

/-! Each component is kept by the operations that write it -/

theorem zcInv_cleared : ZcInv ZcState.cleared := ⟨fun _ => rfl, fun _ => ⟨rfl, rfl⟩, .inl rfl⟩

/-- One sample keeps the detector's clauses: an estimate is always one over an interval of 1 to 2^32 (R161, R162). -/
theorem ZcInv.sample {z : ZcState} (h : ZcInv z) (x : Word) : ZcInv (zcSample Config.sampleRate z x) := by
  cases hcross : zcCrosses z x with
  | false =>
    rw [zcSample_noCross _ hcross]
    exact ⟨nofun, h.noCross, h.estimate⟩
  | true =>
    cases hhas : z.hasCross with
    | false =>
      rw [zcSample_firstCross _ hcross hhas]
      exact ⟨nofun, nofun, h.estimate⟩
    | true =>
      obtain ⟨hge, hle⟩ := zcInterval_range z.count z.lastPos
      rw [zcSample_laterCross _ hcross hhas]
      exact ⟨nofun, fun hno => absurd (hhas.symm.trans hno) (by decide), .inr ⟨_, hge, hle, rfl⟩⟩

theorem ZcInv.scan {z : ZcState} (h : ZcInv z) (n : Word) (xs : List Word) :
    ZcInv (zcScan Config.sampleRate (z, n) xs).1 := by
  induction xs generalizing z n with
  | nil => exact h
  | cons x xs ih =>
    rw [zcScan_cons]
    exact ih (h.sample x) _

theorem specInv_reset : SpecInv State.reset.spec :=
  ⟨1, 0, le_rfl, by decide, Nat.zero_le _, rfl, (binFreq_zero _ _).symm⟩

theorem edgeInv_reading (f : Fields) (s : State) : EdgeInv { hasLast := true, last := gateReading f s } := by
  obtain ⟨high, hhigh⟩ := exists_gateReading f s
  rw [hhigh]
  cases high with
  | false => exact .inl rfl
  | true => exact .inr ⟨rfl, rfl⟩

theorem oscInv_reset : OscInv State.reset.osc := ⟨fun _ => rfl, nofun⟩

/-- A started bank is tuned to its fundamental, whatever its phases (R233). -/
theorem oscInv_of_tune {fund : Word} {t : Tuning} (ht : tune Config.ratio Config.sampleRate fund = some t)
    (phase : Vector Word 4) :
    OscInv { started := true, fund := fund, freq := t.freq, inc := t.inc, phase := phase } := ⟨nofun, fun _ => ht⟩

theorem outInv_reset : OutInv State.reset.outBlk := by
  intro v j
  have hzero : State.reset.outBlk[v][j] = posZero := by simp [State.reset]
  rw [hzero]
  decide

/-- The loop of OSC_PROCESS writes bounded samples and leaves the other words (R232, R242). -/
theorem OutInv.runBank {phase : Vector Word 4} {out : Vector (Vector Word 48) 4} (h : OutInv out) (inc : Vector Word 4)
    (n : Nat) : OutInv (runBank voiceOut inc n { phase := phase, out := out }).out := by
  intro v j
  rw [runBank_out]
  split_ifs
  · exact voiceOut_bounded _
  · exact h v j

/-! Reset, commands and steps -/

/-- Settles O25, component by component. -/
theorem resetStateSatisfiesInv : Obligations.ResetStateSatisfiesInv :=
  inv_iff.mpr ⟨reset_memory_wf, zcInv_cleared, specInv_reset, .inl rfl, oscInv_reset, outInv_reset⟩

/-- Every command keeps the invariant: each writes a component as the lemmas above say, or none. -/
theorem ExecTo.keeps_inv {s t : State} {i : Instr} (h : ExecTo s i t) (hs : Inv s) : Inv t := by
  have hmem' : Memory.wf t := exec_memory_wf hs.memory h.exec_eq
  obtain ⟨hmem, hzc, hspec, hedge, hosc, hout⟩ := inv_iff.mp hs
  cases h with
  | badField | nop | bufAppend | bufIsFull | snapStart | snapCheck | snapComplete | specShort | specBadArg | quantMatch
  | quantNoMatch | quantCheck | oscStartBadArg | oscSetFreqNotStarted | oscSetFreqBadArg | oscProcessNotStarted =>
    exact inv_iff.mpr ⟨hmem', hzc, hspec, hedge, hosc, hout⟩
  | softReset => exact inv_iff.mpr ⟨hmem', zcInv_cleared, specInv_reset, .inl rfl, oscInv_reset, outInv_reset⟩
  | zcProcess h hr => exact inv_iff.mpr ⟨hmem', hr ▸ hzc.scan 0 _, hspec, hedge, hosc, hout⟩
  | zcReset => exact inv_iff.mpr ⟨hmem', zcInv_cleared, hspec, hedge, hosc, hout⟩
  | @specEstimate f h hn hx n best freq hN hb hf =>
    obtain ⟨hlen1, hlen12⟩ := len_of_spectralFields h
    have hbest : best ≤ 2 ^ f.len.toNat / 2 := hb ▸ hN ▸ peakBin_le _ _
    exact inv_iff.mpr ⟨hmem', hzc, ⟨_, best, hlen1, hlen12, hbest, rfl, hN ▸ hf⟩, hedge, hosc, hout⟩
  | oscStart h ht => exact inv_iff.mpr ⟨hmem', hzc, hspec, hedge, oscInv_of_tune ht _, hout⟩
  | oscSetFreq h hstarted ht =>
    exact inv_iff.mpr ⟨hmem', hzc, hspec, hedge,
      ⟨fun hoff => absurd (hstarted.symm.trans hoff) (by decide), fun _ => ht⟩, hout⟩
  | oscProcess h hstarted hb =>
    exact inv_iff.mpr ⟨hmem', hzc, hspec, hedge,
      ⟨fun hoff => absurd (hstarted.symm.trans hoff) (by decide), hosc.tuned⟩, hb ▸ hout.runBank _ _⟩
  | edgeRising | edgeFalling => exact inv_iff.mpr ⟨hmem', hzc, hspec, edgeInv_reading _ _, hosc, hout⟩

/-- A host write to an element writes no component of the invariant. -/
theorem writeElem_keeps_inv {s : State} (hs : Inv s) (v : Word) (r : Reg) : Inv (writeElem v s r) := by
  have hparts := inv_iff.mp hs
  obtain ⟨-, hw⟩ | ⟨-, hw⟩ | ⟨i, -, hw⟩ | ⟨i, -, hw⟩ | ⟨j, -, hw⟩ | hw := writeElem_cases s v r
  all_goals rw [hw]; exact inv_iff.mpr hparts

/-- The inputs, the response, the readback and STATUS are no part of the invariant. -/
theorem Inv.env {s : State} (hs : Inv s) (g : Bool) (p : List Input) (q : Option Response) (c : Word) (st : Status) :
    Inv { s with gateIn := g, pending := p, response := q, cmd := c, status := st } := by
  have hparts := inv_iff.mp hs
  exact inv_iff.mpr hparts

/-- Settles O26, over everything a step can do. -/
theorem stepKeepsInv : Obligations.StepKeepsInv := by
  intro s t hs hstep
  cases stepTo_of_step hstep with
  | idle => exact hs
  | busRead | illegalWrite | gate => exact hs.env ..
  | illegalOpcode => exact hs.env ..
  | elemWrite => exact (writeElem_keeps_inv hs _ _).env ..
  | reset => exact Inv.env resetStateSatisfiesInv ..
  | command h hd he => exact (exec_eq_next_iff.mp he).keeps_inv (hs.env ..)

end Sys2Proof.Machine
end
